-- ==== Sys2Proof/Word.lean ====
section
/-! DEFINITION. The widths of the values the block works on (`00_scope.md` R9, R12, R13). -/

namespace Sys2Proof

/-- A byte of the input buffer (R45). -/
abbrev Byte := BitVec 8

/-- "a 16-bit unsigned quantity; the atomic unit of the instruction stream" (R9, R16). -/
abbrev Word := BitVec 16

/-- A reported address or branch target: 32 bits, modulo 2^32 (R10, R54). -/
abbrev Addr := BitVec 32

/-- A 3-bit register, mode or opmode field of an opcode Word (R9). -/
abbrev Field3 := BitVec 3

end Sys2Proof
end

