-- ==== Sys2Proof/Machine/Bits.lean ====
section
/-! DEFINITION. The bit-field extractor, byte order, sign extension and modulo-2^32 arithmetic
(`30_encoding.md` R64, `00_scope.md` R13, `20_memory.md` R48, R49, `40_decode_pipeline.md` R113). -/

namespace Sys2Proof

/-- The bit-field extractor `BFX(w, hi, lo) = w[hi:lo]`, for `15 >= hi >= lo` (R64). -/
def bfx (w : Word) (hi lo : Nat) : BitVec (hi - lo + 1) := w.extractLsb hi lo

/-- `w[i]` as a Bool (R12). -/
def bitAt (w : Word) (i : Nat) : Bool := w.getLsbD i

/-- Class: bits 15:12 (R65). -/
def classField (w : Word) : BitVec 4 := bfx w 15 12

/-- Register: bits 11:9 (R65). -/
def regField (w : Word) : Field3 := bfx w 11 9

/-- Opmode: bits 8:6 (R65); in MOVE the destination mode (R66). -/
def opmodeField (w : Word) : Field3 := bfx w 8 6

/-- Size: bits 7:6 (R65). -/
def sizeField (w : Word) : BitVec 2 := bfx w 7 6

/-- Size of MOVE and MOVEA: bits 13:12 (R65). -/
def moveSizeField (w : Word) : BitVec 2 := bfx w 13 12

/-- EA mode: bits 5:3 (R65). -/
def eaModeField (w : Word) : Field3 := bfx w 5 3

/-- EA register: bits 2:0 (R65). -/
def eaRegField (w : Word) : Field3 := bfx w 2 0

/-- Condition: bits 11:8 (R65). -/
def condField (w : Word) : BitVec 4 := bfx w 11 8

/-- Low byte: bits 7:0; the displacement of Bcc and BRA (R65), a byte immediate (R89), a bit number (R91), d8 (R87). -/
def lowByte (w : Word) : Byte := bfx w 7 0

/-- `Word(k) = Byte(2k) * 256 + Byte(2k + 1)`: big-endian (R48). -/
def wordOfBytes (hi lo : Byte) : Word := hi ++ lo

/-- The two bytes of a Word, the more significant first (R48). -/
def bytesOfWord (w : Word) : List Byte := [bfx w 15 8, bfx w 7 0]

/-- `h ++ l = h * 65536 + l`: the high Word comes first (R13, R49). -/
def longOfWords (h l : Word) : Addr := h ++ l

/-- `sext_8` (R13). -/
def sext8 (b : Byte) : Int := b.toInt

/-- `sext_16` (R13). -/
def sext16 (w : Word) : Int := w.toInt

/-- `sext_32` (R13). -/
def sext32 (x : Addr) : Int := x.toInt

/-- `mod32(x)`: x mod 2^32 (R13). -/
def mod32 (x : Int) : Addr := BitVec.ofInt 32 x

/-- The quick-data map `0 -> 8` (R113, R123, R132). -/
def quickValue (q : Field3) : Nat := if q = 0#3 then 8 else q.toNat

/-- `bitreverse16(m)[j] = m[15 - j]` (R118). -/
def bitReverse16 (m : Word) : Word := m.reverse

end Sys2Proof
end

