-- ==== Sys2Proof/Config.lean ====
section
/-! DEFINITION. What is fixed for one model of the block (`00_scope.md` R10, R11). -/

namespace Sys2Proof

/-- The parameter `BSR_SLOT`: what the opcode Words `0x61xx` mean (R10, R140). -/
inductive BsrSlot where
  /-- `Data`: the Word is a DATA record. -/
  | data
  /-- `BccF`: the Word is Bcc with condition F. -/
  | bccF
deriving DecidableEq, Repr

/-- The default of `BSR_SLOT` (R10, R140). -/
def Config.bsrSlotDefault : BsrSlot := .data

/-- "The maximum instruction length the block can emit is 5 Words" (R11). -/
def Config.maxLengthInWords : Nat := 5

end Sys2Proof
end

