-- ==== Sys2Proof/Syntax.lean ====
section
/-! DEFINITION. The classified opcode Word: operand sizes, the effective-address field, the 26 forms of the
classifier table and their families, and `Instr`, one constructor per row of spec/opcode_table.json.
An `Instr` holds the fields of the opcode Word alone, since "`Classify(w)` takes the opcode Word `w` only" (R101);
the extension Words are read by the instruction's meaning (log 7). -/

namespace Sys2Proof

/-- `OperandSize` (R23). -/
inductive OperandSize where
  | byte | word | long
deriving DecidableEq, Repr

/-- The sizes of the forms that have no Byte size: MOVEA, MOVEM, ADDA, and the index of mode 110 (R24, R80, R82). -/
inductive WordOrLong where
  | word | long
deriving DecidableEq, Repr

def WordOrLong.toSize : WordOrLong → OperandSize
  | .word => .word
  | .long => .long

/-- The three (mode, register) pairs that name no addressing mode: 111/101, 111/110 and 111/111 (R83). -/
inductive ReservedEa where
  | r101 | r110 | r111
deriving DecidableEq, Repr

/-- A (mode, register) pair of an EA field, one constructor per row of the table of R83. -/
inductive Ea where
  /-- `000`: Dn -/
  | dataReg (n : Field3)
  /-- `001`: An -/
  | addrReg (n : Field3)
  /-- `010`: (An) -/
  | indirect (n : Field3)
  /-- `011`: (An)+ -/
  | postInc (n : Field3)
  /-- `100`: -(An) -/
  | preDec (n : Field3)
  /-- `101`: (d16,An) -/
  | disp16 (n : Field3)
  /-- `110`: (d8,An,Xn) -/
  | indexed (n : Field3)
  /-- `111/000`: (xxx).W -/
  | absShort
  /-- `111/001`: (xxx).L -/
  | absLong
  /-- `111/010`: (d16,PC) -/
  | pcDisp
  /-- `111/011`: (d8,PC,Xn) -/
  | pcIndexed
  /-- `111/100`: #imm -/
  | immediate
  /-- `111/101..111` -/
  | reserved (r : ReservedEa)
deriving DecidableEq, Repr

/-- The count of a register-form shift: bits 11:9 as a number (i/r = 0) or as a data register (i/r = 1) (R75, R132). -/
inductive ShiftCount where
  | quick (field : Field3)
  | inReg (n : Field3)
deriving DecidableEq, Repr

/-- The six shift and rotate mnemonics `ShiftName` selects (R131). -/
inductive ShiftOp where
  | asr | asl | lsr | lsl | ror | rol
deriving DecidableEq, Repr

/-- The 14 supported families (R3, the family column of R95). -/
inductive Family where
  | move | add | sub | mulsDivs | lea | or | neg | eor | shift | bclr | cmp | branch | jsr | rts
deriving DecidableEq, Repr

/-- The 26 forms, the rows of the classifier table in its order (R95). -/
inductive Form where
  | rts | jsr | bclrImm | shiftMem | movemR2M | movemM2R | ori | cmpi | neg | branch | lea | muls | divs
  | adda | movea | subq | eor | cmp | addToEa | addToDn | subToEa | subToDn | orToEa | orToDn | shiftReg | move
deriving DecidableEq, Repr

/-- The family column of R95. -/
def Form.family : Form → Family
  | .rts => .rts
  | .jsr => .jsr
  | .bclrImm => .bclr
  | .shiftMem | .shiftReg => .shift
  | .move | .movea | .movemR2M | .movemM2R => .move
  | .ori | .orToEa | .orToDn => .or
  | .cmpi | .cmp => .cmp
  | .neg => .neg
  | .branch => .branch
  | .lea => .lea
  | .muls | .divs => .mulsDivs
  | .adda | .addToEa | .addToDn => .add
  | .subq | .subToEa | .subToDn => .sub
  | .eor => .eor

/-- One constructor per row of spec/opcode_table.json, with the fields of its opcode Word. -/
inductive Instr where
  | move (size : OperandSize) (src dst : Ea)
  | movea (size : WordOrLong) (src : Ea) (an : Field3)
  | movemR2M (size : WordOrLong) (ea : Ea)
  | movemM2R (size : WordOrLong) (ea : Ea)
  | addToDn (size : OperandSize) (dn : Field3) (ea : Ea)
  | addToEa (size : OperandSize) (dn : Field3) (ea : Ea)
  | adda (size : WordOrLong) (an : Field3) (ea : Ea)
  | subToDn (size : OperandSize) (dn : Field3) (ea : Ea)
  | subToEa (size : OperandSize) (dn : Field3) (ea : Ea)
  | subq (size : OperandSize) (data : Field3) (ea : Ea)
  | muls (dn : Field3) (ea : Ea)
  | divs (dn : Field3) (ea : Ea)
  | lea (an : Field3) (ea : Ea)
  | orToDn (size : OperandSize) (dn : Field3) (ea : Ea)
  | orToEa (size : OperandSize) (dn : Field3) (ea : Ea)
  | ori (size : OperandSize) (ea : Ea)
  | neg (size : OperandSize) (ea : Ea)
  | eor (size : OperandSize) (dn : Field3) (ea : Ea)
  | asrReg (size : OperandSize) (count : ShiftCount) (dy : Field3)
  | aslReg (size : OperandSize) (count : ShiftCount) (dy : Field3)
  | lsrReg (size : OperandSize) (count : ShiftCount) (dy : Field3)
  | lslReg (size : OperandSize) (count : ShiftCount) (dy : Field3)
  | rorReg (size : OperandSize) (count : ShiftCount) (dy : Field3)
  | rolReg (size : OperandSize) (count : ShiftCount) (dy : Field3)
  | asrMem (ea : Ea)
  | aslMem (ea : Ea)
  | lsrMem (ea : Ea)
  | lslMem (ea : Ea)
  | rorMem (ea : Ea)
  | rolMem (ea : Ea)
  | bclr (ea : Ea)
  | cmp (size : OperandSize) (dn : Field3) (ea : Ea)
  | cmpi (size : OperandSize) (ea : Ea)
  | bra (disp8 : Byte)
  | bcc (cond : BitVec 4) (disp8 : Byte)
  | jsr (ea : Ea)
  | rts
deriving DecidableEq, Repr

/-- The form of the classifier table an instruction belongs to (R95). -/
def Instr.form : Instr → Form
  | .move .. => .move
  | .movea .. => .movea
  | .movemR2M .. => .movemR2M
  | .movemM2R .. => .movemM2R
  | .addToDn .. => .addToDn
  | .addToEa .. => .addToEa
  | .adda .. => .adda
  | .subToDn .. => .subToDn
  | .subToEa .. => .subToEa
  | .subq .. => .subq
  | .muls .. => .muls
  | .divs .. => .divs
  | .lea .. => .lea
  | .orToDn .. => .orToDn
  | .orToEa .. => .orToEa
  | .ori .. => .ori
  | .neg .. => .neg
  | .eor .. => .eor
  | .asrReg .. | .aslReg .. | .lsrReg .. | .lslReg .. | .rorReg .. | .rolReg .. => .shiftReg
  | .asrMem .. | .aslMem .. | .lsrMem .. | .lslMem .. | .rorMem .. | .rolMem .. => .shiftMem
  | .bclr .. => .bclrImm
  | .cmp .. => .cmp
  | .cmpi .. => .cmpi
  | .bra .. | .bcc .. => .branch
  | .jsr .. => .jsr
  | .rts => .rts

/-- The EA field of the opcode Word that the form's EA set constrains: the source EA in MOVE and MOVEA (R95). -/
def Instr.ea? : Instr → Option Ea
  | .move _ ea _ | .movea _ ea _ | .movemR2M _ ea | .movemM2R _ ea
  | .addToDn _ _ ea | .addToEa _ _ ea | .adda _ _ ea | .subToDn _ _ ea | .subToEa _ _ ea | .subq _ _ ea
  | .muls _ ea | .divs _ ea | .lea _ ea | .orToDn _ _ ea | .orToEa _ _ ea | .ori _ ea | .neg _ ea | .eor _ _ ea
  | .asrMem ea | .aslMem ea | .lsrMem ea | .lslMem ea | .rorMem ea | .rolMem ea
  | .bclr ea | .cmp _ _ ea | .cmpi _ ea | .jsr ea => some ea
  | .asrReg .. | .aslReg .. | .lsrReg .. | .lslReg .. | .rorReg .. | .rolReg .. | .bra _ | .bcc _ _ | .rts => none

/-- The destination EA field of MOVE (R66); no other form has a second one. -/
def Instr.dst? : Instr → Option Ea
  | .move _ _ dst => some dst
  | .movea .. | .movemR2M .. | .movemM2R .. | .addToDn .. | .addToEa .. | .adda .. | .subToDn .. | .subToEa ..
  | .subq .. | .muls .. | .divs .. | .lea .. | .orToDn .. | .orToEa .. | .ori .. | .neg .. | .eor ..
  | .asrReg .. | .aslReg .. | .lsrReg .. | .lslReg .. | .rorReg .. | .rolReg ..
  | .asrMem .. | .aslMem .. | .lsrMem .. | .lslMem .. | .rorMem .. | .rolMem ..
  | .bclr .. | .cmp .. | .cmpi .. | .bra .. | .bcc .. | .jsr .. | .rts => none

/-- The size column `s` of R95: none where the column has a dash (and for BRANCH, whose size is the
displacement width, R139). -/
def Instr.size? : Instr → Option OperandSize
  | .move s _ _ | .addToDn s _ _ | .addToEa s _ _ | .subToDn s _ _ | .subToEa s _ _ | .subq s _ _
  | .orToDn s _ _ | .orToEa s _ _ | .ori s _ | .neg s _ | .eor s _ _ | .cmp s _ _ | .cmpi s _
  | .asrReg s _ _ | .aslReg s _ _ | .lsrReg s _ _ | .lslReg s _ _ | .rorReg s _ _ | .rolReg s _ _ => some s
  | .movea s _ _ | .movemR2M s _ | .movemM2R s _ | .adda s _ _ => some s.toSize
  | .muls .. | .divs .. => some .word
  | .asrMem .. | .aslMem .. | .lsrMem .. | .lslMem .. | .rorMem .. | .rolMem .. => some .word
  | .lea .. | .bclr .. | .bra .. | .bcc .. | .jsr .. | .rts => none

end Sys2Proof
end

