-- ==== Sys2Proof/Machine/EaSets.lean ====
section
/-! DEFINITION. The addressing categories, the named EA sets and the EA-set column of the classifier table
(`30_encoding.md` R84, R85, R95). -/

namespace Sys2Proof

/-- The data column of R84. -/
def Ea.isData : Ea → Bool
  | .addrReg _ | .reserved _ => false
  | .dataReg _ | .indirect _ | .postInc _ | .preDec _ | .disp16 _ | .indexed _ | .absShort | .absLong
  | .pcDisp | .pcIndexed | .immediate => true

/-- The memory column of R84. -/
def Ea.isMemory : Ea → Bool
  | .dataReg _ | .addrReg _ | .reserved _ => false
  | .indirect _ | .postInc _ | .preDec _ | .disp16 _ | .indexed _ | .absShort | .absLong
  | .pcDisp | .pcIndexed | .immediate => true

/-- The control column of R84. -/
def Ea.isControl : Ea → Bool
  | .dataReg _ | .addrReg _ | .postInc _ | .preDec _ | .immediate | .reserved _ => false
  | .indirect _ | .disp16 _ | .indexed _ | .absShort | .absLong | .pcDisp | .pcIndexed => true

/-- The alterable column of R84. -/
def Ea.isAlterable : Ea → Bool
  | .pcDisp | .pcIndexed | .immediate | .reserved _ => false
  | .dataReg _ | .addrReg _ | .indirect _ | .postInc _ | .preDec _ | .disp16 _ | .indexed _
  | .absShort | .absLong => true

/-- The names of the EA sets (R85). -/
inductive EaSet where
  | all | data | dataAlt | memAlt | alt | control | movemR2M | movemM2R
  /-- `SRC(size)` -/
  | src
  /-- `QDST(size)` -/
  | quickDst
deriving DecidableEq, Repr

/-- Membership in the sets of R85 that do not depend on the size, each by its list of modes. -/
def Ea.inAll : Ea → Bool
  | .reserved _ => false
  | .dataReg _ | .addrReg _ | .indirect _ | .postInc _ | .preDec _ | .disp16 _ | .indexed _ | .absShort | .absLong
  | .pcDisp | .pcIndexed | .immediate => true

/-- `DATA` = `ALL` minus 001. -/
def Ea.inData : Ea → Bool
  | .addrReg _ => false
  | ea => ea.inAll

/-- `DATA_ALT` = 000, 010, 011, 100, 101, 110, 111/000, 111/001. -/
def Ea.inDataAlt : Ea → Bool
  | .dataReg _ | .indirect _ | .postInc _ | .preDec _ | .disp16 _ | .indexed _ | .absShort | .absLong => true
  | .addrReg _ | .pcDisp | .pcIndexed | .immediate | .reserved _ => false

/-- `MEM_ALT` = 010, 011, 100, 101, 110, 111/000, 111/001. -/
def Ea.inMemAlt : Ea → Bool
  | .indirect _ | .postInc _ | .preDec _ | .disp16 _ | .indexed _ | .absShort | .absLong => true
  | .dataReg _ | .addrReg _ | .pcDisp | .pcIndexed | .immediate | .reserved _ => false

/-- `ALT` = 000, 001 and `MEM_ALT`. -/
def Ea.inAlt : Ea → Bool
  | .dataReg _ | .addrReg _ => true
  | ea => ea.inMemAlt

/-- `CONTROL` = 010, 101, 110, 111/000, 111/001, 111/010, 111/011. -/
def Ea.inControl : Ea → Bool
  | .indirect _ | .disp16 _ | .indexed _ | .absShort | .absLong | .pcDisp | .pcIndexed => true
  | .dataReg _ | .addrReg _ | .postInc _ | .preDec _ | .immediate | .reserved _ => false

/-- `MOVEM_R2M` = 010, 100, 101, 110, 111/000, 111/001. -/
def Ea.inMovemR2M : Ea → Bool
  | .indirect _ | .preDec _ | .disp16 _ | .indexed _ | .absShort | .absLong => true
  | .dataReg _ | .addrReg _ | .postInc _ | .pcDisp | .pcIndexed | .immediate | .reserved _ => false

/-- `MOVEM_M2R` = 010, 011, 101, 110, 111/000, 111/001, 111/010, 111/011. -/
def Ea.inMovemM2R : Ea → Bool
  | .indirect _ | .postInc _ | .disp16 _ | .indexed _ | .absShort | .absLong | .pcDisp | .pcIndexed => true
  | .dataReg _ | .addrReg _ | .preDec _ | .immediate | .reserved _ => false

/-- `ea` is in the set, with the row's size applied where the set depends on it (R85). -/
def EaSet.mem (set : EaSet) (size : Option OperandSize) (ea : Ea) : Bool :=
  match set with
  | .all => ea.inAll
  | .data => ea.inData
  | .dataAlt => ea.inDataAlt
  | .memAlt => ea.inMemAlt
  | .alt => ea.inAlt
  | .control => ea.inControl
  | .movemR2M => ea.inMovemR2M
  | .movemM2R => ea.inMovemM2R
  | .src => if size = some .byte then ea.inData else ea.inAll
  | .quickDst => if size = some .byte then ea.inDataAlt else ea.inAlt

/-- The EA set column of R95; none where it has a dash. -/
def Form.eaSet : Form → Option EaSet
  | .rts | .branch | .shiftReg => none
  | .jsr | .lea => some .control
  | .bclrImm | .ori | .cmpi | .neg | .eor => some .dataAlt
  | .shiftMem | .addToEa | .subToEa | .orToEa => some .memAlt
  | .movemR2M => some .movemR2M
  | .movemM2R => some .movemM2R
  | .muls | .divs | .orToDn => some .data
  | .adda | .movea => some .all
  | .subq => some .quickDst
  | .cmp | .addToDn | .subToDn | .move => some .src

/-- The form's EA set, if it has one, holds `ea` at the size. -/
def Form.eaOk (f : Form) (size : Option OperandSize) (ea : Ea) : Bool :=
  match f.eaSet with
  | none => true
  | some set => set.mem size ea

end Sys2Proof
end

