-- ==== Sys2Proof/WellFormed.lean ====
section
/-! DEFINITION. The checks on an instruction as syntax: the operands its form admits
(`30_encoding.md` R85, R95, `46_branch_jsr_rts.md` R140, R141). -/

namespace Sys2Proof

/-- The EA field is in the form's EA set (R95). -/
def Instr.eaWf (i : Instr) : Bool :=
  match i.ea? with
  | none => true
  | some ea => i.form.eaOk i.size? ea

/-- The destination of MOVE is in `DATA_ALT` (R95 row 26, R116). -/
def Instr.dstWf (i : Instr) : Bool :=
  match i.dst? with
  | none => true
  | some ea => ea.inDataAlt

/-- Condition 0000 is BRA, and condition 0001 is Bcc only when `BSR_SLOT = BccF` (R140, R141). -/
def Instr.condWf (slot : BsrSlot) : Instr → Bool
  | .bcc cond _ => cond != 0#4 && (cond != 1#4 || slot == .bccF)
  | .move .. | .movea .. | .movemR2M .. | .movemM2R .. | .addToDn .. | .addToEa .. | .adda .. | .subToDn ..
  | .subToEa .. | .subq .. | .muls .. | .divs .. | .lea .. | .orToDn .. | .orToEa .. | .ori .. | .neg .. | .eor ..
  | .asrReg .. | .aslReg .. | .lsrReg .. | .lslReg .. | .rorReg .. | .rolReg ..
  | .asrMem .. | .aslMem .. | .lsrMem .. | .lslMem .. | .rorMem .. | .rolMem ..
  | .bclr .. | .cmp .. | .cmpi .. | .bra .. | .jsr .. | .rts => true

/-- A well-formed instruction: one some opcode Word encodes, under the value of `BSR_SLOT`. -/
def Instr.wf (slot : BsrSlot) (i : Instr) : Bool := i.eaWf && i.dstWf && i.condWf slot

end Sys2Proof
end

