-- ==== Sys2Proof/Decode.lean ====
section
/-! DEFINITION. The opcode classifier and its table (`30_encoding.md` R79 to R83, R95, R97, `40_decode_pipeline.md`
R101), the decoder of bytes, and after them the encoder, written from the formats R66 to R78. -/

namespace Sys2Proof

/-! ### Field codes -/

/-- The standard size code; `11` is not a size (R79). -/
def sizeStd? (c : BitVec 2) : Option OperandSize :=
  if c = 0b00#2 then some .byte
  else if c = 0b01#2 then some .word
  else if c = 0b10#2 then some .long
  else none

/-- The size code of MOVE: `01` Byte, `11` Word, `10` Long (R80). -/
def sizeMove? (c : BitVec 2) : Option OperandSize :=
  if c = 0b01#2 then some .byte
  else if c = 0b11#2 then some .word
  else if c = 0b10#2 then some .long
  else none

/-- The size code of MOVEA: `11` Word, `10` Long; "MOVEA.B does not exist" (R80, R117). -/
def sizeMovea? (c : BitVec 2) : Option WordOrLong :=
  if c = 0b11#2 then some .word
  else if c = 0b10#2 then some .long
  else none

/-- The one-bit size of ADDA (bit 8) and MOVEM (bit 6): 0 is Word, 1 is Long (R82). -/
def sizeBit (b : Bool) : WordOrLong := if b then .long else .word

/-- The EA field that a mode and a register name (R83). -/
def Ea.ofFields (mode reg : Field3) : Ea :=
  if mode = 0b000#3 then .dataReg reg
  else if mode = 0b001#3 then .addrReg reg
  else if mode = 0b010#3 then .indirect reg
  else if mode = 0b011#3 then .postInc reg
  else if mode = 0b100#3 then .preDec reg
  else if mode = 0b101#3 then .disp16 reg
  else if mode = 0b110#3 then .indexed reg
  else if reg = 0b000#3 then .absShort
  else if reg = 0b001#3 then .absLong
  else if reg = 0b010#3 then .pcDisp
  else if reg = 0b011#3 then .pcIndexed
  else if reg = 0b100#3 then .immediate
  else if reg = 0b101#3 then .reserved .r101
  else if reg = 0b110#3 then .reserved .r110
  else .reserved .r111

/-- The EA field in bits 5:3 and 2:0 (R65). -/
def eaField (w : Word) : Ea := Ea.ofFields (eaModeField w) (eaRegField w)

/-- The destination EA field of MOVE: mode in bits 8:6, register in bits 11:9 (R66). -/
def dstField (w : Word) : Ea := Ea.ofFields (opmodeField w) (regField w)

/-- `ShiftName(type, dr)`; type `10` (ROX) is not supported (R131). -/
def shiftName? (type : BitVec 2) (left : Bool) : Option ShiftOp :=
  if type = 0b00#2 then some (if left then .asl else .asr)
  else if type = 0b01#2 then some (if left then .lsl else .lsr)
  else if type = 0b11#2 then some (if left then .rol else .ror)
  else none

/-- The count of a register-form shift: i/r (bit 5) says how bits 11:9 are read (R75). -/
def shiftCountField (w : Word) : ShiftCount :=
  if bitAt w 5 then .inReg (regField w) else .quick (regField w)

/-! ### The classifier table -/

/-- The rows in the order the classifier tests them (R95). -/
def Form.all : List Form :=
  [.rts, .jsr, .bclrImm, .shiftMem, .movemR2M, .movemM2R, .ori, .cmpi, .neg, .branch, .lea, .muls, .divs] ++
  [.adda, .movea, .subq, .eor, .cmp, .addToEa, .addToDn, .subToEa, .subToDn, .orToEa, .orToDn, .shiftReg, .move]

/-- The mask column of R95. -/
def Form.mask : Form → Word
  | .rts => 0xFFFF#16
  | .jsr => 0xFFC0#16
  | .bclrImm => 0xFFC0#16
  | .shiftMem => 0xF8C0#16
  | .movemR2M => 0xFF80#16
  | .movemM2R => 0xFF80#16
  | .ori => 0xFF00#16
  | .cmpi => 0xFF00#16
  | .neg => 0xFF00#16
  | .branch => 0xF000#16
  | .lea => 0xF1C0#16
  | .muls => 0xF1C0#16
  | .divs => 0xF1C0#16
  | .adda => 0xF0C0#16
  | .movea => 0xC1C0#16
  | .subq => 0xF100#16
  | .eor => 0xF100#16
  | .cmp => 0xF100#16
  | .addToEa => 0xF100#16
  | .addToDn => 0xF100#16
  | .subToEa => 0xF100#16
  | .subToDn => 0xF100#16
  | .orToEa => 0xF100#16
  | .orToDn => 0xF100#16
  | .shiftReg => 0xF000#16
  | .move => 0xC000#16

/-- The match column of R95. -/
def Form.pattern : Form → Word
  | .rts => 0x4E75#16
  | .jsr => 0x4E80#16
  | .bclrImm => 0x0880#16
  | .shiftMem => 0xE0C0#16
  | .movemR2M => 0x4880#16
  | .movemM2R => 0x4C80#16
  | .ori => 0x0000#16
  | .cmpi => 0x0C00#16
  | .neg => 0x4400#16
  | .branch => 0x6000#16
  | .lea => 0x41C0#16
  | .muls => 0xC1C0#16
  | .divs => 0x81C0#16
  | .adda => 0xD0C0#16
  | .movea => 0x0040#16
  | .subq => 0x5100#16
  | .eor => 0xB100#16
  | .cmp => 0xB000#16
  | .addToEa => 0xD100#16
  | .addToDn => 0xD000#16
  | .subToEa => 0x9100#16
  | .subToDn => 0x9000#16
  | .orToEa => 0x8100#16
  | .orToDn => 0x8000#16
  | .shiftReg => 0xE000#16
  | .move => 0x0000#16

/-- The "further conditions" column of R95, with the destination of MOVE among them. -/
def Form.further (slot : BsrSlot) (f : Form) (w : Word) : Bool :=
  match f with
  | .rts | .jsr | .bclrImm | .movemR2M | .movemM2R | .lea | .muls | .divs | .adda => true
  | .shiftMem => bfx w 10 9 != 0b10#2
  | .ori | .cmpi | .neg | .subq | .eor | .cmp | .addToEa | .addToDn | .subToEa | .subToDn | .orToEa | .orToDn =>
    sizeField w != 0b11#2
  | .branch => condField w != 0b0001#4 || slot == .bccF
  | .movea => moveSizeField w == 0b10#2 || moveSizeField w == 0b11#2
  | .shiftReg => sizeField w != 0b11#2 && bfx w 4 3 != 0b10#2
  | .move => moveSizeField w != 0b00#2 && opmodeField w != 0b001#3 && (dstField w).inDataAlt

/-- The size column `s` of R95. -/
def Form.sizeOf (f : Form) (w : Word) : Option OperandSize :=
  match f with
  | .rts | .jsr | .bclrImm | .branch | .lea => none
  | .shiftMem | .muls | .divs => some .word
  | .movemR2M | .movemM2R => some (sizeBit (bitAt w 6)).toSize
  | .adda => some (sizeBit (bitAt w 8)).toSize
  | .movea | .move => sizeMove? (moveSizeField w)
  | .ori | .cmpi | .neg | .subq | .eor | .cmp | .addToEa | .addToDn | .subToEa | .subToDn | .orToEa | .orToDn
  | .shiftReg => sizeStd? (sizeField w)

/-- "A row holds when `(w AND mask) = match`, every further condition holds, and `ea` is in the row's EA set" (R95). -/
def Form.holds (slot : BsrSlot) (f : Form) (w : Word) : Bool :=
  w &&& f.mask == f.pattern && f.further slot w && f.eaOk (f.sizeOf w) (eaField w)

/-- `Classify(w)`: "the first row whose test holds", or none for `Unclassified` (R95, R101). -/
def classifyForm (slot : BsrSlot) (w : Word) : Option Form := Form.all.find? (Form.holds slot · w)

/-! ### From a form and its opcode Word to the instruction -/

def ShiftOp.regInstr (op : ShiftOp) (size : OperandSize) (count : ShiftCount) (dy : Field3) : Instr :=
  match op with
  | .asr => .asrReg size count dy
  | .asl => .aslReg size count dy
  | .lsr => .lsrReg size count dy
  | .lsl => .lslReg size count dy
  | .ror => .rorReg size count dy
  | .rol => .rolReg size count dy

def ShiftOp.memInstr (op : ShiftOp) (ea : Ea) : Instr :=
  match op with
  | .asr => .asrMem ea
  | .asl => .aslMem ea
  | .lsr => .lsrMem ea
  | .lsl => .lslMem ea
  | .ror => .rorMem ea
  | .rol => .rolMem ea

/-- The instruction a form names, with the fields its format places in the opcode Word (R66 to R78); none where
the Word has a size or type code that the row's further conditions exclude. -/
def Form.instr? (f : Form) (w : Word) : Option Instr :=
  match f with
  | .rts => some .rts
  | .jsr => some (.jsr (eaField w))
  | .bclrImm => some (.bclr (eaField w))
  | .shiftMem => (shiftName? (bfx w 10 9) (bitAt w 8)).map fun op => op.memInstr (eaField w)
  | .movemR2M => some (.movemR2M (sizeBit (bitAt w 6)) (eaField w))
  | .movemM2R => some (.movemM2R (sizeBit (bitAt w 6)) (eaField w))
  | .ori => (sizeStd? (sizeField w)).map fun s => .ori s (eaField w)
  | .cmpi => (sizeStd? (sizeField w)).map fun s => .cmpi s (eaField w)
  | .neg => (sizeStd? (sizeField w)).map fun s => .neg s (eaField w)
  | .branch => some (if condField w = 0b0000#4 then .bra (lowByte w) else .bcc (condField w) (lowByte w))
  | .lea => some (.lea (regField w) (eaField w))
  | .muls => some (.muls (regField w) (eaField w))
  | .divs => some (.divs (regField w) (eaField w))
  | .adda => some (.adda (sizeBit (bitAt w 8)) (regField w) (eaField w))
  | .movea => (sizeMovea? (moveSizeField w)).map fun s => .movea s (eaField w) (regField w)
  | .subq => (sizeStd? (sizeField w)).map fun s => .subq s (regField w) (eaField w)
  | .eor => (sizeStd? (sizeField w)).map fun s => .eor s (regField w) (eaField w)
  | .cmp => (sizeStd? (sizeField w)).map fun s => .cmp s (regField w) (eaField w)
  | .addToEa => (sizeStd? (sizeField w)).map fun s => .addToEa s (regField w) (eaField w)
  | .addToDn => (sizeStd? (sizeField w)).map fun s => .addToDn s (regField w) (eaField w)
  | .subToEa => (sizeStd? (sizeField w)).map fun s => .subToEa s (regField w) (eaField w)
  | .subToDn => (sizeStd? (sizeField w)).map fun s => .subToDn s (regField w) (eaField w)
  | .orToEa => (sizeStd? (sizeField w)).map fun s => .orToEa s (regField w) (eaField w)
  | .orToDn => (sizeStd? (sizeField w)).map fun s => .orToDn s (regField w) (eaField w)
  | .shiftReg =>
    (shiftName? (bfx w 4 3) (bitAt w 8)).bind fun op =>
      (sizeStd? (sizeField w)).map fun s => op.regInstr s (shiftCountField w) (eaRegField w)
  | .move => (sizeMove? (moveSizeField w)).map fun s => .move s (eaField w) (dstField w)

/-- The classifier with its fields: none where "no row of rule R95 matches" (R97). -/
def classify (slot : BsrSlot) (w : Word) : Option Instr := (classifyForm slot w).bind fun f => f.instr? w

/-! ### The decoder of bytes -/

/-- Why the decoder refuses the bytes at the front of a buffer. -/
inductive DecodeError where
  /-- Fewer than two bytes: no opcode Word. -/
  | noOpcodeWord
  /-- `UnclassifiedOpcode`: no row of the classifier table holds (R97). -/
  | unclassifiedOpcode
deriving DecidableEq, Repr

/-- The instruction whose opcode Word the bytes begin with, and the bytes after that Word. -/
def decode (slot : BsrSlot) : List Byte → Except DecodeError (Instr × List Byte)
  | hi :: lo :: rest =>
    match classify slot (wordOfBytes hi lo) with
    | some i => .ok (i, rest)
    | none => .error .unclassifiedOpcode
  | _ => .error .noOpcodeWord

/-- The Words of an instruction numbered as spec/opcode_table.json numbers its bits (bit 0 the least significant bit of
the first Word), the bits above `nbits` zero, up to the longest instruction (R11). -/
def tableWords (nbits w : Nat) : List Word :=
  (List.range Config.maxLengthInWords).map fun j => BitVec.ofNat 16 (w % 2 ^ nbits / 65536 ^ j)

/-- The bytes of Words as the buffer stores them (R48). -/
def bytesOfWords (ws : List Word) : List Byte := ws.flatMap bytesOfWord

/-- The instruction the decoder reads from a word of the opcode table, under the default `BSR_SLOT`. -/
def decodeTableWord (nbits w : Nat) : Option Instr :=
  match decode Config.bsrSlotDefault (bytesOfWords (tableWords nbits w)) with
  | .ok (i, _) => some i
  | .error _ => none

/-! ### The encoder, from the formats -/

/-- R79. -/
def OperandSize.stdCode : OperandSize → BitVec 2
  | .byte => 0b00#2
  | .word => 0b01#2
  | .long => 0b10#2

/-- R80. -/
def OperandSize.moveCode : OperandSize → BitVec 2
  | .byte => 0b01#2
  | .word => 0b11#2
  | .long => 0b10#2

/-- R82. -/
def WordOrLong.bitCode : WordOrLong → BitVec 1
  | .word => 0b0#1
  | .long => 0b1#1

/-- The mode column of R83. -/
def Ea.modeCode : Ea → Field3
  | .dataReg _ => 0b000#3
  | .addrReg _ => 0b001#3
  | .indirect _ => 0b010#3
  | .postInc _ => 0b011#3
  | .preDec _ => 0b100#3
  | .disp16 _ => 0b101#3
  | .indexed _ => 0b110#3
  | .absShort | .absLong | .pcDisp | .pcIndexed | .immediate | .reserved _ => 0b111#3

/-- The register column of R83. -/
def Ea.regCode : Ea → Field3
  | .dataReg n | .addrReg n | .indirect n | .postInc n | .preDec n | .disp16 n | .indexed n => n
  | .absShort => 0b000#3
  | .absLong => 0b001#3
  | .pcDisp => 0b010#3
  | .pcIndexed => 0b011#3
  | .immediate => 0b100#3
  | .reserved .r101 => 0b101#3
  | .reserved .r110 => 0b110#3
  | .reserved .r111 => 0b111#3

/-- The type field of R75. -/
def ShiftOp.typeCode : ShiftOp → BitVec 2
  | .asr | .asl => 0b00#2
  | .lsr | .lsl => 0b01#2
  | .ror | .rol => 0b11#2

/-- The dr bit of R75: 0 right, 1 left. -/
def ShiftOp.dirCode : ShiftOp → BitVec 1
  | .asr | .lsr | .ror => 0b0#1
  | .asl | .lsl | .rol => 0b1#1

/-- The i/r bit of R75. -/
def ShiftCount.irCode : ShiftCount → BitVec 1
  | .quick _ => 0b0#1
  | .inReg _ => 0b1#1

def ShiftCount.field : ShiftCount → Field3
  | .quick n | .inReg n => n

/-- FMT-MOVE (R66). -/
def fmtMove (size : BitVec 2) (dstReg dstMode : Field3) (src : Ea) : Word :=
  0b00#2 ++ size ++ dstReg ++ dstMode ++ src.modeCode ++ src.regCode

/-- FMT-MOVEM (R67). -/
def fmtMovem (dr : BitVec 1) (size : WordOrLong) (ea : Ea) : Word :=
  0b01001#5 ++ dr ++ 0b001#3 ++ size.bitCode ++ ea.modeCode ++ ea.regCode

/-- FMT-ROE, the opmode given by its direction bit and its size bits (R68, R81). -/
def fmtRoe (cls : BitVec 4) (reg : Field3) (dir : BitVec 1) (size : BitVec 2) (ea : Ea) : Word :=
  cls ++ reg ++ dir ++ size ++ ea.modeCode ++ ea.regCode

/-- FMT-QUICK (R69). -/
def fmtQuick (data : Field3) (size : OperandSize) (ea : Ea) : Word :=
  0b0101#4 ++ data ++ 0b1#1 ++ size.stdCode ++ ea.modeCode ++ ea.regCode

/-- FMT-IMMEA (R70) and FMT-SZEA (R72): eight fixed bits, the size, the EA. -/
def fmtSizeEa (fixed : Byte) (size : OperandSize) (ea : Ea) : Word :=
  fixed ++ size.stdCode ++ ea.modeCode ++ ea.regCode

/-- FMT-BITIMM (R71) and FMT-EA (R74): ten fixed bits and the EA. -/
def fmtEa (fixed : BitVec 10) (ea : Ea) : Word := fixed ++ ea.modeCode ++ ea.regCode

/-- FMT-REGEA (R73). -/
def fmtRegEa (cls : BitVec 4) (reg : Field3) (ea : Ea) : Word :=
  cls ++ reg ++ 0b111#3 ++ ea.modeCode ++ ea.regCode

/-- FMT-SHR (R75). -/
def fmtShr (op : ShiftOp) (size : OperandSize) (count : ShiftCount) (dy : Field3) : Word :=
  0b1110#4 ++ count.field ++ op.dirCode ++ size.stdCode ++ count.irCode ++ op.typeCode ++ dy

/-- FMT-SHM (R76). -/
def fmtShm (op : ShiftOp) (ea : Ea) : Word :=
  0b1110#4 ++ 0b0#1 ++ op.typeCode ++ op.dirCode ++ 0b11#2 ++ ea.modeCode ++ ea.regCode

/-- FMT-BR (R77). -/
def fmtBr (cond : BitVec 4) (disp8 : Byte) : Word := 0b0110#4 ++ cond ++ disp8

/-- The opcode Word of an instruction, from the format its rule names. -/
def encode : Instr → Word
  | .move s src dst => fmtMove s.moveCode dst.regCode dst.modeCode src
  | .movea s src an => fmtMove s.toSize.moveCode an 0b001#3 src
  | .movemR2M s ea => fmtMovem 0b0#1 s ea
  | .movemM2R s ea => fmtMovem 0b1#1 s ea
  | .addToDn s dn ea => fmtRoe 0b1101#4 dn 0b0#1 s.stdCode ea
  | .addToEa s dn ea => fmtRoe 0b1101#4 dn 0b1#1 s.stdCode ea
  | .adda s an ea => fmtRoe 0b1101#4 an s.bitCode 0b11#2 ea
  | .subToDn s dn ea => fmtRoe 0b1001#4 dn 0b0#1 s.stdCode ea
  | .subToEa s dn ea => fmtRoe 0b1001#4 dn 0b1#1 s.stdCode ea
  | .subq s data ea => fmtQuick data s ea
  | .muls dn ea => fmtRegEa 0b1100#4 dn ea
  | .divs dn ea => fmtRegEa 0b1000#4 dn ea
  | .lea an ea => fmtRegEa 0b0100#4 an ea
  | .orToDn s dn ea => fmtRoe 0b1000#4 dn 0b0#1 s.stdCode ea
  | .orToEa s dn ea => fmtRoe 0b1000#4 dn 0b1#1 s.stdCode ea
  | .ori s ea => fmtSizeEa 0b00000000#8 s ea
  | .neg s ea => fmtSizeEa 0b01000100#8 s ea
  | .eor s dn ea => fmtRoe 0b1011#4 dn 0b1#1 s.stdCode ea
  | .asrReg s c dy => fmtShr .asr s c dy
  | .aslReg s c dy => fmtShr .asl s c dy
  | .lsrReg s c dy => fmtShr .lsr s c dy
  | .lslReg s c dy => fmtShr .lsl s c dy
  | .rorReg s c dy => fmtShr .ror s c dy
  | .rolReg s c dy => fmtShr .rol s c dy
  | .asrMem ea => fmtShm .asr ea
  | .aslMem ea => fmtShm .asl ea
  | .lsrMem ea => fmtShm .lsr ea
  | .lslMem ea => fmtShm .lsl ea
  | .rorMem ea => fmtShm .ror ea
  | .rolMem ea => fmtShm .rol ea
  | .bclr ea => fmtEa 0b0000100010#10 ea
  | .cmp s dn ea => fmtRoe 0b1011#4 dn 0b0#1 s.stdCode ea
  | .cmpi s ea => fmtSizeEa 0b00001100#8 s ea
  | .bra d => fmtBr 0b0000#4 d
  | .bcc cond d => fmtBr cond d
  | .jsr ea => fmtEa 0b0100111010#10 ea
  | .rts => 0x4E75#16

end Sys2Proof
end

