-- ==== Sys2Proof/Machine/Records.lean ====
section
/-! DEFINITION. The records the block emits (`10_state.md` R23 to R32). -/

namespace Sys2Proof.Machine

/-- `Condition` (R27). -/
inductive Condition where
  | T | F | HI | LS | CC | CS | NE | EQ | VC | VS | PL | MI | GE | LT | GT | LE
deriving DecidableEq, Repr

/-- `Mnemonic`: the 27 supported mnemonics and `DATA` (R28). -/
inductive Mnemonic where
  | MOVE | MOVEA | MOVEM | ADD | ADDA | SUB | SUBQ | MULS | DIVS | LEA | OR | ORI | NEG | EOR
  | ASL | ASR | LSL | LSR | ROL | ROR | BCLR | CMP | CMPI | Bcc | BRA | JSR | RTS
  | DATA
deriving DecidableEq, Repr

/-- `DataReason`: the three recovered error kinds (R29, `60_exceptions.md` R144). -/
inductive DataReason where
  /-- "no family matched" -/
  | unclassifiedOpcode
  /-- "matched family but EA resolution encountered a mode/register combination outside the required subset" -/
  | unsupportedAddressingMode
  /-- "insufficient Words remain for required extension data" -/
  | truncatedBuffer
deriving DecidableEq, Repr

/-- The cause codes of R144, in the source's order of listing (log 9). -/
def DataReason.code : DataReason → Nat
  | .unclassifiedOpcode => 0
  | .unsupportedAddressingMode => 1
  | .truncatedBuffer => 2

/-- Which register file an index register is in (R24). -/
inductive IndexKind where
  | D | A
deriving DecidableEq, Repr

/-- `IndexSpec` (R24). -/
structure IndexSpec where
  kind : IndexKind
  reg : Fin 8
  size : WordOrLong
deriving DecidableEq, Repr

/-- `AddressingMode`: the source's ten variants and this spec's two (R25). -/
inductive AddressingMode where
  | dataRegisterDirect (reg : Fin 8)
  | addressRegisterDirect (reg : Fin 8)
  | addressRegisterIndirect (reg : Fin 8)
  | addressRegisterIndirectPostIncrement (reg : Fin 8)
  | addressRegisterIndirectPreDecrement (reg : Fin 8)
  | addressRegisterIndirectWithDisplacement (reg : Fin 8) (disp16 : Int)
  | addressRegisterIndirectIndexed (reg : Fin 8) (index : IndexSpec) (disp8 : Int)
  | absoluteShort (addr16 : Word)
  | absoluteLong (addr32 : Addr)
  | immediate (value : Nat) (size : OperandSize)
  /-- the MOVEM list in the normalised bit order: bit j is register j of D0..D7, A0..A7 (R118) -/
  | registerList (mask : Word)
  /-- the displacement and computed target of Bcc and BRA (R138) -/
  | branchTarget (disp : Int) (target : Addr)
deriving DecidableEq, Repr

/-- The width of an operand size in bits (R23). -/
def sizeBits : OperandSize → Nat
  | .byte => 8
  | .word => 16
  | .long => 32

/-- The ranges R25 gives the values of a variant, where their types do not give them. -/
def AddressingMode.inRange : AddressingMode → Bool
  | .dataRegisterDirect _ | .addressRegisterDirect _ | .addressRegisterIndirect _
  | .addressRegisterIndirectPostIncrement _ | .addressRegisterIndirectPreDecrement _
  | .absoluteShort _ | .absoluteLong _ | .registerList _ | .branchTarget _ _ => true
  | .addressRegisterIndirectWithDisplacement _ d => decide (-32768 ≤ d ∧ d ≤ 32767)
  | .addressRegisterIndirectIndexed _ _ d => decide (-128 ≤ d ∧ d ≤ 127)
  | .immediate v s => decide (v < 2 ^ sizeBits s)

/-- `Operand`: an addressing mode and the size it was resolved under (R26). -/
structure Operand where
  mode : AddressingMode
  size : OperandSize
deriving DecidableEq, Repr

/-- The spec's `Instruction` record (R30). (`Sys2Proof.Instr` is the classified opcode Word.) -/
structure Instruction where
  mnemonic : Mnemonic
  /-- source operand first, destination second -/
  operands : List Operand
  size : Option OperandSize
  condition : Option Condition
  address : Addr
  lengthInWords : Nat
  rawWords : List Word
  dataReason : Option DataReason
deriving DecidableEq, Repr

/-- The partial-decode flag: `dataReason = some(UnsupportedAddressingMode)` (R31). -/
def Instruction.isPartial (r : Instruction) : Bool := r.dataReason == some .unsupportedAddressingMode

end Sys2Proof.Machine
end

