-- ==== Sys2Proof/Machine/State.lean ====
section
/-! DEFINITION. The Driver's registers, the reasons a step can stop, and the state after reset
(`10_state.md` R33 to R35, R44, `70_reset_and_hazards.md` R163). -/

namespace Sys2Proof.Machine

/-- The values of `STATE` (R33). -/
inductive DriverState where
  | scanning | emittingInstruction | endOfBuffer | rejected
deriving DecidableEq, Repr

/-- Why the model stops with a fault. The block itself "has no fault state" (R148): no state that a START and steps
reach raises one of these. -/
inductive Fault where
  /-- Raised by a read of Word `k` of which `BUF` does not hold both bytes: `Byte(i)` "is undefined for any other `i`, and
  no rule reads it there" (R47). It needs a state whose buffer and `L` disagree, or a meaning run with the cursor past
  the end. Safe (log 4). -/
  | wordUndefined (k : Nat)
  /-- Raised by a step with `STATE = EmittingInstruction` and `PENDING = none`: EMIT is given only for
  `PENDING = some(r)` (R38). Safe (log 5). -/
  | pendingMissing
deriving DecidableEq, Repr

/-- Why the model refuses a step. -/
inductive Refusal where
  /-- Raised by an arm of `exec` that has no meaning yet. Safe. -/
  | notModelled (mnemonic : String)
  /-- Raised by a step with `STATE` EndOfBuffer or Rejected: "No step is enabled in either state, and both are final"
  (R39). Safe (log 3). -/
  | runEnded
deriving DecidableEq, Repr

/-- The Driver's registers (R33) and the parameter `BSR_SLOT` (R10, log 2). "Nothing else in the block or the Driver
holds state" (R33). -/
structure State where
  /-- `BUF`: the byte at each offset below `L`, offsets strictly rising (R33, R45, log 4) -/
  buf : List Host.Cell
  /-- `L`: byte length of `BUF` -/
  len : Nat
  /-- `BASE`: base address for reporting -/
  base : Addr
  /-- `STATE` -/
  phase : DriverState
  /-- `CURSOR`: Word index of the next decode -/
  cursor : Nat
  /-- `PENDING`: the record decoded and not yet appended -/
  pending : Option Instruction
  /-- `OUT`: the output sequence, oldest first -/
  out : List Instruction
  /-- `BSR_SLOT`: "fixed for the model's lifetime" (R163); no step writes it -/
  bsrSlot : BsrSlot
deriving DecidableEq, Repr

/-- The machine right after reset, which is a START (R163): `START([], 0)`, with nothing placed in the buffer and the
default `BSR_SLOT` (R44, log 1). -/
def State.reset : State where
  buf := []
  len := 0
  base := 0#32
  phase := .scanning
  cursor := 0
  pending := none
  out := []
  bsrSlot := Config.bsrSlotDefault

end Sys2Proof.Machine
end

