-- ==== Sys2Proof/Machine/Ops.lean ====
section
/-! DEFINITION. The named operations over the buffer and the Driver's registers: reads, START, the record of a decode,
the DATA fallback (the block's exception entry and its return), and the Driver's SCAN-END and EMIT. -/

namespace Sys2Proof.Machine

/-! ### The buffer as a list of cells -/

/-- The byte at an address, if it is listed; an unlisted address has no value (R47, log 4). -/
def Memory.read : List Host.Cell → Nat → Option Byte
  | [], _ => none
  | (a, b) :: rest, i => if a = i then some b else Memory.read rest i

/-- Place a byte, keeping the addresses strictly rising. No step of the block calls it (R46); it serves the host's
load of a program (log 8). -/
def Memory.write : List Host.Cell → Nat → Byte → List Host.Cell
  | [], i, v => [(i, v)]
  | (a, b) :: rest, i, v =>
    if i < a then (i, v) :: (a, b) :: rest
    else if i = a then (i, v) :: rest
    else (a, b) :: Memory.write rest i v

/-- Place bytes at consecutive addresses. -/
def Memory.writeAll : List Host.Cell → Nat → List Byte → List Host.Cell
  | m, _, [] => m
  | m, i, b :: rest => Memory.writeAll (Memory.write m i b) (i + 1) rest

/-- The cells of a byte sequence whose first byte is at offset `i`. -/
def Memory.cellsFrom : Nat → List Byte → List Host.Cell
  | _, [] => []
  | i, b :: rest => (i, b) :: Memory.cellsFrom (i + 1) rest

/-- The canonical form: addresses strictly rising (an unlisted address has no value, so no entry can equal one). -/
def Memory.wf (m : List Host.Cell) : Bool := decide ((m.map Prod.fst).Pairwise (· < ·))

/-- The buffer holds exactly the bytes at offsets 0 .. L-1 (R45). -/
def State.bufWf (s : State) : Bool := s.buf.map Prod.fst == List.range s.len

/-! ### Reads of the buffer -/

/-- `N = L / 2` (R10). -/
def State.nWords (s : State) : Nat := s.len / 2

/-- `Byte(i)`, for `0 <= i < L` (R47). -/
def State.byte? (s : State) (i : Nat) : Option Byte :=
  if i < s.len then Memory.read s.buf i else none

/-- `Word(k)`, for `0 <= k < N`: big-endian (R48). -/
def State.word? (s : State) (k : Nat) : Option Word :=
  match s.byte? (2 * k), s.byte? (2 * k + 1) with
  | some hi, some lo => some (wordOfBytes hi lo)
  | _, _ => none

/-- `MemRead(off, n)`: the big-endian value of `n` bytes (R50). -/
def State.memRead? (s : State) : (off n : Nat) → Option Nat
  | _, 0 => some 0
  | off, n + 1 =>
    match s.byte? off, s.memRead? (off + 1) n with
    | some b, some rest => some (b.toNat * 256 ^ n + rest)
    | _, _ => none

/-- How a decode stops before it has a record: a raised reason, or a read that no rule gives. -/
inductive Abort where
  | raise (r : DataReason)
  | stop (f : Fault)
deriving DecidableEq, Repr

/-- A computation that reads the buffer. -/
abbrev Read (α : Type) := Except Abort α

/-- `Word(k)` where a rule reads it without a bounds check. -/
def State.word (s : State) (k : Nat) : Read Word :=
  match s.word? k with
  | some w => .ok w
  | none => .error (.stop (.wordUndefined k))

/-- `Ext(k)`: "if k >= N: raise TruncatedBuffer()" (R102). -/
def State.ext (s : State) (k : Nat) : Read Word :=
  if s.nWords ≤ k then .error (.raise .truncatedBuffer) else s.word k

/-- Two extension Words as one 32-bit value, high Word first (R49). -/
def State.extLong (s : State) (k : Nat) : Read Addr := do
  let h ← s.ext k
  let l ← s.ext (k + 1)
  return longOfWords h l

/-- `[Word(c), ..., Word(c + n - 1)]`. -/
def State.words (s : State) : (c n : Nat) → Read (List Word)
  | _, 0 => .ok []
  | c, n + 1 => do
    let w ← s.word c
    let ws ← s.words (c + 1) n
    return w :: ws

/-- The reported address of Word index `c`: `mod32(BASE + 2 * c)` (R54). -/
def State.addressOf (s : State) (c : Nat) : Addr := mod32 (s.base.toNat + 2 * c)

/-! ### START -/

/-- `START(buf, base)`, which may be issued in any state and discards all previous state (R35). -/
def State.start (s : State) (bytes : List Byte) (base : Addr) : State where
  buf := Memory.cellsFrom 0 bytes
  len := bytes.length
  base := base
  phase := if bytes.length % 2 = 1 then .rejected else .scanning
  cursor := 0
  pending := none
  out := []
  bsrSlot := s.bsrSlot

/-! ### The record of a decode and the DATA fallback -/

/-- What `DecodeForm` returns: the mnemonic, the operands, the size, the condition and the index of the first Word it
did not consume (R107). -/
structure Decoded where
  mnemonic : Mnemonic
  operands : List Operand
  size : Option OperandSize
  condition : Option Condition
  next : Nat
deriving DecidableEq, Repr

/-- The last part of SCAN-DECODE: `PENDING <- some(r)`, then `STATE <- EmittingInstruction` (R37). -/
def State.pend (s : State) (r : Instruction) : State :=
  { s with pending := some r, phase := .emittingInstruction }

/-- The Instruction record of a decode at Word index `c` that consumed the Words `raw` (R107). -/
def State.recordOf (s : State) (c : Nat) (d : Decoded) (raw : List Word) : Instruction where
  mnemonic := d.mnemonic
  operands := d.operands
  size := d.size
  condition := d.condition
  address := s.addressOf c
  lengthInWords := d.next - c
  rawWords := raw
  dataReason := none

/-- `DataRecord(c, w, r)` (R108). -/
def State.dataRecord (s : State) (c : Nat) (w : Word) (r : DataReason) : Instruction where
  mnemonic := .DATA
  operands := []
  size := none
  condition := none
  address := s.addressOf c
  lengthInWords := 1
  rawWords := [w]
  dataReason := some r

/-- Entering the recovery path, the block's one exception entry: everything computed for the form is discarded and
`DataRecord(c, w, r)` is pending; "No state is saved, no mode changes" (R151). The return from it is EMIT, which moves
the cursor on by one Word (R152). -/
def State.takeData (s : State) (r : DataReason) : Host.Outcome State Fault Refusal :=
  match s.word? s.cursor with
  | some w => .next (s.pend (s.dataRecord s.cursor w r))
  | none => .fault (.wordUndefined s.cursor)

/-- The end of `DecodeAt(CURSOR)` once the form's rule has answered: the record, or on a raise the DATA record (R107). -/
def State.finish (s : State) (d : Read Decoded) : Host.Outcome State Fault Refusal :=
  match d with
  | .ok d =>
    match s.words s.cursor (d.next - s.cursor) with
    | .ok raw => .next (s.pend (s.recordOf s.cursor d raw))
    | .error (.raise r) => s.takeData r
    | .error (.stop f) => .fault f
  | .error (.raise r) => s.takeData r
  | .error (.stop f) => .fault f

/-! ### The Driver's other steps -/

/-- SCAN-END: `STATE <- EndOfBuffer` (R36). -/
def State.scanEnd (s : State) : State := { s with phase := .endOfBuffer }

/-- EMIT of the pending record: append it, advance the cursor by its length, resume scanning (R38). -/
def State.emitRecord (s : State) (r : Instruction) : State :=
  { s with out := s.out ++ [r], cursor := s.cursor + r.lengthInWords, pending := none, phase := .scanning }

/-- EMIT (R38). -/
def State.emit (s : State) : Host.Outcome State Fault Refusal :=
  match s.pending with
  | some r => .next (s.emitRecord r)
  | none => .fault .pendingMissing

/-- What the fetch of SCAN-DECODE finds at the cursor. -/
inductive Fetched where
  /-- an instruction the classifier knows -/
  | instr (i : Instr)
  /-- an opcode Word no row matches -/
  | unclassified
  /-- no Word in the buffer -/
  | missing
deriving DecidableEq, Repr

/-- Read the opcode Word at the cursor and classify it (R107). -/
def State.fetch (s : State) : Fetched :=
  match s.word? s.cursor with
  | none => .missing
  | some w =>
    match classify s.bsrSlot w with
    | some i => .instr i
    | none => .unclassified

/-- The load of a program that `withFetchWord` stands for (log 8): the Words `ws` stored at the cursor, the buffer
long enough to hold them, the Driver scanning. -/
def State.loadAtCursor (s : State) (ws : List Word) : State :=
  { s with
    buf := Memory.writeAll s.buf (2 * s.cursor) (bytesOfWords ws)
    len := max s.len (2 * s.cursor + 2 * ws.length)
    phase := .scanning
    pending := none }

end Sys2Proof.Machine
end

