-- ==== Sys2Proof/Machine/Operands.lean ====
section
/-! DEFINITION. The effective-address resolver and the other operand forms (`40_decode_pipeline.md` R103, R104,
`41_move.md` R118, `46_branch_jsr_rts.md` R137, R138), and the operand shapes that several instructions share. -/

namespace Sys2Proof.Machine

/-- `ReadImm(s, k)`: the raw unsigned value and the next index (R89, R104). -/
def State.readImm (s : State) (size : OperandSize) (k : Nat) : Read (Nat × Nat) :=
  match size with
  | .byte => do
    let e ← s.ext k
    return ((lowByte e).toNat, k + 1)
  | .word => do
    let e ← s.ext k
    return (e.toNat, k + 1)
  | .long => do
    let v ← s.extLong k
    return (v.toNat, k + 2)

/-- A brief extension Word outside the subset: `e[8] = 1` or `e[10:9] != 00` (R87). -/
def briefUnsupported (e : Word) : Bool := bitAt e 8 || bfx e 10 9 != 0b00#2

/-- The index register and its size, from the upper byte of a brief extension Word (R87). -/
def indexSpecOf (e : Word) : IndexSpec where
  kind := if bitAt e 15 then .A else .D
  reg := (bfx e 14 12 : Field3).toFin
  size := sizeBit (bitAt e 11)

/-- `Resolve(mode, reg, s, k)`: the operand and the index of the next unread Word (R103). -/
def State.resolve (s : State) (ea : Ea) (size : OperandSize) (k : Nat) : Read (Operand × Nat) :=
  match ea with
  | .dataReg n => .ok (⟨.dataRegisterDirect n.toFin, size⟩, k)
  | .addrReg n => .ok (⟨.addressRegisterDirect n.toFin, size⟩, k)
  | .indirect n => .ok (⟨.addressRegisterIndirect n.toFin, size⟩, k)
  | .postInc n => .ok (⟨.addressRegisterIndirectPostIncrement n.toFin, size⟩, k)
  | .preDec n => .ok (⟨.addressRegisterIndirectPreDecrement n.toFin, size⟩, k)
  | .disp16 n => do
    let e ← s.ext k
    return (⟨.addressRegisterIndirectWithDisplacement n.toFin (sext16 e), size⟩, k + 1)
  | .indexed n => do
    let e ← s.ext k
    if briefUnsupported e then
      .error (.raise .unsupportedAddressingMode)
    else
      return (⟨.addressRegisterIndirectIndexed n.toFin (indexSpecOf e) (sext8 (lowByte e)), size⟩, k + 1)
  | .absShort => do
    let e ← s.ext k
    return (⟨.absoluteShort e, size⟩, k + 1)
  | .absLong => do
    let a ← s.extLong k
    return (⟨.absoluteLong a, size⟩, k + 2)
  | .immediate => do
    let (v, k) ← s.readImm size k
    return (⟨.immediate v size, size⟩, k)
  | .pcDisp | .pcIndexed | .reserved _ => .error (.raise .unsupportedAddressingMode)

/-- The bare register field `Dn` as an operand. -/
def dnOperand (n : Field3) (size : OperandSize) : Operand := ⟨.dataRegisterDirect n.toFin, size⟩

/-- The bare register field `An` as an operand. -/
def anOperand (n : Field3) (size : OperandSize) : Operand := ⟨.addressRegisterDirect n.toFin, size⟩

/-- Quick data as an operand: `Immediate(q, s)` with the field 000 read as 8 (R123, R132). -/
def quickOperand (q : Field3) (size : OperandSize) : Operand := ⟨.immediate (quickValue q) size, size⟩

/-- `Normalize(m, mode)`: the mask in the order D0..D7, A0..A7, reversed for predecrement (R118). -/
def normalizeMask (m : Word) (ea : Ea) : Word :=
  match ea with
  | .preDec _ => bitReverse16 m
  | .dataReg _ | .addrReg _ | .indirect _ | .postInc _ | .disp16 _ | .indexed _ | .absShort | .absLong
  | .pcDisp | .pcIndexed | .immediate | .reserved _ => m

/-- The count operand of a register-form shift; it carries the operation size (R132). -/
def shiftCountOperand (count : ShiftCount) (size : OperandSize) : Operand :=
  match count with
  | .quick q => quickOperand q size
  | .inReg n => dnOperand n size

/-- The displacement of Bcc and BRA, its width, and the next index, from the low byte of the opcode Word (R92, R137). -/
def State.branchDisp (s : State) (b : Byte) (k : Nat) : Read (Int × OperandSize × Nat) :=
  if b = 0x00#8 then do
    let e ← s.ext k
    return (sext16 e, .word, k + 1)
  else if b = 0xFF#8 then do
    let x ← s.extLong k
    return (sext32 x, .long, k + 2)
  else
    .ok (sext8 b, .byte, k)

/-- `target = mod32(a + 2 + disp)` with `a` the address of the opcode Word (R138). -/
def State.branchTargetOf (s : State) (c : Nat) (disp : Int) : Addr := mod32 ((s.addressOf c).toNat + 2 + disp)

/-! ### Operand shapes shared by several instructions

`k` is the index of the first extension Word, `CURSOR + 1` in every meaning. -/

/-- `<ea>` first, then a bare register operand: ADD, SUB, OR and CMP to Dn, MULS, DIVS, ADDA, MOVEA, LEA. -/
def State.decodeEaThen (s : State) (mn : Mnemonic) (size : Option OperandSize) (ea : Ea) (eaSize : OperandSize)
    (dst : Operand) (k : Nat) : Read Decoded := do
  let (src, k) ← s.resolve ea eaSize k
  return { mnemonic := mn, operands := [src, dst], size := size, condition := none, next := k }

/-- A bare operand first, then `<ea>`: ADD, SUB, OR to `<ea>`, EOR, SUBQ. -/
def State.decodeThenEa (s : State) (mn : Mnemonic) (size : OperandSize) (src : Operand) (ea : Ea) (k : Nat) :
    Read Decoded := do
  let (dst, k) ← s.resolve ea size k
  return { mnemonic := mn, operands := [src, dst], size := some size, condition := none, next := k }

/-- `<ea>` alone: NEG, the memory shifts, JSR. -/
def State.decodeEaOnly (s : State) (mn : Mnemonic) (size : Option OperandSize) (ea : Ea) (eaSize : OperandSize)
    (k : Nat) : Read Decoded := do
  let (op, k) ← s.resolve ea eaSize k
  return { mnemonic := mn, operands := [op], size := size, condition := none, next := k }

/-- An explicit immediate, then `<ea>`: ORI, CMPI; "immediate Word(s) first" (R128, R136). -/
def State.decodeImmThenEa (s : State) (mn : Mnemonic) (size : OperandSize) (ea : Ea) (k : Nat) : Read Decoded := do
  let (v, k) ← s.readImm size k
  s.decodeThenEa mn size ⟨.immediate v size, size⟩ ea k

/-- MOVEM's mask Word and EA, the mask Word first: the list operand, the EA operand and the next index (R119). -/
def State.decodeMovem (s : State) (size : WordOrLong) (ea : Ea) (k : Nat) : Read (Operand × Operand × Nat) := do
  let m ← s.ext k
  let (op, k) ← s.resolve ea size.toSize (k + 1)
  return (⟨.registerList (normalizeMask m ea), size.toSize⟩, op, k)

/-- A register-form shift: no extension Words (R132). -/
def decodeShiftReg (mn : Mnemonic) (size : OperandSize) (count : ShiftCount) (dy : Field3) (k : Nat) : Decoded where
  mnemonic := mn
  operands := [shiftCountOperand count size, dnOperand dy size]
  size := some size
  condition := none
  next := k

/-- Bcc and BRA: the displacement and the target, with the condition recorded and not evaluated (R141). -/
def State.decodeBranch (s : State) (mn : Mnemonic) (cond : Condition) (b : Byte) (c k : Nat) : Read Decoded := do
  let (disp, width, k) ← s.branchDisp b k
  return { mnemonic := mn, operands := [⟨.branchTarget disp (s.branchTargetOf c disp), width⟩],
           size := some width, condition := some cond, next := k }

/-! ### The encoder of an addressing mode, beside the resolver -/

/-- The bits of an index register in a brief extension Word, bits 10:8 zero (R87). -/
def briefWord (x : IndexSpec) (disp8 : Int) : Word :=
  (if x.kind = .A then 0b1#1 else 0b0#1) ++ (BitVec.ofFin x.reg : Field3) ++ x.size.bitCode ++ 0b000#3 ++
    BitVec.ofInt 8 disp8

/-- The extension Words of an immediate, every ignored bit zero (R89). -/
def immWords (value : Nat) (size : OperandSize) : List Word :=
  match size with
  | .byte => [BitVec.ofNat 16 (value % 256)]
  | .word => [BitVec.ofNat 16 value]
  | .long => [BitVec.ofNat 16 (value / 65536), BitVec.ofNat 16 value]

/-- The EA field and the extension Words that encode a resolvable addressing mode (R83, R86 to R89, R106). -/
def AddressingMode.encode? : AddressingMode → Option (Ea × List Word)
  | .dataRegisterDirect r => some (.dataReg (BitVec.ofFin r), [])
  | .addressRegisterDirect r => some (.addrReg (BitVec.ofFin r), [])
  | .addressRegisterIndirect r => some (.indirect (BitVec.ofFin r), [])
  | .addressRegisterIndirectPostIncrement r => some (.postInc (BitVec.ofFin r), [])
  | .addressRegisterIndirectPreDecrement r => some (.preDec (BitVec.ofFin r), [])
  | .addressRegisterIndirectWithDisplacement r d => some (.disp16 (BitVec.ofFin r), [BitVec.ofInt 16 d])
  | .addressRegisterIndirectIndexed r x d => some (.indexed (BitVec.ofFin r), [briefWord x d])
  | .absoluteShort a => some (.absShort, [a])
  | .absoluteLong a => some (.absLong, [a.extractLsb' 16 16, a.extractLsb' 0 16])
  | .immediate v s => some (.immediate, immWords v s)
  | .registerList _ | .branchTarget _ _ => none

end Sys2Proof.Machine
end

