-- ==== Sys2Proof/Machine/Arith.lean ====
section
/-! DEFINITION. ADD, ADDA, SUB, SUBQ, MULS and DIVS (`42_add_sub_mul_div.md` R120 to R125). "None of the arithmetic is
computed: the block only decodes". -/

namespace Sys2Proof.Machine

/-- ADD `<ea>,Dn` (R120). -/
def execAddToDn (size : OperandSize) (dn : Field3) (ea : Ea) (s : State) : Host.Outcome State Fault Refusal :=
  s.finish (s.decodeEaThen .ADD (some size) ea size (dnOperand dn size) (s.cursor + 1))

/-- ADD `Dn,<ea>` (R120). -/
def execAddToEa (size : OperandSize) (dn : Field3) (ea : Ea) (s : State) : Host.Outcome State Fault Refusal :=
  s.finish (s.decodeThenEa .ADD size (dnOperand dn size) ea (s.cursor + 1))

/-- ADDA `<ea>,An` (R121). -/
def execAdda (size : WordOrLong) (an : Field3) (ea : Ea) (s : State) : Host.Outcome State Fault Refusal :=
  s.finish (s.decodeEaThen .ADDA (some size.toSize) ea size.toSize (anOperand an size.toSize) (s.cursor + 1))

/-- SUB `<ea>,Dn` (R122). -/
def execSubToDn (size : OperandSize) (dn : Field3) (ea : Ea) (s : State) : Host.Outcome State Fault Refusal :=
  s.finish (s.decodeEaThen .SUB (some size) ea size (dnOperand dn size) (s.cursor + 1))

/-- SUB `Dn,<ea>` (R122). -/
def execSubToEa (size : OperandSize) (dn : Field3) (ea : Ea) (s : State) : Host.Outcome State Fault Refusal :=
  s.finish (s.decodeThenEa .SUB size (dnOperand dn size) ea (s.cursor + 1))

/-- SUBQ `#q,<ea>`: "The quick data consumes no extension Word" (R123). -/
def execSubq (size : OperandSize) (data : Field3) (ea : Ea) (s : State) : Host.Outcome State Fault Refusal :=
  s.finish (s.decodeThenEa .SUBQ size (quickOperand data size) ea (s.cursor + 1))

/-- MULS `<ea>,Dn`, size Word (R124). -/
def execMuls (dn : Field3) (ea : Ea) (s : State) : Host.Outcome State Fault Refusal :=
  s.finish (s.decodeEaThen .MULS (some .word) ea .word (dnOperand dn .word) (s.cursor + 1))

/-- DIVS `<ea>,Dn`, size Word; "a zero divisor ... decodes normally" (R125). -/
def execDivs (dn : Field3) (ea : Ea) (s : State) : Host.Outcome State Fault Refusal :=
  s.finish (s.decodeEaThen .DIVS (some .word) ea .word (dnOperand dn .word) (s.cursor + 1))

end Sys2Proof.Machine
end

