-- ==== Sys2Proof/Machine/BitCompare.lean ====
section
/-! DEFINITION. BCLR, CMP and CMPI (`45_bclr_cmp.md` R134 to R136). -/

namespace Sys2Proof.Machine

/-- The size under which BCLR resolves its EA: "Dn is a 32-bit target, memory a byte" (R134). -/
def bclrEaSize : Ea → OperandSize
  | .dataReg _ => .long
  | .addrReg _ | .indirect _ | .postInc _ | .preDec _ | .disp16 _ | .indexed _ | .absShort | .absLong
  | .pcDisp | .pcIndexed | .immediate | .reserved _ => .byte

/-- BCLR `#n,<ea>`: "bit-number Word first", its bits 15:8 ignored (R91, R134). -/
def execBclr (ea : Ea) (s : State) : Host.Outcome State Fault Refusal :=
  s.finish do
    let e ← s.ext (s.cursor + 1)
    let (dst, k) ← s.resolve ea (bclrEaSize ea) (s.cursor + 2)
    return { mnemonic := .BCLR, operands := [⟨.immediate (lowByte e).toNat .byte, .byte⟩, dst],
             size := none, condition := none, next := k }

/-- CMP `<ea>,Dn` (R135). -/
def execCmp (size : OperandSize) (dn : Field3) (ea : Ea) (s : State) : Host.Outcome State Fault Refusal :=
  s.finish (s.decodeEaThen .CMP (some size) ea size (dnOperand dn size) (s.cursor + 1))

/-- CMPI `#imm,<ea>` (R136). -/
def execCmpi (size : OperandSize) (ea : Ea) (s : State) : Host.Outcome State Fault Refusal :=
  s.finish (s.decodeImmThenEa .CMPI size ea (s.cursor + 1))

end Sys2Proof.Machine
end

