-- ==== Sys2Proof/Machine/Flags.lean ====
section
/-! DEFINITION. The condition translator (`40_decode_pipeline.md` R114) and the predicates its names stand for (R115).
The block "holds no condition-code flags and evaluates no condition" (R20). -/

namespace Sys2Proof.Machine

/-- `CT(c)`: the names in their fixed order (R114). -/
def conditionOf (c : BitVec 4) : Condition :=
  if c = 0b0000#4 then .T
  else if c = 0b0001#4 then .F
  else if c = 0b0010#4 then .HI
  else if c = 0b0011#4 then .LS
  else if c = 0b0100#4 then .CC
  else if c = 0b0101#4 then .CS
  else if c = 0b0110#4 then .NE
  else if c = 0b0111#4 then .EQ
  else if c = 0b1000#4 then .VC
  else if c = 0b1001#4 then .VS
  else if c = 0b1010#4 then .PL
  else if c = 0b1011#4 then .MI
  else if c = 0b1100#4 then .GE
  else if c = 0b1101#4 then .LT
  else if c = 0b1110#4 then .GT
  else .LE

/-- The predicate a condition names on the 68000's codes N, Z, V and C. Informative: "No rule of this spec reads this
list" (R115), and no step of this model does. -/
def Condition.predicate (cond : Condition) (n z v c : Bool) : Bool :=
  match cond with
  | .T => true
  | .F => false
  | .HI => !c && !z
  | .LS => c || z
  | .CC => !c
  | .CS => c
  | .NE => !z
  | .EQ => z
  | .VC => !v
  | .VS => v
  | .PL => !n
  | .MI => n
  | .GE => n == v
  | .LT => n != v
  | .GT => !z && n == v
  | .LE => z || n != v

end Sys2Proof.Machine
end

