-- ==== Sys2Proof/Machine/Branch.lean ====
section
/-! DEFINITION. Bcc, BRA, JSR and RTS (`46_branch_jsr_rts.md` R137 to R143). "The block never takes a branch". -/

namespace Sys2Proof.Machine

/-- BRA `<label>`: condition 0000, whose name is T (R141). -/
def execBra (disp8 : Byte) (s : State) : Host.Outcome State Fault Refusal :=
  s.finish (s.decodeBranch .BRA (conditionOf 0b0000#4) disp8 s.cursor (s.cursor + 1))

/-- Bcc `<label>` (R141). -/
def execBcc (cond : BitVec 4) (disp8 : Byte) (s : State) : Host.Outcome State Fault Refusal :=
  s.finish (s.decodeBranch .Bcc (conditionOf cond) disp8 s.cursor (s.cursor + 1))

/-- JSR `<ea>`: "No return address is pushed and the target is not followed" (R142). -/
def execJsr (ea : Ea) (s : State) : Host.Outcome State Fault Refusal :=
  s.finish (s.decodeEaOnly .JSR none ea .long (s.cursor + 1))

/-- RTS (R143). -/
def execRts (s : State) : Host.Outcome State Fault Refusal :=
  s.finish (.ok { mnemonic := .RTS, operands := [], size := none, condition := none, next := s.cursor + 1 })

end Sys2Proof.Machine
end

