-- ==== Sys2Proof/Machine/Logic.lean ====
section
/-! DEFINITION. LEA, OR, ORI, NEG and EOR (`43_lea_or_neg_eor.md` R126 to R130). -/

namespace Sys2Proof.Machine

/-- LEA `<ea>,An`: operands under Long, record size none (R126). -/
def execLea (an : Field3) (ea : Ea) (s : State) : Host.Outcome State Fault Refusal :=
  s.finish (s.decodeEaThen .LEA none ea .long (anOperand an .long) (s.cursor + 1))

/-- OR `<ea>,Dn` (R127). -/
def execOrToDn (size : OperandSize) (dn : Field3) (ea : Ea) (s : State) : Host.Outcome State Fault Refusal :=
  s.finish (s.decodeEaThen .OR (some size) ea size (dnOperand dn size) (s.cursor + 1))

/-- OR `Dn,<ea>` (R127). -/
def execOrToEa (size : OperandSize) (dn : Field3) (ea : Ea) (s : State) : Host.Outcome State Fault Refusal :=
  s.finish (s.decodeThenEa .OR size (dnOperand dn size) ea (s.cursor + 1))

/-- ORI `#imm,<ea>` (R128). -/
def execOri (size : OperandSize) (ea : Ea) (s : State) : Host.Outcome State Fault Refusal :=
  s.finish (s.decodeImmThenEa .ORI size ea (s.cursor + 1))

/-- NEG `<ea>` (R129). -/
def execNeg (size : OperandSize) (ea : Ea) (s : State) : Host.Outcome State Fault Refusal :=
  s.finish (s.decodeEaOnly .NEG (some size) ea size (s.cursor + 1))

/-- EOR `Dn,<ea>` (R130). -/
def execEor (size : OperandSize) (dn : Field3) (ea : Ea) (s : State) : Host.Outcome State Fault Refusal :=
  s.finish (s.decodeThenEa .EOR size (dnOperand dn size) ea (s.cursor + 1))

end Sys2Proof.Machine
end

