-- ==== Sys2Proof/Machine/Move.lean ====
section
/-! DEFINITION. MOVE, MOVEA and MOVEM (`41_move.md` R116, R117, R119). -/

namespace Sys2Proof.Machine

/-- MOVE `<ea>,<ea>`: "source extension Words first", "then destination extension Words" (R116). -/
def execMove (size : OperandSize) (src dst : Ea) (s : State) : Host.Outcome State Fault Refusal :=
  s.finish do
    let (a, k) ← s.resolve src size (s.cursor + 1)
    let (b, k) ← s.resolve dst size k
    return { mnemonic := .MOVE, operands := [a, b], size := some size, condition := none, next := k }

/-- MOVEA `<ea>,An` (R117). -/
def execMovea (size : WordOrLong) (src : Ea) (an : Field3) (s : State) : Host.Outcome State Fault Refusal :=
  s.finish (s.decodeEaThen .MOVEA (some size.toSize) src size.toSize (anOperand an size.toSize) (s.cursor + 1))

/-- MOVEM `<list>,<ea>`: registers to memory (R119). -/
def execMovemR2M (size : WordOrLong) (ea : Ea) (s : State) : Host.Outcome State Fault Refusal :=
  s.finish do
    let (list, op, k) ← s.decodeMovem size ea (s.cursor + 1)
    return { mnemonic := .MOVEM, operands := [list, op], size := some size.toSize, condition := none, next := k }

/-- MOVEM `<ea>,<list>`: memory to registers (R119). -/
def execMovemM2R (size : WordOrLong) (ea : Ea) (s : State) : Host.Outcome State Fault Refusal :=
  s.finish do
    let (list, op, k) ← s.decodeMovem size ea (s.cursor + 1)
    return { mnemonic := .MOVEM, operands := [op, list], size := some size.toSize, condition := none, next := k }

end Sys2Proof.Machine
end

