-- ==== Sys2Proof/Machine/Shift.lean ====
section
/-! DEFINITION. The shifts and rotates, of a data register and of a memory Word (`44_shift_rotate.md` R131 to R133).
"The block computes no shifted value". -/

namespace Sys2Proof.Machine

/-- ASR on a data register (R132). -/
def execAsrReg (size : OperandSize) (count : ShiftCount) (dy : Field3) (s : State) :
    Host.Outcome State Fault Refusal :=
  s.finish (.ok (decodeShiftReg .ASR size count dy (s.cursor + 1)))

/-- ASL on a data register (R132). -/
def execAslReg (size : OperandSize) (count : ShiftCount) (dy : Field3) (s : State) :
    Host.Outcome State Fault Refusal :=
  s.finish (.ok (decodeShiftReg .ASL size count dy (s.cursor + 1)))

/-- LSR on a data register (R132). -/
def execLsrReg (size : OperandSize) (count : ShiftCount) (dy : Field3) (s : State) :
    Host.Outcome State Fault Refusal :=
  s.finish (.ok (decodeShiftReg .LSR size count dy (s.cursor + 1)))

/-- LSL on a data register (R132). -/
def execLslReg (size : OperandSize) (count : ShiftCount) (dy : Field3) (s : State) :
    Host.Outcome State Fault Refusal :=
  s.finish (.ok (decodeShiftReg .LSL size count dy (s.cursor + 1)))

/-- ROR on a data register (R132). -/
def execRorReg (size : OperandSize) (count : ShiftCount) (dy : Field3) (s : State) :
    Host.Outcome State Fault Refusal :=
  s.finish (.ok (decodeShiftReg .ROR size count dy (s.cursor + 1)))

/-- ROL on a data register (R132). -/
def execRolReg (size : OperandSize) (count : ShiftCount) (dy : Field3) (s : State) :
    Host.Outcome State Fault Refusal :=
  s.finish (.ok (decodeShiftReg .ROL size count dy (s.cursor + 1)))

/-- ASR on a memory Word; "the shift count is implicitly 1 and is not an operand" (R133). -/
def execAsrMem (ea : Ea) (s : State) : Host.Outcome State Fault Refusal :=
  s.finish (s.decodeEaOnly .ASR (some .word) ea .word (s.cursor + 1))

/-- ASL on a memory Word; "the shift count is implicitly 1 and is not an operand" (R133). -/
def execAslMem (ea : Ea) (s : State) : Host.Outcome State Fault Refusal :=
  s.finish (s.decodeEaOnly .ASL (some .word) ea .word (s.cursor + 1))

/-- LSR on a memory Word; "the shift count is implicitly 1 and is not an operand" (R133). -/
def execLsrMem (ea : Ea) (s : State) : Host.Outcome State Fault Refusal :=
  s.finish (s.decodeEaOnly .LSR (some .word) ea .word (s.cursor + 1))

/-- LSL on a memory Word; "the shift count is implicitly 1 and is not an operand" (R133). -/
def execLslMem (ea : Ea) (s : State) : Host.Outcome State Fault Refusal :=
  s.finish (s.decodeEaOnly .LSL (some .word) ea .word (s.cursor + 1))

/-- ROR on a memory Word; "the shift count is implicitly 1 and is not an operand" (R133). -/
def execRorMem (ea : Ea) (s : State) : Host.Outcome State Fault Refusal :=
  s.finish (s.decodeEaOnly .ROR (some .word) ea .word (s.cursor + 1))

/-- ROL on a memory Word; "the shift count is implicitly 1 and is not an operand" (R133). -/
def execRolMem (ea : Ea) (s : State) : Host.Outcome State Fault Refusal :=
  s.finish (s.decodeEaOnly .ROL (some .word) ea .word (s.cursor + 1))

end Sys2Proof.Machine
end

