-- ==== Sys2Proof/Machine/Dispatch.lean ====
section
/-! DEFINITION. One arm per constructor of `Instr`: `DecodeForm` of the instruction at the cursor and the end of
`DecodeAt` (`40_decode_pipeline.md` R107). -/

namespace Sys2Proof.Machine

/-- The meaning of an instruction: the record it leaves in PENDING, or the DATA record. -/
def exec (i : Instr) (s : State) : Host.Outcome State Fault Refusal :=
  match i with
  | .move size src dst => Sys2Proof.Machine.execMove size src dst s
  | .movea size src an => Sys2Proof.Machine.execMovea size src an s
  | .movemR2M size ea => Sys2Proof.Machine.execMovemR2M size ea s
  | .movemM2R size ea => Sys2Proof.Machine.execMovemM2R size ea s
  | .addToDn size dn ea => Sys2Proof.Machine.execAddToDn size dn ea s
  | .addToEa size dn ea => Sys2Proof.Machine.execAddToEa size dn ea s
  | .adda size an ea => Sys2Proof.Machine.execAdda size an ea s
  | .subToDn size dn ea => Sys2Proof.Machine.execSubToDn size dn ea s
  | .subToEa size dn ea => Sys2Proof.Machine.execSubToEa size dn ea s
  | .subq size data ea => Sys2Proof.Machine.execSubq size data ea s
  | .muls dn ea => Sys2Proof.Machine.execMuls dn ea s
  | .divs dn ea => Sys2Proof.Machine.execDivs dn ea s
  | .lea an ea => Sys2Proof.Machine.execLea an ea s
  | .orToDn size dn ea => Sys2Proof.Machine.execOrToDn size dn ea s
  | .orToEa size dn ea => Sys2Proof.Machine.execOrToEa size dn ea s
  | .ori size ea => Sys2Proof.Machine.execOri size ea s
  | .neg size ea => Sys2Proof.Machine.execNeg size ea s
  | .eor size dn ea => Sys2Proof.Machine.execEor size dn ea s
  | .asrReg size count dy => Sys2Proof.Machine.execAsrReg size count dy s
  | .aslReg size count dy => Sys2Proof.Machine.execAslReg size count dy s
  | .lsrReg size count dy => Sys2Proof.Machine.execLsrReg size count dy s
  | .lslReg size count dy => Sys2Proof.Machine.execLslReg size count dy s
  | .rorReg size count dy => Sys2Proof.Machine.execRorReg size count dy s
  | .rolReg size count dy => Sys2Proof.Machine.execRolReg size count dy s
  | .asrMem ea => Sys2Proof.Machine.execAsrMem ea s
  | .aslMem ea => Sys2Proof.Machine.execAslMem ea s
  | .lsrMem ea => Sys2Proof.Machine.execLsrMem ea s
  | .lslMem ea => Sys2Proof.Machine.execLslMem ea s
  | .rorMem ea => Sys2Proof.Machine.execRorMem ea s
  | .rolMem ea => Sys2Proof.Machine.execRolMem ea s
  | .bclr ea => Sys2Proof.Machine.execBclr ea s
  | .cmp size dn ea => Sys2Proof.Machine.execCmp size dn ea s
  | .cmpi size ea => Sys2Proof.Machine.execCmpi size ea s
  | .bra disp8 => Sys2Proof.Machine.execBra disp8 s
  | .bcc cond disp8 => Sys2Proof.Machine.execBcc cond disp8 s
  | .jsr ea => Sys2Proof.Machine.execJsr ea s
  | .rts => Sys2Proof.Machine.execRts s

end Sys2Proof.Machine
end

