-- ==== Sys2Proof/Machine/Step.lean ====
section
/-! DEFINITION. The Driver's step (`10_state.md` R36 to R39), the host's moves (R35), and the placing of a program where
the step fetches. -/

namespace Sys2Proof.Machine

/-- SCAN-DECODE: `PENDING <- some(DecodeAt(CURSOR))`, then `STATE <- EmittingInstruction` (R37, R107). -/
def scanDecode (s : State) : Host.Outcome State Fault Refusal :=
  match s.fetch with
  | .instr i => exec i s
  | .unclassified => s.takeData .unclassifiedOpcode
  | .missing => .fault (.wordUndefined s.cursor)

/-- One transition of the Driver: SCAN-END, SCAN-DECODE or EMIT; "No step is enabled" in a final state (R36 to R39). -/
def step (s : State) : Host.Outcome State Fault Refusal :=
  match s.phase with
  | .scanning => if s.nWords ≤ s.cursor then .next s.scanEnd else scanDecode s
  | .emittingInstruction => s.emit
  | .endOfBuffer => .refused .runEnded
  | .rejected => .refused .runEnded

/-- `DecodeAt(c)` as a function of the Word index: the record SCAN-DECODE leaves pending with the cursor at `c` (R107). -/
def decodeAt (s : State) (c : Nat) : Option Instruction :=
  match scanDecode { s with cursor := c } with
  | .next t => t.pending
  | .fault _ | .refused _ => none

/-- What the host can make the machine do: START, or one step. There is no move that writes `BUF` (R35, R168, log 6). -/
inductive HostMove where
  | start (bytes : List Byte) (base : Addr)
  | step
deriving DecidableEq, Repr

/-- The effect of a host's move (R35, R164). -/
def hostMove (m : HostMove) (s : State) : Host.Outcome State Fault Refusal :=
  match m with
  | .start bytes base => .next (s.start bytes base)
  | .step => step s

/-- The state with the Words of an instruction, numbered as the opcode table numbers its bits, stored where the next
step fetches its instruction (log 8). -/
def State.withFetchWord (s : State) (nbits w : Nat) : State := s.loadAtCursor (tableWords nbits w)

end Sys2Proof.Machine
end

