-- ==== Sys2Proof/Safety.lean ====
section
/-! DEFINITION. The vocabulary of the statements: what a buffer holds, which Words designate an operand, how many
extension Words a form has, the invariant of a run, and the states a host can reach. -/

namespace Sys2Proof.Machine

/-- The Words `ws` lie in the buffer at Word indexes `k`, `k + 1`, ..., all below `N`. -/
def State.holdsAt (s : State) (k : Nat) (ws : List Word) : Prop :=
  k + ws.length ≤ s.nWords ∧ ∀ j, j < ws.length → s.word? (k + j) = ws[j]?

/-- The extension Words `ws` carry the immediate `v` at an operand size (R89). -/
def ImmDesignates (size : OperandSize) (ws : List Word) (v : Nat) : Prop :=
  match size with
  | .byte => ∃ e : Word, ws = [e] ∧ v = e.toNat % 256
  | .word => ∃ e : Word, ws = [e] ∧ v = e.toNat
  | .long => ∃ h l : Word, ws = [h, l] ∧ v = h.toNat * 65536 + l.toNat

/-- The EA field `ea` and the extension Words `ws` designate the addressing mode `m` at an operand size: the table of
R83 with R86 to R89. -/
def EaDesignates (ea : Ea) (size : OperandSize) (ws : List Word) (m : AddressingMode) : Prop :=
  match ea with
  | .dataReg n => ws = [] ∧ m = .dataRegisterDirect n.toFin
  | .addrReg n => ws = [] ∧ m = .addressRegisterDirect n.toFin
  | .indirect n => ws = [] ∧ m = .addressRegisterIndirect n.toFin
  | .postInc n => ws = [] ∧ m = .addressRegisterIndirectPostIncrement n.toFin
  | .preDec n => ws = [] ∧ m = .addressRegisterIndirectPreDecrement n.toFin
  | .disp16 n => ∃ e : Word, ws = [e] ∧ m = .addressRegisterIndirectWithDisplacement n.toFin e.toInt
  | .indexed n => ∃ (d : Byte) (long : Bool) (r : Field3) (isA : Bool),
      ws = [BitVec.ofBool isA ++ r ++ BitVec.ofBool long ++ 0b000#3 ++ d] ∧
      m = .addressRegisterIndirectIndexed n.toFin
        ⟨if isA then .A else .D, r.toFin, if long then .long else .word⟩ d.toInt
  | .absShort => ∃ e : Word, ws = [e] ∧ m = .absoluteShort e
  | .absLong => ∃ h l : Word, ws = [h, l] ∧ m = .absoluteLong (h ++ l)
  | .immediate => ∃ v, ImmDesignates size ws v ∧ m = .immediate v size
  | .pcDisp | .pcIndexed | .reserved _ => False

/-- The low byte `b` of a branch and the displacement Words `ws` carry the displacement `disp` at a width (R92, R137). -/
def BranchDesignates (b : Byte) (ws : List Word) (disp : Int) (width : OperandSize) : Prop :=
  if b = 0x00#8 then ∃ e : Word, ws = [e] ∧ disp = e.toInt ∧ width = .word
  else if b = 0xFF#8 then ∃ h l : Word, ws = [h, l] ∧ disp = (h ++ l).toInt ∧ width = .long
  else ws = [] ∧ disp = b.toInt ∧ width = .byte

/-- The record of a successful decode of the Words `raw` at the cursor (R30, R54, R107). -/
def State.recordAt (s : State) (mn : Mnemonic) (operands : List Operand) (size : Option OperandSize)
    (condition : Option Condition) (raw : List Word) : Instruction where
  mnemonic := mn
  operands := operands
  size := size
  condition := condition
  address := BitVec.ofNat 32 (s.base.toNat + 2 * s.cursor)
  lengthInWords := raw.length
  rawWords := raw
  dataReason := none

/-- The DATA record of the opcode Word `w` at the cursor (R108). -/
def State.dataAt (s : State) (w : Word) (r : DataReason) : Instruction where
  mnemonic := .DATA
  operands := []
  size := none
  condition := none
  address := BitVec.ofNat 32 (s.base.toNat + 2 * s.cursor)
  lengthInWords := 1
  rawWords := [w]
  dataReason := some r

/-- The state of SCAN-DECODE with the record `r`: PENDING and STATE written, every other field as it was (R37). -/
def State.withPending (s : State) (r : Instruction) : State :=
  { s with pending := some r, phase := .emittingInstruction }

/-! ### What a row names -/

/-- The mnemonic of an instruction's row in the opcode table (R28, R131). -/
def instrMnemonic : Instr → Mnemonic
  | .move .. => .MOVE
  | .movea .. => .MOVEA
  | .movemR2M .. | .movemM2R .. => .MOVEM
  | .addToDn .. | .addToEa .. => .ADD
  | .adda .. => .ADDA
  | .subToDn .. | .subToEa .. => .SUB
  | .subq .. => .SUBQ
  | .muls .. => .MULS
  | .divs .. => .DIVS
  | .lea .. => .LEA
  | .orToDn .. | .orToEa .. => .OR
  | .ori .. => .ORI
  | .neg .. => .NEG
  | .eor .. => .EOR
  | .asrReg .. | .asrMem .. => .ASR
  | .aslReg .. | .aslMem .. => .ASL
  | .lsrReg .. | .lsrMem .. => .LSR
  | .lslReg .. | .lslMem .. => .LSL
  | .rorReg .. | .rorMem .. => .ROR
  | .rolReg .. | .rolMem .. => .ROL
  | .bclr .. => .BCLR
  | .cmp .. => .CMP
  | .cmpi .. => .CMPI
  | .bra .. => .BRA
  | .bcc .. => .Bcc
  | .jsr .. => .JSR
  | .rts => .RTS

/-! ### How many extension Words a form has -/

/-- The extension Words of an immediate (R89). -/
def immCount : OperandSize → Nat
  | .byte | .word => 1
  | .long => 2

/-- The extension-Words column of R83. -/
def eaExtCount (size : OperandSize) : Ea → Nat
  | .dataReg _ | .addrReg _ | .indirect _ | .postInc _ | .preDec _ | .reserved _ => 0
  | .disp16 _ | .indexed _ | .absShort | .pcDisp | .pcIndexed => 1
  | .absLong => 2
  | .immediate => immCount size

/-- The displacement Words of Bcc and BRA (R92). -/
def branchCount (b : Byte) : Nat := if b = 0x00#8 then 1 else if b = 0xFF#8 then 2 else 0

/-- "The opcode Word alone fixes the number of extension Words": the sum over the form's EAs and its fixed extra Words
(R62, R93). -/
def instrExtCount : Instr → Nat
  | .move s src dst => eaExtCount s src + eaExtCount s dst
  | .movea s ea _ | .adda s _ ea => eaExtCount s.toSize ea
  | .movemR2M s ea | .movemM2R s ea => 1 + eaExtCount s.toSize ea
  | .addToDn s _ ea | .addToEa s _ ea | .subToDn s _ ea | .subToEa s _ ea | .subq s _ ea
  | .orToDn s _ ea | .orToEa s _ ea | .neg s ea | .eor s _ ea | .cmp s _ ea => eaExtCount s ea
  | .muls _ ea | .divs _ ea => eaExtCount .word ea
  | .asrMem ea | .aslMem ea | .lsrMem ea | .lslMem ea | .rorMem ea | .rolMem ea => eaExtCount .word ea
  | .lea _ ea | .jsr ea => eaExtCount .long ea
  | .ori s ea | .cmpi s ea => immCount s + eaExtCount s ea
  | .bclr ea => 1 + eaExtCount (bclrEaSize ea) ea
  | .bra b | .bcc _ b => branchCount b
  | .asrReg .. | .aslReg .. | .lsrReg .. | .lslReg .. | .rorReg .. | .rolReg .. | .rts => 0

/-- The Words a form reads between its opcode Word and its EA's Words: a MOVEM mask, a BCLR bit number, an ORI or CMPI
immediate (R93). -/
def instrLeadCount : Instr → Nat
  | .movemR2M .. | .movemM2R .. | .bclr .. => 1
  | .ori s _ | .cmpi s _ => immCount s
  | .move .. | .movea .. | .addToDn .. | .addToEa .. | .adda .. | .subToDn .. | .subToEa .. | .subq .. | .muls ..
  | .divs .. | .lea .. | .orToDn .. | .orToEa .. | .neg .. | .eor .. | .asrReg .. | .aslReg .. | .lsrReg .. | .lslReg ..
  | .rorReg .. | .rolReg .. | .asrMem .. | .aslMem .. | .lsrMem .. | .lslMem .. | .rorMem .. | .rolMem ..
  | .cmp .. | .bra .. | .bcc .. | .jsr .. | .rts => 0

/-- The operand size under which a form resolves the EA of its opcode Word (R116 to R136, R142). -/
def instrEaSize : Instr → OperandSize
  | .move s _ _ | .addToDn s _ _ | .addToEa s _ _ | .subToDn s _ _ | .subToEa s _ _ | .subq s _ _
  | .orToDn s _ _ | .orToEa s _ _ | .ori s _ | .neg s _ | .eor s _ _ | .cmp s _ _ | .cmpi s _
  | .asrReg s _ _ | .aslReg s _ _ | .lsrReg s _ _ | .lslReg s _ _ | .rorReg s _ _ | .rolReg s _ _ => s
  | .movea s _ _ | .movemR2M s _ | .movemM2R s _ | .adda s _ _ => s.toSize
  | .muls .. | .divs .. => .word
  | .asrMem .. | .aslMem .. | .lsrMem .. | .lslMem .. | .rorMem .. | .rolMem .. => .word
  | .bclr ea => bclrEaSize ea
  | .lea .. | .jsr .. | .bra .. | .bcc .. | .rts => .long

/-! ### Which reason a decode reports -/

/-- The first failure met in resolving an EA whose Words begin at index `k` (R105, R112): an unsupported pair before any
read, then a missing Word, then a brief Word outside the subset. -/
def State.eaFailure (s : State) (ea : Ea) (size : OperandSize) (k : Nat) : Option DataReason :=
  match ea with
  | .pcDisp | .pcIndexed | .reserved _ => some .unsupportedAddressingMode
  | .indexed _ =>
    if s.nWords < k + 1 then some .truncatedBuffer
    else if (s.word? k).any fun e => e.extractLsb' 8 3 != 0#3 then some .unsupportedAddressingMode
    else none
  | .dataReg _ | .addrReg _ | .indirect _ | .postInc _ | .preDec _ | .disp16 _ | .absShort | .absLong | .immediate =>
    if s.nWords < k + eaExtCount size ea then some .truncatedBuffer else none

/-- The first failure met in the form's Words, in the order of R93 (R112): a missing Word among those before the EA,
then the EA's own, then in MOVE the destination's. -/
def State.formFailure (s : State) (i : Instr) : Option DataReason :=
  match i.ea?, i.dst? with
  | none, _ => if s.nWords < s.cursor + 1 + instrExtCount i then some .truncatedBuffer else none
  | some ea, dst =>
    if s.nWords < s.cursor + 1 + instrLeadCount i then some .truncatedBuffer
    else
      match s.eaFailure ea (instrEaSize i) (s.cursor + 1 + instrLeadCount i), dst with
      | some r, _ => some r
      | none, none => none
      | none, some d =>
        s.eaFailure d (instrEaSize i) (s.cursor + 1 + instrLeadCount i + eaExtCount (instrEaSize i) ea)

/-! ### The invariant of a run -/

/-- The records cover Words `c .. e-1` of the buffer "in order, with no gap and no overlap", each the record of a
decode at its own Word (R41). -/
def State.covers (s : State) : (c : Nat) → List Instruction → (e : Nat) → Prop
  | c, [], e => c = e
  | c, r :: rest, e => c < s.nWords ∧ decodeAt s c = some r ∧ s.covers (c + r.lengthInWords) rest e

/-- The sum of `lengthInWords` over a sequence of records. -/
def sumLengths (rs : List Instruction) : Nat := (rs.map Instruction.lengthInWords).sum

/-- The invariant of the states that follow a START (R35, R36, R41, R45). -/
structure State.Inv (s : State) : Prop where
  /-- `BUF` holds exactly the bytes at offsets 0 .. L-1. -/
  bufHeld : s.bufWf = true
  /-- "`Rejected` if `L` is odd" -/
  rejectedIff : s.phase = .rejected ↔ s.len % 2 = 1
  /-- "a rejected run emits no record" -/
  rejectedEmpty : s.phase = .rejected → s.cursor = 0
  cursorLe : s.cursor ≤ s.nWords
  pendingIff : s.pending.isSome = true ↔ s.phase = .emittingInstruction
  /-- `PENDING` is the record of the decode at the cursor. -/
  pendingIs : ∀ r, s.pending = some r → s.cursor < s.nWords ∧ decodeAt s s.cursor = some r
  /-- "In state `EndOfBuffer`, `CURSOR = N`" -/
  ended : s.phase = .endOfBuffer → s.cursor = s.nWords
  covered : s.covers 0 s.out s.cursor

/-- The states the host's moves lead to from some START (R44: "a model starts at START"). -/
inductive Reachable : State → Prop where
  | start (s : State) (bytes : List Byte) (base : Addr) : Reachable (s.start bytes base)
  | move {s t : State} (m : HostMove) : Reachable s → hostMove m s = .next t → Reachable t

/-- `STATE ∈ {EndOfBuffer, Rejected}`: the ends of a run (R39). -/
def State.final (s : State) : Prop := s.phase = .endOfBuffer ∨ s.phase = .rejected

end Sys2Proof.Machine
end

