-- ==== Sys2Proof/Certificates/Slice0/Obligations.lean ====
section
/-! DEFINITION. The statements about the block, in the order of spec/: encoding and classification, the operand forms, the
record each instruction leaves, failures, the Driver's steps, and whole runs. In every statement about `exec`,
`s.withPending r` is `s` with PENDING and STATE written and every other register as it was (`Safety.lean`), so an
equation with it states the frame too. -/

section

open Sys2Proof Sys2Proof.Machine

/-! ### Encoding and classification -/

/-- Every well-formed instruction is decoded from the Word its format builds, whatever bytes follow
(R66 to R78 against R79 to R83 and R95). -/
def Obligations.DecodeOfEncode : Prop :=
  ∀ (slot : BsrSlot) (i : Instr) (rest : List Byte), i.wf slot = true →
    decode slot (bytesOfWord (encode i) ++ rest) = .ok (i, rest)

/-- The other direction: a Word the classifier knows is the Word of the instruction it names, which is well-formed and of
the row that held (R95, R101). -/
def Obligations.EncodeOfClassify : Prop :=
  ∀ (slot : BsrSlot) (w : Word) (i : Instr), classify slot w = some i →
    encode i = w ∧ i.wf slot = true ∧ classifyForm slot w = some i.form

/-- "no opcode Word satisfies two rows" (R96). -/
def Obligations.RowsAreDisjoint : Prop :=
  ∀ (slot : BsrSlot) (w : Word) (f g : Form), f.holds slot w = true → g.holds slot w = true → f = g

/-- The decoder's answer on a Word of each format, written out from R66 to R78 (a sanity check). -/
def Obligations.SampleWordsDecode : Prop :=
  classify .data 0b0011_101_000_111_100#16 = some (.move .word .immediate (.dataReg 5#3)) ∧
  classify .data 0b01001_0_001_1_100_111#16 = some (.movemR2M .long (.preDec 7#3)) ∧
  classify .data 0b1101_000_111_111_100#16 = some (.adda .long 0#3 .immediate) ∧
  classify .data 0b0101_000_1_01_001_000#16 = some (.subq .word 0#3 (.addrReg 0#3)) ∧
  classify .data 0b1100_001_111_111_100#16 = some (.muls 1#3 .immediate) ∧
  classify .data 0b1000_011_1_01_010_001#16 = some (.orToEa .word 3#3 (.indirect 1#3)) ∧
  classify .data 0b1011_001_1_10_000_100#16 = some (.eor .long 1#3 (.dataReg 4#3)) ∧
  classify .data 0b00001100_10_000_000#16 = some (.cmpi .long (.dataReg 0#3)) ∧
  classify .data 0b0000100010_111_001#16 = some (.bclr .absLong) ∧
  classify .data 0b01000100_01_010_000#16 = some (.neg .word (.indirect 0#3)) ∧
  classify .data 0b0100_001_111_101_000#16 = some (.lea 1#3 (.disp16 0#3)) ∧
  classify .data 0b0100111010_111_001#16 = some (.jsr .absLong) ∧
  classify .data 0b1110_000_0_10_1_01_001#16 = some (.lsrReg .long (.inReg 0#3) 1#3) ∧
  classify .data 0b11100_11_1_11_111_000#16 = some (.rolMem .absShort) ∧
  classify .data 0b0110_0111_00000000#16 = some (.bcc 0b0111#4 0#8) ∧
  classify .data 0b0100111001110101#16 = some .rts

/-- The opcode map by class: a class has the forms R94 lists for it, and no others; the classes 0111, 1010 and 1111 have
none. -/
def Obligations.FormsOfEachClass : Prop :=
  ∀ (slot : BsrSlot) (w : Word) (f : Form), classifyForm slot w = some f →
    (classField w = 0b0000#4 ∧ f ∈ [Form.ori, .bclrImm, .cmpi]) ∨
    ((classField w = 0b0001#4 ∨ classField w = 0b0010#4 ∨ classField w = 0b0011#4) ∧ f ∈ [Form.move, .movea] ∧
      (classField w = 0b0001#4 → f = .move)) ∨
    (classField w = 0b0100#4 ∧ f ∈ [Form.neg, .movemR2M, .movemM2R, .lea, .jsr, .rts]) ∨
    (classField w = 0b0101#4 ∧ f = .subq) ∨
    (classField w = 0b0110#4 ∧ f = .branch) ∨
    (classField w = 0b1000#4 ∧ f ∈ [Form.orToEa, .orToDn, .divs]) ∨
    (classField w = 0b1001#4 ∧ f ∈ [Form.subToEa, .subToDn]) ∨
    (classField w = 0b1011#4 ∧ f ∈ [Form.cmp, .eor]) ∨
    (classField w = 0b1100#4 ∧ f = .muls) ∨
    (classField w = 0b1101#4 ∧ f ∈ [Form.addToEa, .addToDn, .adda]) ∨
    (classField w = 0b1110#4 ∧ f ∈ [Form.shiftReg, .shiftMem])

/-- The Words of R98's table (ss is a size code, so not 11, R79): each decodes to DATA (UnclassifiedOpcode). -/
def Obligations.NamedOverlapsAreData : Prop :=
  ∀ (s : State) (w : Word), s.phase = .scanning → s.word? s.cursor = some w →
    ((w &&& 0xF130#16 = 0xD100#16 ∧ sizeField w ≠ 0b11#2) ∨
      (w &&& 0xF130#16 = 0x9100#16 ∧ sizeField w ≠ 0b11#2) ∨
      w &&& 0xF1F0#16 = 0x8100#16 ∨
      (w &&& 0xF138#16 = 0xB108#16 ∧ sizeField w ≠ 0b11#2) ∨
      w &&& 0xFFB8#16 = 0x4880#16 ∨
      w = 0x003C#16 ∨ w = 0x007C#16) →
    step s = .next (s.withPending (s.dataAt w .unclassifiedOpcode))

/-- The system, environment-call and privileged instructions of R157's table: a 1-Word DATA record, after whose EMIT the
Words that follow are scanned as opcode Words. -/
def Obligations.SystemWordsAreData : Prop :=
  ∀ (s : State) (w : Word), s.phase = .scanning → s.word? s.cursor = some w →
    (w &&& 0xFFF0#16 = 0x4E40#16 ∨ w = 0x4E76#16 ∨ w &&& 0xF1C0#16 = 0x4180#16 ∨ w = 0x4AFC#16 ∨ w = 0x4E70#16 ∨
      w = 0x4E71#16 ∨ w = 0x4E72#16 ∨ w = 0x4E73#16 ∨ w = 0x4E77#16 ∨ w &&& 0xFFF0#16 = 0x4E60#16 ∨
      w &&& 0xFFC0#16 = 0x46C0#16 ∨ w &&& 0xFFC0#16 = 0x40C0#16 ∨ w &&& 0xFFC0#16 = 0x44C0#16 ∨
      w = 0x003C#16 ∨ w = 0x023C#16 ∨ w = 0x0A3C#16 ∨ w = 0x007C#16 ∨ w = 0x027C#16 ∨ w = 0x0A7C#16) →
    ∃ t u, step s = .next t ∧ t = s.withPending (s.dataAt w .unclassifiedOpcode) ∧
      step t = .next u ∧ u.phase = .scanning ∧ u.cursor = s.cursor + 1 ∧
      u.out = s.out ++ [s.dataAt w .unclassifiedOpcode]

/-- The opcode Words 0x6100 .. 0x61FF under each value of BSR_SLOT, and its default (R140): DATA, or Bcc with the
condition F and its displacement Words consumed. -/
def Obligations.BsrSlotDecides : Prop :=
  State.reset.bsrSlot = .data ∧
  ∀ (s : State) (b : Byte) (ws : List Word), s.phase = .scanning → s.holdsAt s.cursor ((0x61#8 ++ b) :: ws) →
    (s.bsrSlot = .data → step s = .next (s.withPending (s.dataAt (0x61#8 ++ b) .unclassifiedOpcode))) ∧
    (s.bsrSlot = .bccF → ∀ (disp : Int) (width : OperandSize), BranchDesignates b ws disp width →
      step s = .next (s.withPending (s.recordAt .Bcc
        [⟨.branchTarget disp
            (BitVec.ofNat 32 (s.base.toNat + 2 * s.cursor) + 2#32 + BitVec.ofInt 32 disp), width⟩]
        (some width) (some .F) ((0x61#8 ++ b) :: ws))))

/-- The shift mnemonics, and that a Word of class 1110 with the rotate-with-extend type has no form (R131). -/
def Obligations.ShiftNames : Prop :=
  (shiftName? 0b00#2 false = some .asr ∧ shiftName? 0b00#2 true = some .asl ∧
    shiftName? 0b01#2 false = some .lsr ∧ shiftName? 0b01#2 true = some .lsl ∧
    shiftName? 0b11#2 false = some .ror ∧ shiftName? 0b11#2 true = some .rol) ∧
  (∀ (s : State) (w : Word), s.phase = .scanning → s.word? s.cursor = some w → classField w = 0b1110#4 →
    (sizeField w ≠ 0b11#2 ∧ w.extractLsb' 3 2 = 0b10#2 ∨ sizeField w = 0b11#2 ∧ w.extractLsb' 9 2 = 0b10#2) →
    step s = .next (s.withPending (s.dataAt w .unclassifiedOpcode)))

/-- The named EA sets are the combinations of the addressing categories R85 reads off the table of R84. -/
def Obligations.EaSetsFromCategories : Prop :=
  ∀ (ea : Ea),
    (∀ size, EaSet.all.mem size ea = (ea.isData || ea.isAlterable)) ∧
    (∀ size, EaSet.data.mem size ea = ea.isData) ∧
    (∀ size, EaSet.dataAlt.mem size ea = (ea.isData && ea.isAlterable)) ∧
    (∀ size, EaSet.memAlt.mem size ea = (ea.isMemory && ea.isAlterable)) ∧
    (∀ size, EaSet.alt.mem size ea = ea.isAlterable) ∧
    (∀ size, EaSet.control.mem size ea = ea.isControl) ∧
    (∀ size, EaSet.movemR2M.mem size ea = ((ea.isControl && ea.isAlterable) || ea.modeCode == 0b100#3)) ∧
    (∀ size, EaSet.movemM2R.mem size ea = (ea.isControl || ea.modeCode == 0b011#3)) ∧
    EaSet.src.mem (some .byte) ea = ea.isData ∧
    EaSet.src.mem (some .word) ea = (ea.isData || ea.isAlterable) ∧
    EaSet.src.mem (some .long) ea = (ea.isData || ea.isAlterable) ∧
    EaSet.quickDst.mem (some .byte) ea = (ea.isData && ea.isAlterable) ∧
    EaSet.quickDst.mem (some .word) ea = ea.isAlterable ∧
    EaSet.quickDst.mem (some .long) ea = ea.isAlterable

/-- The bit-field extractor and the named fields of an opcode Word (R64, R65). -/
def Obligations.BitFieldExtractor : Prop :=
  (∀ (w : Word) (hi lo : Nat), hi ≤ 15 → lo ≤ hi → (bfx w hi lo).toNat = w.toNat / 2 ^ lo % 2 ^ (hi - lo + 1)) ∧
  (∀ (w : Word), (classField w).toNat = w.toNat / 4096 ∧ (regField w).toNat = w.toNat / 512 % 8 ∧
    (opmodeField w).toNat = w.toNat / 64 % 8 ∧ (sizeField w).toNat = w.toNat / 64 % 4 ∧
    (moveSizeField w).toNat = w.toNat / 4096 % 4 ∧ (eaModeField w).toNat = w.toNat / 8 % 8 ∧
    (eaRegField w).toNat = w.toNat % 8 ∧ (condField w).toNat = w.toNat / 256 % 16 ∧
    (lowByte w).toNat = w.toNat % 256)

/-- The condition translator, and that only Bcc and BRA call it (R114). -/
def Obligations.ConditionTranslator : Prop :=
  (conditionOf 0b0000#4 = .T ∧ conditionOf 0b0001#4 = .F ∧ conditionOf 0b0010#4 = .HI ∧ conditionOf 0b0011#4 = .LS ∧
    conditionOf 0b0100#4 = .CC ∧ conditionOf 0b0101#4 = .CS ∧ conditionOf 0b0110#4 = .NE ∧
    conditionOf 0b0111#4 = .EQ ∧ conditionOf 0b1000#4 = .VC ∧ conditionOf 0b1001#4 = .VS ∧
    conditionOf 0b1010#4 = .PL ∧ conditionOf 0b1011#4 = .MI ∧ conditionOf 0b1100#4 = .GE ∧
    conditionOf 0b1101#4 = .LT ∧ conditionOf 0b1110#4 = .GT ∧ conditionOf 0b1111#4 = .LE) ∧
  (∀ (i : Instr) (s t : State) (r : Instruction) (c : Condition), exec i s = .next t → t.pending = some r →
    r.condition = some c → (∃ b, i = .bra b ∧ c = conditionOf 0b0000#4) ∨ (∃ cond b, i = .bcc cond b ∧ c = conditionOf cond))

/-! ### The buffer -/

/-- `Word(k)` is formed big-endian from two bytes (R48). -/
def Obligations.WordIsBigEndian : Prop :=
  ∀ (s : State) (k : Nat) (w : Word), s.word? k = some w ↔
    ∃ hi lo : Byte, s.byte? (2 * k) = some hi ∧ s.byte? (2 * k + 1) = some lo ∧
      w.toNat = hi.toNat * 256 + lo.toNat

/-- `MemRead(2k, 2)` is `Word(k)`, and `MemRead(2k, 4)` is two Words, the high one first (R49, R50). -/
def Obligations.MemReadIsWords : Prop :=
  ∀ (s : State) (k : Nat),
    s.memRead? (2 * k) 2 = (s.word? k).map BitVec.toNat ∧
    (∀ h l : Word, s.word? k = some h → s.word? (k + 1) = some l →
      s.memRead? (2 * k) 4 = some (h.toNat * 65536 + l.toNat) ∧
      s.extLong k = .ok (h ++ l) ∧ (h ++ l).toNat = h.toNat * 65536 + l.toNat)

/-- `Ext(k)` checks bounds and reads no Word at or past the buffer's end (R102). -/
def Obligations.ExtChecksBounds : Prop :=
  ∀ (s : State) (k : Nat),
    (s.nWords ≤ k → s.ext k = .error (.raise .truncatedBuffer)) ∧
    (∀ w : Word, k < s.nWords → s.word? k = some w → s.ext k = .ok w)

/-! ### The operand forms -/

/-- `ReadImm`: the raw unsigned value of an immediate's Words and the index after them, and TruncatedBuffer where a Word
is missing (R89, R104). -/
def Obligations.ReadImmediate : Prop :=
  ∀ (s : State) (size : OperandSize) (k : Nat),
    (∀ (ws : List Word) (v : Nat), ImmDesignates size ws v → s.holdsAt k ws →
      s.readImm size k = .ok (v, k + ws.length)) ∧
    (s.bufWf = true → s.nWords < k + immCount size → s.readImm size k = .error (.raise .truncatedBuffer))

/-- `Resolve` answers exactly the mode that the EA field and the Words at `k` designate, under the size asked for, with the
index after those Words (R83, R103). -/
def Obligations.ResolveIsTheTable : Prop :=
  ∀ (s : State) (ea : Ea) (size : OperandSize) (k k' : Nat) (op : Operand), k ≤ s.nWords →
    (s.resolve ea size k = .ok (op, k') ↔
      ∃ ws, EaDesignates ea size ws op.mode ∧ op.size = size ∧ s.holdsAt k ws ∧ k' = k + ws.length)

/-- Where `Resolve` raises, and which reason: an unsupported pair before any Word is read, a missing Word, a brief Word
outside the subset (R105, R112). -/
def Obligations.ResolveFailures : Prop :=
  ∀ (s : State) (ea : Ea) (size : OperandSize) (k : Nat) (r : DataReason), s.bufWf = true → k ≤ s.nWords →
    (s.resolve ea size k = .error (.raise r) ↔ s.eaFailure ea size k = some r)

/-- The round trip of addressing modes: encoding a mode `Resolve` returns and resolving it gives the mode back; the Words
are reproduced where every ignored bit is zero, and a byte immediate's ignored bits change nothing else (R106). -/
def Obligations.AddressingModeRoundTrip : Prop :=
  (∀ (s : State) (m : AddressingMode) (ea : Ea) (size : OperandSize) (ws : List Word) (k : Nat),
    m.inRange = true → (∀ v sz, m = .immediate v sz → sz = size) → m.encode? = some (ea, ws) → s.holdsAt k ws →
    s.resolve ea size k = .ok (⟨m, size⟩, k + ws.length)) ∧
  (∀ (ea : Ea) (size : OperandSize) (ws : List Word) (m : AddressingMode), EaDesignates ea size ws m →
    ((ea = .immediate → size = .byte → ∀ e, ws = [e] → e.toNat < 256) → m.encode? = some (ea, ws)) ∧
    (ea = .immediate → size = .byte → ∃ v : Nat, m.encode? = some (ea, [BitVec.ofNat 16 (v % 256)]) ∧
      EaDesignates ea size [BitVec.ofNat 16 (v % 256)] m))

/-- Displacement-size selection from the low byte of a branch Word, and TruncatedBuffer where a displacement Word is
missing (R137). -/
def Obligations.BranchDisplacement : Prop :=
  ∀ (s : State) (b : Byte) (k : Nat), k ≤ s.nWords →
    (∀ (disp : Int) (width : OperandSize) (k' : Nat), s.branchDisp b k = .ok (disp, width, k') ↔
      ∃ ws, BranchDesignates b ws disp width ∧ s.holdsAt k ws ∧ k' = k + ws.length) ∧
    (s.bufWf = true → s.nWords < k + branchCount b → s.branchDisp b k = .error (.raise .truncatedBuffer))

/-! ### The record each instruction leaves

`ws` are the extension Words of an EA and `a` the mode they designate. -/

/-- MOVE: the source's Words, then the destination's (R116). -/
def Obligations.MoveRecord : Prop :=
  ∀ (s : State) (size : OperandSize) (src dst : Ea) (ws vs : List Word) (a b : AddressingMode),
    EaDesignates src size ws a → EaDesignates dst size vs b →
    s.holdsAt s.cursor (encode (.move size src dst) :: (ws ++ vs)) →
    exec (.move size src dst) s = .next (s.withPending
      (s.recordAt .MOVE [⟨a, size⟩, ⟨b, size⟩] (some size) none (encode (.move size src dst) :: (ws ++ vs))))

/-- MOVEA and ADDA: the source, then An, both under the operation size Word or Long (R117, R121). -/
def Obligations.MoveaAddaRecord : Prop :=
  ∀ (s : State) (size : WordOrLong) (an : Field3) (ea : Ea) (ws : List Word) (a : AddressingMode),
    EaDesignates ea size.toSize ws a →
    ∀ p ∈ [(Mnemonic.MOVEA, Instr.movea size ea an), (.ADDA, .adda size an ea)],
      s.holdsAt s.cursor (encode p.2 :: ws) →
      exec p.2 s = .next (s.withPending
        (s.recordAt p.1 [⟨a, size.toSize⟩, ⟨.addressRegisterDirect an.toFin, size.toSize⟩] (some size.toSize) none
          (encode p.2 :: ws)))

/-- MOVEM in both directions: the mask Word `m` first, then the EA's Words; the list operand is the mask in the normal
order, bit for bit the mask Word except under predecrement, where bit j is bit 15 - j of it; the raw mask stays in
rawWords (R118, R119). -/
def Obligations.MovemRecord : Prop :=
  ∀ (s : State) (size : WordOrLong) (ea : Ea) (m mask : Word) (ws : List Word) (a : AddressingMode),
    EaDesignates ea size.toSize ws a →
    ((∀ n, ea ≠ .preDec n) → mask = m) →
    ((∃ n, ea = .preDec n) → ∀ j, j < 16 → mask.getLsbD j = m.getLsbD (15 - j)) →
    (s.holdsAt s.cursor (encode (.movemR2M size ea) :: m :: ws) →
      exec (.movemR2M size ea) s = .next (s.withPending
        (s.recordAt .MOVEM [⟨.registerList mask, size.toSize⟩, ⟨a, size.toSize⟩] (some size.toSize) none
          (encode (.movemR2M size ea) :: m :: ws)))) ∧
    (s.holdsAt s.cursor (encode (.movemM2R size ea) :: m :: ws) →
      exec (.movemM2R size ea) s = .next (s.withPending
        (s.recordAt .MOVEM [⟨a, size.toSize⟩, ⟨.registerList mask, size.toSize⟩] (some size.toSize) none
          (encode (.movemM2R size ea) :: m :: ws))))

/-- ADD, SUB, OR and CMP with destination Dn: the source EA, then Dn (R120, R122, R127, R135). -/
def Obligations.EaToDnRecord : Prop :=
  ∀ (s : State) (size : OperandSize) (dn : Field3) (ea : Ea) (ws : List Word) (a : AddressingMode),
    EaDesignates ea size ws a →
    ∀ p ∈ [(Mnemonic.ADD, Instr.addToDn size dn ea), (.SUB, .subToDn size dn ea), (.OR, .orToDn size dn ea),
        (.CMP, .cmp size dn ea)],
      s.holdsAt s.cursor (encode p.2 :: ws) →
      exec p.2 s = .next (s.withPending
        (s.recordAt p.1 [⟨a, size⟩, ⟨.dataRegisterDirect dn.toFin, size⟩] (some size) none (encode p.2 :: ws)))

/-- ADD, SUB, OR and EOR with source Dn: Dn, then the destination EA (R120, R122, R127, R130). -/
def Obligations.DnToEaRecord : Prop :=
  ∀ (s : State) (size : OperandSize) (dn : Field3) (ea : Ea) (ws : List Word) (a : AddressingMode),
    EaDesignates ea size ws a →
    ∀ p ∈ [(Mnemonic.ADD, Instr.addToEa size dn ea), (.SUB, .subToEa size dn ea), (.OR, .orToEa size dn ea),
        (.EOR, .eor size dn ea)],
      s.holdsAt s.cursor (encode p.2 :: ws) →
      exec p.2 s = .next (s.withPending
        (s.recordAt p.1 [⟨.dataRegisterDirect dn.toFin, size⟩, ⟨a, size⟩] (some size) none (encode p.2 :: ws)))

/-- SUBQ: the quick data 1 .. 8 of the opcode Word, field 000 for 8, then the EA; the quick data takes no Word (R123). -/
def Obligations.SubqRecord : Prop :=
  ∀ (s : State) (size : OperandSize) (data : Field3) (q : Nat) (ea : Ea) (ws : List Word) (a : AddressingMode),
    1 ≤ q → q ≤ 8 → data = BitVec.ofNat 3 q → EaDesignates ea size ws a →
    s.holdsAt s.cursor (encode (.subq size data ea) :: ws) →
    exec (.subq size data ea) s = .next (s.withPending
      (s.recordAt .SUBQ [⟨.immediate q size, size⟩, ⟨a, size⟩] (some size) none (encode (.subq size data ea) :: ws)))

/-- MULS and DIVS: the source, then Dn, both under Word; a zero divisor is a source like any other (R124, R125). -/
def Obligations.MulsDivsRecord : Prop :=
  ∀ (s : State) (dn : Field3) (ea : Ea) (ws : List Word) (a : AddressingMode), EaDesignates ea .word ws a →
    ∀ p ∈ [(Mnemonic.MULS, Instr.muls dn ea), (.DIVS, .divs dn ea)],
      s.holdsAt s.cursor (encode p.2 :: ws) →
      exec p.2 s = .next (s.withPending
        (s.recordAt p.1 [⟨a, .word⟩, ⟨.dataRegisterDirect dn.toFin, .word⟩] (some .word) none (encode p.2 :: ws)))

/-- LEA and JSR: operands under Long, no size in the record; the target of JSR is not followed (R126, R142). -/
def Obligations.LeaJsrRecord : Prop :=
  ∀ (s : State) (ea : Ea) (ws : List Word) (a : AddressingMode), EaDesignates ea .long ws a →
    (∀ an : Field3, s.holdsAt s.cursor (encode (.lea an ea) :: ws) →
      exec (.lea an ea) s = .next (s.withPending
        (s.recordAt .LEA [⟨a, .long⟩, ⟨.addressRegisterDirect an.toFin, .long⟩] none none
          (encode (.lea an ea) :: ws)))) ∧
    (s.holdsAt s.cursor (encode (.jsr ea) :: ws) →
      exec (.jsr ea) s = .next (s.withPending
        (s.recordAt .JSR [⟨a, .long⟩] none none (encode (.jsr ea) :: ws))))

/-- ORI and CMPI: the immediate's Words first, then the destination's (R128, R136). -/
def Obligations.ImmediateToEaRecord : Prop :=
  ∀ (s : State) (size : OperandSize) (ea : Ea) (us ws : List Word) (v : Nat) (a : AddressingMode),
    ImmDesignates size us v → EaDesignates ea size ws a →
    ∀ p ∈ [(Mnemonic.ORI, Instr.ori size ea), (.CMPI, .cmpi size ea)],
      s.holdsAt s.cursor (encode p.2 :: (us ++ ws)) →
      exec p.2 s = .next (s.withPending
        (s.recordAt p.1 [⟨.immediate v size, size⟩, ⟨a, size⟩] (some size) none (encode p.2 :: (us ++ ws))))

/-- NEG: the destination EA alone (R129). -/
def Obligations.NegRecord : Prop :=
  ∀ (s : State) (size : OperandSize) (ea : Ea) (ws : List Word) (a : AddressingMode), EaDesignates ea size ws a →
    s.holdsAt s.cursor (encode (.neg size ea) :: ws) →
    exec (.neg size ea) s = .next (s.withPending
      (s.recordAt .NEG [⟨a, size⟩] (some size) none (encode (.neg size ea) :: ws)))

/-- The shifts and rotates of a data register: the count, a number 1 .. 8 (field 000 for 8) or a register, under the
operation size, then Dy; no extension Word (R132). -/
def Obligations.RegisterShiftRecord : Prop :=
  ∀ (s : State) (size : OperandSize) (dy : Field3) (count : ShiftCount) (cnt : AddressingMode),
    ((∃ n : Field3, count = .inReg n ∧ cnt = .dataRegisterDirect n.toFin) ∨
      (∃ q : Nat, 1 ≤ q ∧ q ≤ 8 ∧ count = .quick (BitVec.ofNat 3 q) ∧ cnt = .immediate q size)) →
    ∀ p ∈ [(Mnemonic.ASR, Instr.asrReg size count dy), (.ASL, .aslReg size count dy), (.LSR, .lsrReg size count dy),
        (.LSL, .lslReg size count dy), (.ROR, .rorReg size count dy), (.ROL, .rolReg size count dy)],
      s.holdsAt s.cursor [encode p.2] →
      exec p.2 s = .next (s.withPending
        (s.recordAt p.1 [⟨cnt, size⟩, ⟨.dataRegisterDirect dy.toFin, size⟩] (some size) none [encode p.2]))

/-- The shifts and rotates of a memory Word: the destination EA alone, size Word (R133). -/
def Obligations.MemoryShiftRecord : Prop :=
  ∀ (s : State) (ea : Ea) (ws : List Word) (a : AddressingMode), EaDesignates ea .word ws a →
    ∀ p ∈ [(Mnemonic.ASR, Instr.asrMem ea), (.ASL, .aslMem ea), (.LSR, .lsrMem ea), (.LSL, .lslMem ea),
        (.ROR, .rorMem ea), (.ROL, .rolMem ea)],
      s.holdsAt s.cursor (encode p.2 :: ws) →
      exec p.2 s = .next (s.withPending (s.recordAt p.1 [⟨a, .word⟩] (some .word) none (encode p.2 :: ws)))

/-- BCLR: the bit-number Word first, its low byte unreduced; Dn under Long and memory under Byte; no size in the record
(R91, R134). -/
def Obligations.BclrRecord : Prop :=
  ∀ (s : State) (ea : Ea) (ds : OperandSize) (e : Word) (ws : List Word) (a : AddressingMode),
    ((∃ n, ea = .dataReg n) ∧ ds = .long ∨ (∀ n, ea ≠ .dataReg n) ∧ ds = .byte) →
    EaDesignates ea ds ws a → s.holdsAt s.cursor (encode (.bclr ea) :: e :: ws) →
    exec (.bclr ea) s = .next (s.withPending
      (s.recordAt .BCLR [⟨.immediate (e.toNat % 256) .byte, .byte⟩, ⟨a, ds⟩] none none
        (encode (.bclr ea) :: e :: ws)))

/-- BRA and Bcc: the displacement and the target `mod32(a + 2 + disp)`, the displacement's width as the size, the
condition recorded and not evaluated (R137, R138, R139, R141). -/
def Obligations.BranchRecord : Prop :=
  ∀ (s : State) (b : Byte) (ws : List Word) (disp : Int) (width : OperandSize), BranchDesignates b ws disp width →
    (s.holdsAt s.cursor (encode (.bra b) :: ws) →
      exec (.bra b) s = .next (s.withPending
        (s.recordAt .BRA
          [⟨.branchTarget disp (BitVec.ofNat 32 (s.base.toNat + 2 * s.cursor) + 2#32 + BitVec.ofInt 32 disp), width⟩]
          (some width) (some .T) (encode (.bra b) :: ws)))) ∧
    (∀ cond : BitVec 4, s.holdsAt s.cursor (encode (.bcc cond b) :: ws) →
      exec (.bcc cond b) s = .next (s.withPending
        (s.recordAt .Bcc
          [⟨.branchTarget disp (BitVec.ofNat 32 (s.base.toNat + 2 * s.cursor) + 2#32 + BitVec.ofInt 32 disp), width⟩]
          (some width) (some (conditionOf cond)) (encode (.bcc cond b) :: ws))))

/-- RTS: the single Word 0x4E75, no operands, length 1, also as the last Word of the buffer; the neighbouring Words are
UnclassifiedOpcode (R143). -/
def Obligations.RtsRecord : Prop :=
  (∀ (s : State), s.word? s.cursor = some 0x4E75#16 →
    exec .rts s = .next (s.withPending (s.recordAt .RTS [] none none [0x4E75#16])) ∧
    (s.phase = .scanning → step s = .next (s.withPending (s.recordAt .RTS [] none none [0x4E75#16])))) ∧
  (∀ (s : State) (w : Word), s.phase = .scanning → s.word? s.cursor = some w → w &&& 0xFFF8#16 = 0x4E70#16 →
    w ≠ 0x4E75#16 → step s = .next (s.withPending (s.dataAt w .unclassifiedOpcode)))

/-! ### What every decode keeps and guarantees -/

/-- The frame of every instruction: the buffer (every byte of it), `L`, BASE, the cursor, OUT and BSR_SLOT stay; PENDING
and STATE are what it writes (R17, R37). -/
def Obligations.ExecFrame : Prop :=
  ∀ (i : Instr) (s t : State), exec i s = .next t →
    t.buf = s.buf ∧ t.len = s.len ∧ t.base = s.base ∧ t.cursor = s.cursor ∧ t.out = s.out ∧ t.bsrSlot = s.bsrSlot ∧
      (∀ off, t.byte? off = s.byte? off) ∧ t.phase = .emittingInstruction ∧ t.pending.isSome = true

/-- The fields of every record a decode gives (R25, R30). -/
def Obligations.RecordFields : Prop :=
  ∀ (s : State) (c : Nat) (r : Instruction), decodeAt s c = some r →
    r.operands.length ≤ 2 ∧ (∀ op ∈ r.operands, op.mode.inRange = true) ∧
    (r.condition ≠ none ↔ r.mnemonic = .BRA ∨ r.mnemonic = .Bcc) ∧
    r.address = BitVec.ofNat 32 (s.base.toNat + 2 * c) ∧ 1 ≤ r.lengthInWords ∧
    r.rawWords.length = r.lengthInWords ∧ s.holdsAt c r.rawWords ∧
    (r.dataReason.isSome = true ↔ r.mnemonic = .DATA)

/-- The number of extension Words follows from the opcode Word alone: every record that is not DATA has length 1 plus the
form's count (R62). -/
def Obligations.ExtensionWordCount : Prop :=
  ∀ (i : Instr) (s t : State) (r : Instruction), s.cursor < s.nWords → exec i s = .next t → t.pending = some r →
    r.dataReason = none →
    r.mnemonic = instrMnemonic i ∧ r.lengthInWords = 1 + instrExtCount i ∧ instrExtCount i ≤ 4

/-- "`1 <= r.lengthInWords <= 5` and `c + r.lengthInWords <= N`", and the 5 is reached (R11, R110). -/
def Obligations.LengthBounds : Prop :=
  (∀ (s : State) (c : Nat) (r : Instruction), decodeAt s c = some r →
    1 ≤ r.lengthInWords ∧ r.lengthInWords ≤ 5 ∧ c + r.lengthInWords ≤ s.nWords) ∧
  (∃ (s : State) (r : Instruction), decodeAt s 0 = some r ∧ r.lengthInWords = 5 ∧ r.mnemonic = .MOVE)

/-- `DecodeAt` is total and a function of the buffer, BASE, BSR_SLOT and `c`; it writes nothing but PENDING, with the
STATE that says so (R109). -/
def Obligations.DecodeAtIsAFunction : Prop :=
  (∀ (s : State) (c : Nat), s.bufWf = true → c < s.nWords → ∃ r, decodeAt s c = some r) ∧
  (∀ (s s' : State) (c : Nat), s.buf = s'.buf → s.len = s'.len → s.base = s'.base → s.bsrSlot = s'.bsrSlot →
    decodeAt s c = decodeAt s' c) ∧
  (∀ (s t : State), scanDecode s = .next t → ∃ r, t = s.withPending r)

/-! ### Failures -/

/-- The order of failures: UnclassifiedOpcode from the opcode Word alone; then the first failure in the form's Words,
whose DATA record is otherwise the same; with none, the form's own record (R107, R108, R112). -/
def Obligations.FailureOrder : Prop :=
  ∀ (s : State) (w : Word), s.bufWf = true → s.word? s.cursor = some w →
    (s.phase = .scanning → classify s.bsrSlot w = none →
      step s = .next (s.withPending (s.dataAt w .unclassifiedOpcode))) ∧
    (∀ (i : Instr) (r : DataReason), s.formFailure i = some r → exec i s = .next (s.withPending (s.dataAt w r))) ∧
    (∀ (i : Instr), s.formFailure i = none →
      ∃ r, exec i s = .next (s.withPending r) ∧ r.dataReason = none ∧ r.mnemonic = instrMnemonic i)

/-- Which forms can raise which reason: a form without an EA never raises UnsupportedAddressingMode, a form without
extension Words never TruncatedBuffer, and RTS, the register shifts and a short branch never fail; MOVEM, BCLR, ORI, CMPI
and the longer branches always read an extension Word (R145). -/
def Obligations.ReasonsOfEachForm : Prop :=
  (∀ (i : Instr) (s t : State) (r : Instruction), s.cursor < s.nWords → exec i s = .next t → t.pending = some r →
    r.dataReason ≠ some .unclassifiedOpcode ∧
    (r.dataReason = some .unsupportedAddressingMode → i.form ≠ .rts ∧ i.form ≠ .shiftReg ∧ i.form ≠ .branch) ∧
    (r.dataReason = some .truncatedBuffer → s.nWords < s.cursor + 1 + instrExtCount i) ∧
    (i.form = .rts ∨ i.form = .shiftReg ∨
      (∃ b : Byte, b ≠ 0x00#8 ∧ b ≠ 0xFF#8 ∧ (i = .bra b ∨ ∃ cond, i = .bcc cond b)) → r.dataReason = none)) ∧
  (∀ (i : Instr), (i.form = .movemR2M ∨ i.form = .movemM2R ∨ i.form = .bclrImm ∨ i.form = .ori ∨ i.form = .cmpi ∨
    i = .bra 0x00#8 ∨ i = .bra 0xFF#8 ∨ (∃ cond, i = .bcc cond 0x00#8 ∨ i = .bcc cond 0xFF#8)) →
    1 ≤ instrExtCount i)

/-- Recovery: once a decode has left the DATA record of Word `c` pending, the next two steps append it and, if a Word
remains, decode Word `c + 1` as an opcode Word (R151, R152). -/
def Obligations.RecoveryResynchronises : Prop :=
  ∀ (s t : State) (w : Word) (r : DataReason), s.bufWf = true → t = s.withPending (s.dataAt w r) →
    ∃ u, step t = .next u ∧ u.out = s.out ++ [s.dataAt w r] ∧ u.cursor = s.cursor + 1 ∧ u.pending = none ∧
      u.phase = .scanning ∧
      (s.cursor + 1 < s.nWords → ∃ q, decodeAt s (s.cursor + 1) = some q ∧ step u = .next (u.withPending q))

/-! ### The Driver -/

/-- A step with STATE = Scanning runs the instruction the decoder reads from the bytes at the cursor, and gives the DATA
record where the decoder knows none (R37, R97, R107). -/
def Obligations.StepRunsTheDecodedInstruction : Prop :=
  ∀ (s : State) (hi lo : Byte) (rest : List Byte), s.phase = .scanning →
    s.byte? (2 * s.cursor) = some hi → s.byte? (2 * s.cursor + 1) = some lo →
    (∀ (i : Instr) (rest' : List Byte), decode s.bsrSlot (hi :: lo :: rest) = .ok (i, rest') → step s = exec i s) ∧
    (∀ e, decode s.bsrSlot (hi :: lo :: rest) = .error e →
      step s = .next (s.withPending (s.dataAt (hi ++ lo) .unclassifiedOpcode)))

/-- SCAN-END, and that EndOfBuffer is terminal (R36). -/
def Obligations.ScanEndStep : Prop :=
  (∀ (s : State), s.phase = .scanning → s.nWords ≤ s.cursor → step s = .next { s with phase := .endOfBuffer }) ∧
  (∀ (s t : State), s.phase = .endOfBuffer → step s ≠ .next t)

/-- SCAN-DECODE, and that a decode at Word `c` reads only Words `c .. N-1` (R37). -/
def Obligations.ScanDecodeStep : Prop :=
  (∀ (s : State) (r : Instruction), s.phase = .scanning → s.cursor < s.nWords → decodeAt s s.cursor = some r →
    step s = .next { s with pending := some r, phase := .emittingInstruction }) ∧
  (∀ (s s' : State) (c : Nat), s.len = s'.len → s.base = s'.base → s.bsrSlot = s'.bsrSlot →
    (∀ off, 2 * c ≤ off → s.byte? off = s'.byte? off) → decodeAt s c = decodeAt s' c)

/-- EMIT (R38): the next decode starts where the record ends, whatever the record is (R40). -/
def Obligations.EmitStep : Prop :=
  ∀ (s : State) (r : Instruction), s.phase = .emittingInstruction → s.pending = some r →
    step s = .next
      { s with out := s.out ++ [r], cursor := s.cursor + r.lengthInWords, pending := none, phase := .scanning }

/-- "No step is enabled in either state", and in every other state of a run one is, and it is the only one (R39). -/
def Obligations.FinalStates : Prop :=
  (∀ (s t : State), s.phase = .endOfBuffer ∨ s.phase = .rejected → step s ≠ .next t) ∧
  (∀ (s : State), s.Inv → s.phase ≠ .endOfBuffer → s.phase ≠ .rejected → ∃ t, step s = .next t)

/-- START: the registers it writes, for an even and for an odd length, from any state; an odd length ends the run with no
record and no step (R35, R147). -/
def Obligations.StartCommand : Prop :=
  (∀ (s : State) (bytes : List Byte) (base : Addr), ∃ t, hostMove (.start bytes base) s = .next t ∧
    (∀ off, t.byte? off = bytes[off]?) ∧ t.bufWf = true ∧ t.len = bytes.length ∧ t.base = base ∧ t.cursor = 0 ∧
    t.pending = none ∧ t.out = [] ∧ t.bsrSlot = s.bsrSlot ∧
    (bytes.length % 2 = 1 → t.phase = .rejected ∧ ∀ u, step t ≠ .next u) ∧
    (bytes.length % 2 = 0 → t.phase = .scanning)) ∧
  (∀ (s s' : State) (bytes : List Byte) (base : Addr), s.bsrSlot = s'.bsrSlot →
    hostMove (.start bytes base) s = hostMove (.start bytes base) s')

/-- "No rule of this spec writes `BUF`": no step and no instruction changes a byte of it (R46). -/
def Obligations.BufferIsReadOnly : Prop :=
  ∀ (s t : State), (step s = .next t ∨ ∃ i, exec i s = .next t) →
    t.buf = s.buf ∧ t.len = s.len ∧ ∀ off, t.byte? off = s.byte? off

/-- The "written by" column of the Driver's registers, for its steps (R33): BASE and BSR_SLOT never, PENDING and STATE by
SCAN-DECODE, STATE alone by SCAN-END, CURSOR and OUT by EMIT alone; so OUT is append-only, its records are never changed,
and the cursor only ever increases (R32, R34). -/
def Obligations.RegistersWrittenBySteps : Prop :=
  ∀ (s t : State), step s = .next t →
    t.base = s.base ∧ t.bsrSlot = s.bsrSlot ∧
    (s.phase = .scanning → t.cursor = s.cursor ∧ t.out = s.out ∧
      (t.phase = .endOfBuffer ∧ t.pending = s.pending ∨ t.phase = .emittingInstruction ∧ t.pending.isSome = true)) ∧
    (s.phase = .emittingInstruction → t.phase = .scanning ∧ t.pending = none ∧
      ∃ r, s.pending = some r ∧ t.out = s.out ++ [r] ∧ t.cursor = s.cursor + r.lengthInWords) ∧
    s.out <+: t.out ∧ s.cursor ≤ t.cursor ∧ ∀ (j : Nat) (r : Instruction), s.out[j]? = some r → t.out[j]? = some r

/-- The state after reset, the model's choice (log 1): it is the state a START of the empty buffer at address 0 leaves, with
the default BSR_SLOT. -/
def Obligations.ResetIsAnEmptyStart : Prop :=
  State.reset.buf = [] ∧ State.reset.len = 0 ∧ State.reset.base = 0#32 ∧ State.reset.phase = .scanning ∧
  State.reset.cursor = 0 ∧ State.reset.pending = none ∧ State.reset.out = [] ∧ State.reset.bsrSlot = .data ∧
  (∀ s : State, s.bsrSlot = .data → hostMove (.start [] 0#32) s = .next State.reset)

/-- Storing a table word at the cursor (`withFetchWord`, the model's stand-in for a START, log 8) makes the next step run
the instruction the classifier reads from its first Word, with the table's Words in place. -/
def Obligations.FetchWordRuns : Prop :=
  ∀ (s : State) (nbits w : Nat),
    (s.withFetchWord nbits w).holdsAt s.cursor (tableWords nbits w) ∧
    (∀ i : Instr, classify s.bsrSlot (BitVec.ofNat 16 (w % 2 ^ nbits)) = some i →
      step (s.withFetchWord nbits w) = exec i (s.withFetchWord nbits w) ∧
      (s.bsrSlot = .data → decodeTableWord nbits w = some i))

/-! ### Runs -/

/-- The invariant holds at reset (a state the model chose, log 1). -/
def Obligations.InvAtReset : Prop := State.reset.Inv

/-- The invariant holds after every START. -/
def Obligations.InvAfterStart : Prop :=
  ∀ (s : State) (bytes : List Byte) (base : Addr), (s.start bytes base).Inv

/-- Every step keeps the invariant (R41, and the state R35 to R38 describe). -/
def Obligations.InvKeptByStep : Prop :=
  ∀ (s t : State), s.Inv → step s = .next t → t.Inv

/-- Under the invariant the lengths of OUT sum to the cursor, at most N and equal to `L/2` at the end, and each record is
the decode at the Word where the one before it ends, with that Word's address (R41, R42). -/
def Obligations.RecordsCoverTheBuffer : Prop :=
  ∀ (s : State), s.Inv →
    sumLengths s.out = s.cursor ∧ s.cursor ≤ s.nWords ∧ (s.phase = .endOfBuffer → sumLengths s.out = s.len / 2) ∧
    ∀ (before after : List Instruction) (r : Instruction), s.out = before ++ r :: after →
      decodeAt s (sumLengths before) = some r ∧
      r.address = BitVec.ofNat 32 (s.base.toNat + 2 * sumLengths before)

/-- No reachable state is stuck, faults or refuses: a step is enabled in each that is not final (R148). -/
def Obligations.NoReachableStateFails : Prop :=
  ∀ (s : State), Reachable s → (s.final ∧ ∀ f, step s ≠ .fault f) ∨ (¬ s.final ∧ ∃ t, step s = .next t ∧ Reachable t)

/-- Every run of an even buffer ends within `2N + 1` transitions, in EndOfBuffer with the lengths of its records summing to
`L/2`, and no run is longer (R41, R148, R170). -/
def Obligations.EveryRunEnds : Prop :=
  ∀ (s : State) (bytes : List Byte) (base : Addr), bytes.length % 2 = 0 →
    (∃ (k : Nat) (t : State), k ≤ 2 * (bytes.length / 2) + 1 ∧
      Host.Core.run Sys2Proof.core k (s.start bytes base) = .next t ∧ t.phase = .endOfBuffer ∧
      t.cursor = bytes.length / 2 ∧ sumLengths t.out = bytes.length / 2) ∧
    (∀ (k : Nat) (t : State), Host.Core.run Sys2Proof.core k (s.start bytes base) = .next t →
      k ≤ 2 * (bytes.length / 2) + 1)

/-- "a second instance run on Words `b..N-1` with base `BASE + 2b` emits the same records as the whole run does from `b`
on", where the whole run puts a record boundary at `b` (R160). -/
def Obligations.SegmentRunAgrees : Prop :=
  ∀ (s s' : State) (bytes : List Byte) (base : Addr) (k m n : Nat) (t u v : State),
    bytes.length % 2 = 0 → s'.bsrSlot = s.bsrSlot →
    Host.Core.run Sys2Proof.core k (s.start bytes base) = .next t → t.phase = .scanning →
    Host.Core.run Sys2Proof.core m (s.start bytes base) = .next u → u.phase = .endOfBuffer →
    Host.Core.run Sys2Proof.core n
      (s'.start (bytes.drop (2 * t.cursor)) (base + BitVec.ofNat 32 (2 * t.cursor))) = .next v →
    v.phase = .endOfBuffer → u.out = t.out ++ v.out

end
end

