-- ==== Sys2Proof/Laws/Bits.lean ====
section
/-! SUPPORT. What the bit-field helpers compute, as numbers and as fields of a concatenation. -/

namespace Sys2Proof

open Machine

theorem bfx_toNat (w : Word) (hi lo : Nat) : (bfx w hi lo).toNat = w.toNat / 2 ^ lo % 2 ^ (hi - lo + 1) := by
  simp [bfx, BitVec.extractLsb, BitVec.extractLsb'_toNat, Nat.shiftRight_eq_div_pow]

theorem lowByte_toNat (w : Word) : (lowByte w).toNat = w.toNat % 256 := by
  have h := bfx_toNat w 7 0
  simpa [lowByte] using h

theorem wordOfBytes_toNat (hi lo : Byte) : (wordOfBytes hi lo).toNat = hi.toNat * 256 + lo.toNat := by
  have h := lo.isLt
  simp only [wordOfBytes, BitVec.toNat_append, Nat.shiftLeft_eq]
  rw [Nat.mul_comm, ← Nat.two_pow_add_eq_or_of_lt h, Nat.mul_comm]

theorem longOfWords_toNat (h l : Word) : (longOfWords h l).toNat = h.toNat * 65536 + l.toNat := by
  have hl := l.isLt
  simp only [longOfWords, BitVec.toNat_append, Nat.shiftLeft_eq]
  rw [Nat.mul_comm, ← Nat.two_pow_add_eq_or_of_lt hl, Nat.mul_comm]

theorem bytesOfWord_wordOfBytes (hi lo : Byte) : bytesOfWord (wordOfBytes hi lo) = [hi, lo] := by
  simp only [bytesOfWord, wordOfBytes, bfx, List.cons.injEq, and_true]
  constructor <;> apply BitVec.eq_of_getLsbD_eq <;> intro i hi
  · simp only [BitVec.getLsbD_extractLsb, BitVec.getLsbD_append]
    simp [show i < 8 by omega]
  · simp only [BitVec.getLsbD_extractLsb, BitVec.getLsbD_append]
    simp [show i < 8 by omega]

theorem wordOfBytes_of_bytesOfWord (w : Word) : wordOfBytes (bfx w 15 8) (bfx w 7 0) = w := by
  apply BitVec.eq_of_getLsbD_eq
  intro i hi
  simp only [wordOfBytes, bfx, BitVec.getLsbD_append, BitVec.getLsbD_extractLsb]
  interval_cases i <;> simp

/-- The reported address as the statements write it. -/
theorem mod32_natCast (n : Nat) : mod32 (n : Int) = BitVec.ofNat 32 n := by
  simp [mod32]

/-! ### The brief extension Word -/

/-- A Word is its five brief fields in their places (R87). -/
theorem brief_split (e : Word) :
    e = BitVec.ofBool (bitAt e 15) ++ (bfx e 14 12 : Field3) ++ BitVec.ofBool (bitAt e 11) ++
      (bfx e 10 8 : Field3) ++ lowByte e := by
  apply BitVec.eq_of_getLsbD_eq
  intro i hi
  simp only [bitAt, bfx, lowByte, BitVec.getLsbD_append, BitVec.getLsbD_extractLsb, BitVec.getLsbD_ofBool]
  interval_cases i <;> simp

/-- "the block treats `e[8] = 1` and `e[10:9] != 00` as outside its subset": what is left has bits 10:8 zero (R87). -/
theorem briefUnsupported_eq_false {e : Word} : briefUnsupported e = false ↔ (bfx e 10 8 : Field3) = 0#3 := by
  simp only [briefUnsupported, Bool.or_eq_false_iff, bne_eq_false_iff_eq]
  constructor
  · rintro ⟨h8, h9⟩
    have h0 := congrArg (fun b => BitVec.getLsbD b 0) h9
    have h1 := congrArg (fun b => BitVec.getLsbD b 1) h9
    apply BitVec.eq_of_getLsbD_eq
    intro i hi
    simp [bfx, bitAt] at h0 h1 h8 ⊢
    interval_cases i <;> simp_all
  · intro h
    have h0 := congrArg (fun b => BitVec.getLsbD b 0) h
    have h1 := congrArg (fun b => BitVec.getLsbD b 1) h
    have h2 := congrArg (fun b => BitVec.getLsbD b 2) h
    refine ⟨by simpa [bfx, bitAt] using h0, ?_⟩
    apply BitVec.eq_of_getLsbD_eq
    intro i hi
    simp [bfx] at h1 h2 ⊢
    interval_cases i <;> simp_all

/-- The fields of a brief Word that is written out. -/
theorem brief_fields (a l : Bool) (r : Field3) (d : Byte) (e : Word)
    (he : e = BitVec.ofBool a ++ r ++ BitVec.ofBool l ++ 0b000#3 ++ d) :
    bitAt e 15 = a ∧ (bfx e 14 12 : Field3) = r ∧ bitAt e 11 = l ∧ (bfx e 10 8 : Field3) = 0#3 ∧ lowByte e = d := by
  subst he
  refine ⟨?_, ?_, ?_, ?_, ?_⟩
  · simp only [bitAt, BitVec.getLsbD_append, BitVec.getLsbD_ofBool]
    simp
  · apply BitVec.eq_of_getLsbD_eq
    intro i hi
    simp only [bfx, BitVec.getLsbD_append, BitVec.getLsbD_extractLsb, BitVec.getLsbD_ofBool]
    interval_cases i <;> simp
  · simp only [bitAt, BitVec.getLsbD_append, BitVec.getLsbD_ofBool]
    simp
  · apply BitVec.eq_of_getLsbD_eq
    intro i hi
    simp only [bfx, BitVec.getLsbD_append, BitVec.getLsbD_extractLsb, BitVec.getLsbD_ofBool]
    interval_cases i <;> simp
  · apply BitVec.eq_of_getLsbD_eq
    intro i hi
    simp only [lowByte, bfx, BitVec.getLsbD_append, BitVec.getLsbD_extractLsb, BitVec.getLsbD_ofBool]
    simp [hi]

end Sys2Proof
end

