-- ==== Sys2Proof/Laws/Fields.lean ====
section
/-! SUPPORT. An opcode Word as its five named fields, the encoding formats in that shape, and the mask tests of the
classifier table read field by field. -/

namespace Sys2Proof

/-- A Word from its class, register, opmode, EA mode and EA register fields (R65). -/
def pack (c : BitVec 4) (r o m x : Field3) : Word := c ++ r ++ o ++ m ++ x

section
variable (c : BitVec 4) (r o m x : Field3)

@[simp] theorem classField_pack : classField (pack c r o m x) = c := by
  apply BitVec.eq_of_getLsbD_eq
  intro i hi
  simp only [classField, bfx, pack, BitVec.getLsbD_append, BitVec.getLsbD_extractLsb]
  interval_cases i <;> simp

@[simp] theorem regField_pack : regField (pack c r o m x) = r := by
  apply BitVec.eq_of_getLsbD_eq
  intro i hi
  simp only [regField, bfx, pack, BitVec.getLsbD_append, BitVec.getLsbD_extractLsb]
  interval_cases i <;> simp

@[simp] theorem opmodeField_pack : opmodeField (pack c r o m x) = o := by
  apply BitVec.eq_of_getLsbD_eq
  intro i hi
  simp only [opmodeField, bfx, pack, BitVec.getLsbD_append, BitVec.getLsbD_extractLsb]
  interval_cases i <;> simp

@[simp] theorem eaModeField_pack : eaModeField (pack c r o m x) = m := by
  apply BitVec.eq_of_getLsbD_eq
  intro i hi
  simp only [eaModeField, bfx, pack, BitVec.getLsbD_append, BitVec.getLsbD_extractLsb]
  interval_cases i <;> simp

@[simp] theorem eaRegField_pack : eaRegField (pack c r o m x) = x := by
  apply BitVec.eq_of_getLsbD_eq
  intro i hi
  simp only [eaRegField, bfx, pack, BitVec.getLsbD_append, BitVec.getLsbD_extractLsb]
  interval_cases i <;> simp

end

/-- A Word is its five fields in their places. -/
theorem pack_fields (w : Word) :
    pack (classField w) (regField w) (opmodeField w) (eaModeField w) (eaRegField w) = w := by
  apply BitVec.eq_of_getLsbD_eq
  intro i hi
  simp only [classField, regField, opmodeField, eaModeField, eaRegField, bfx, pack, BitVec.getLsbD_append,
    BitVec.getLsbD_extractLsb]
  interval_cases i <;> simp

/-- Two Words with the same five fields are equal. -/
theorem word_eq_iff_fields (w v : Word) :
    w = v ↔ classField w = classField v ∧ regField w = regField v ∧ opmodeField w = opmodeField v ∧
      eaModeField w = eaModeField v ∧ eaRegField w = eaRegField v := by
  constructor
  · rintro rfl
    simp
  · rintro ⟨h1, h2, h3, h4, h5⟩
    rw [← pack_fields w, ← pack_fields v, h1, h2, h3, h4, h5]

@[simp] theorem classField_and (w v : Word) : classField (w &&& v) = classField w &&& classField v := by
  apply BitVec.eq_of_getLsbD_eq
  intro i hi
  simp only [classField, bfx, BitVec.getLsbD_and, BitVec.getLsbD_extractLsb]
  simp [hi]

@[simp] theorem regField_and (w v : Word) : regField (w &&& v) = regField w &&& regField v := by
  apply BitVec.eq_of_getLsbD_eq
  intro i hi
  simp only [regField, bfx, BitVec.getLsbD_and, BitVec.getLsbD_extractLsb]
  simp [hi]

@[simp] theorem opmodeField_and (w v : Word) : opmodeField (w &&& v) = opmodeField w &&& opmodeField v := by
  apply BitVec.eq_of_getLsbD_eq
  intro i hi
  simp only [opmodeField, bfx, BitVec.getLsbD_and, BitVec.getLsbD_extractLsb]
  simp [hi]

@[simp] theorem eaModeField_and (w v : Word) : eaModeField (w &&& v) = eaModeField w &&& eaModeField v := by
  apply BitVec.eq_of_getLsbD_eq
  intro i hi
  simp only [eaModeField, bfx, BitVec.getLsbD_and, BitVec.getLsbD_extractLsb]
  simp [hi]

@[simp] theorem eaRegField_and (w v : Word) : eaRegField (w &&& v) = eaRegField w &&& eaRegField v := by
  apply BitVec.eq_of_getLsbD_eq
  intro i hi
  simp only [eaRegField, bfx, BitVec.getLsbD_and, BitVec.getLsbD_extractLsb]
  simp [hi]

/-- A mask test, field by field. -/
theorem mask_iff_fields (w mask pattern : Word) :
    w &&& mask = pattern ↔
      classField w &&& classField mask = classField pattern ∧ regField w &&& regField mask = regField pattern ∧
      opmodeField w &&& opmodeField mask = opmodeField pattern ∧
      eaModeField w &&& eaModeField mask = eaModeField pattern ∧
      eaRegField w &&& eaRegField mask = eaRegField pattern := by
  rw [word_eq_iff_fields]
  simp

/-! ### The other fields of the formats, from the five -/

theorem sizeField_eq (w : Word) : sizeField w = (opmodeField w).extractLsb' 0 2 := by
  apply BitVec.eq_of_getLsbD_eq
  intro i hi
  simp only [sizeField, opmodeField, bfx, BitVec.getLsbD_extractLsb, BitVec.getLsbD_extractLsb']
  interval_cases i <;> simp

theorem moveSizeField_eq (w : Word) : moveSizeField w = (classField w).extractLsb' 0 2 := by
  apply BitVec.eq_of_getLsbD_eq
  intro i hi
  simp only [moveSizeField, classField, bfx, BitVec.getLsbD_extractLsb, BitVec.getLsbD_extractLsb']
  interval_cases i <;> simp

theorem memTypeField_eq (w : Word) : bfx w 10 9 = (regField w).extractLsb' 0 2 := by
  apply BitVec.eq_of_getLsbD_eq
  intro i hi
  simp only [regField, bfx, BitVec.getLsbD_extractLsb, BitVec.getLsbD_extractLsb']
  interval_cases i <;> simp

theorem regTypeField_eq (w : Word) : bfx w 4 3 = (eaModeField w).extractLsb' 0 2 := by
  apply BitVec.eq_of_getLsbD_eq
  intro i hi
  simp only [eaModeField, bfx, BitVec.getLsbD_extractLsb, BitVec.getLsbD_extractLsb']
  interval_cases i <;> simp

theorem bitAt_8_eq (w : Word) : bitAt w 8 = (opmodeField w).getLsbD 2 := by
  simp [bitAt, opmodeField, bfx]

theorem bitAt_6_eq (w : Word) : bitAt w 6 = (opmodeField w).getLsbD 0 := by
  simp [bitAt, opmodeField, bfx]

theorem bitAt_5_eq (w : Word) : bitAt w 5 = (eaModeField w).getLsbD 2 := by
  simp [bitAt, eaModeField, bfx]

theorem condField_eq (w : Word) : condField w = regField w ++ (opmodeField w).extractLsb' 2 1 := by
  apply BitVec.eq_of_getLsbD_eq
  intro i hi
  simp only [condField, regField, opmodeField, bfx, BitVec.getLsbD_extractLsb, BitVec.getLsbD_extractLsb',
    BitVec.getLsbD_append]
  interval_cases i <;> simp

theorem lowByte_eq (w : Word) : lowByte w = (opmodeField w).extractLsb' 0 2 ++ eaModeField w ++ eaRegField w := by
  apply BitVec.eq_of_getLsbD_eq
  intro i hi
  simp only [lowByte, opmodeField, eaModeField, eaRegField, bfx, BitVec.getLsbD_extractLsb,
    BitVec.getLsbD_extractLsb', BitVec.getLsbD_append]
  interval_cases i <;> simp

/-! ### The formats as five fields (R66 to R77) -/

theorem fmtMove_pack (size : BitVec 2) (dr dm : Field3) (src : Ea) :
    fmtMove size dr dm src = pack (0b00#2 ++ size) dr dm src.modeCode src.regCode := by
  apply BitVec.eq_of_getLsbD_eq
  intro i hi
  simp only [fmtMove, pack, BitVec.getLsbD_append]

theorem fmtMovem_pack (dr : BitVec 1) (size : WordOrLong) (ea : Ea) :
    fmtMovem dr size ea =
      pack 0b0100#4 (0b1#1 ++ dr ++ 0b0#1) (0b01#2 ++ size.bitCode) ea.modeCode ea.regCode := by
  apply BitVec.eq_of_getLsbD_eq
  intro i hi
  simp only [fmtMovem, pack, BitVec.getLsbD_append]
  interval_cases i <;> simp

theorem fmtRoe_pack (cls : BitVec 4) (reg : Field3) (dir : BitVec 1) (size : BitVec 2) (ea : Ea) :
    fmtRoe cls reg dir size ea = pack cls reg (dir ++ size) ea.modeCode ea.regCode := by
  apply BitVec.eq_of_getLsbD_eq
  intro i hi
  simp only [fmtRoe, pack, BitVec.getLsbD_append]
  interval_cases i <;> simp

theorem fmtQuick_pack (data : Field3) (size : OperandSize) (ea : Ea) :
    fmtQuick data size ea = pack 0b0101#4 data (0b1#1 ++ size.stdCode) ea.modeCode ea.regCode := by
  apply BitVec.eq_of_getLsbD_eq
  intro i hi
  simp only [fmtQuick, pack, BitVec.getLsbD_append]
  interval_cases i <;> simp

theorem fmtSizeEa_pack (fixed : Byte) (size : OperandSize) (ea : Ea) :
    fmtSizeEa fixed size ea =
      pack (fixed.extractLsb' 4 4) (fixed.extractLsb' 1 3) (fixed.extractLsb' 0 1 ++ size.stdCode)
        ea.modeCode ea.regCode := by
  apply BitVec.eq_of_getLsbD_eq
  intro i hi
  simp only [fmtSizeEa, pack, BitVec.getLsbD_append, BitVec.getLsbD_extractLsb']
  interval_cases i <;> simp

theorem fmtEa_pack (fixed : BitVec 10) (ea : Ea) :
    fmtEa fixed ea =
      pack (fixed.extractLsb' 6 4) (fixed.extractLsb' 3 3) (fixed.extractLsb' 0 3) ea.modeCode ea.regCode := by
  apply BitVec.eq_of_getLsbD_eq
  intro i hi
  simp only [fmtEa, pack, BitVec.getLsbD_append, BitVec.getLsbD_extractLsb']
  interval_cases i <;> simp

theorem fmtRegEa_pack (cls : BitVec 4) (reg : Field3) (ea : Ea) :
    fmtRegEa cls reg ea = pack cls reg 0b111#3 ea.modeCode ea.regCode := rfl

theorem fmtShr_pack (op : ShiftOp) (size : OperandSize) (count : ShiftCount) (dy : Field3) :
    fmtShr op size count dy =
      pack 0b1110#4 count.field (op.dirCode ++ size.stdCode) (count.irCode ++ op.typeCode) dy := by
  apply BitVec.eq_of_getLsbD_eq
  intro i hi
  simp only [fmtShr, pack, BitVec.getLsbD_append]
  interval_cases i <;> simp

theorem fmtShm_pack (op : ShiftOp) (ea : Ea) :
    fmtShm op ea = pack 0b1110#4 (0b0#1 ++ op.typeCode) (op.dirCode ++ 0b11#2) ea.modeCode ea.regCode := by
  apply BitVec.eq_of_getLsbD_eq
  intro i hi
  simp only [fmtShm, pack, BitVec.getLsbD_append]
  interval_cases i <;> simp

theorem fmtBr_pack (cond : BitVec 4) (d : Byte) :
    fmtBr cond d =
      pack 0b0110#4 (cond.extractLsb' 1 3) (cond.extractLsb' 0 1 ++ d.extractLsb' 6 2) (d.extractLsb' 3 3)
        (d.extractLsb' 0 3) := by
  apply BitVec.eq_of_getLsbD_eq
  intro i hi
  simp only [fmtBr, pack, BitVec.getLsbD_append, BitVec.getLsbD_extractLsb']
  interval_cases i <;> simp

theorem rts_pack : (0x4E75#16 : Word) = pack 0b0100#4 0b111#3 0b001#3 0b110#3 0b101#3 := by decide

/-! ### The EA field and its codes (R83) -/

/-- Every EA field is named by its own codes. -/
theorem Ea.ofFields_codes (ea : Ea) : Ea.ofFields ea.modeCode ea.regCode = ea := by
  cases ea with
  | reserved r => cases r <;> rfl
  | _ => rfl

/-- Every (mode, register) pair names one EA field, whose codes it is. -/
theorem Ea.codes_ofFields (m x : Field3) :
    (Ea.ofFields m x).modeCode = m ∧ (Ea.ofFields m x).regCode = x := by
  revert m x
  decide

@[simp] theorem eaField_pack (c : BitVec 4) (r o : Field3) (ea : Ea) :
    eaField (pack c r o ea.modeCode ea.regCode) = ea := by
  simp [eaField, Ea.ofFields_codes]

@[simp] theorem dstField_pack (c : BitVec 4) (m x : Field3) (ea : Ea) :
    dstField (pack c ea.regCode ea.modeCode m x) = ea := by
  simp [dstField, Ea.ofFields_codes]

end Sys2Proof
end

