-- ==== Sys2Proof/Laws/PerInstr.lean ====
section
/-! SUPPORT. The family FormMatches: every instruction's Word passes the mask test of its form's row of the classifier
table, whatever its operands (R95 against the formats R66 to R78). -/

set_option linter.unusedSimpArgs false

namespace Sys2Proof.Laws.FormMatches

open Sys2Proof

/-- `(w AND mask) = match` of the form's row holds of the Word the format builds. -/
def Statement (i : Instr) : Prop := encode i &&& i.form.mask = i.form.pattern

/-- A field masked by all ones is itself. -/
theorem and_ones3 (c : Field3) : c &&& 7#3 = c := by
  revert c
  decide

theorem move (size : OperandSize) (src : Ea) (dst : Ea) : Statement (.move size src dst) := by
  show encode _ &&& Form.mask _ = Form.pattern _
  simp only [encode, fmtMove_pack, mask_iff_fields, classField_pack, regField_pack, opmodeField_pack, eaModeField_pack,
    eaRegField_pack]
  cases size <;> refine ⟨?_, ?_, ?_, ?_, ?_⟩ <;>
    simp [Instr.form, Form.mask, Form.pattern, classField, regField, opmodeField, eaModeField, eaRegField, bfx, and_ones3,
      OperandSize.moveCode, OperandSize.stdCode, WordOrLong.bitCode, WordOrLong.toSize, ShiftOp.typeCode, ShiftOp.dirCode]

theorem movea (size : WordOrLong) (src : Ea) (an : Field3) : Statement (.movea size src an) := by
  show encode _ &&& Form.mask _ = Form.pattern _
  simp only [encode, fmtMove_pack, mask_iff_fields, classField_pack, regField_pack, opmodeField_pack, eaModeField_pack,
    eaRegField_pack]
  cases size <;> refine ⟨?_, ?_, ?_, ?_, ?_⟩ <;>
    simp [Instr.form, Form.mask, Form.pattern, classField, regField, opmodeField, eaModeField, eaRegField, bfx, and_ones3,
      OperandSize.moveCode, OperandSize.stdCode, WordOrLong.bitCode, WordOrLong.toSize, ShiftOp.typeCode, ShiftOp.dirCode]

theorem movemR2M (size : WordOrLong) (ea : Ea) : Statement (.movemR2M size ea) := by
  show encode _ &&& Form.mask _ = Form.pattern _
  simp only [encode, fmtMovem_pack, mask_iff_fields, classField_pack, regField_pack, opmodeField_pack, eaModeField_pack,
    eaRegField_pack]
  cases size <;> refine ⟨?_, ?_, ?_, ?_, ?_⟩ <;>
    simp [Instr.form, Form.mask, Form.pattern, classField, regField, opmodeField, eaModeField, eaRegField, bfx, and_ones3,
      OperandSize.moveCode, OperandSize.stdCode, WordOrLong.bitCode, WordOrLong.toSize, ShiftOp.typeCode, ShiftOp.dirCode]

theorem movemM2R (size : WordOrLong) (ea : Ea) : Statement (.movemM2R size ea) := by
  show encode _ &&& Form.mask _ = Form.pattern _
  simp only [encode, fmtMovem_pack, mask_iff_fields, classField_pack, regField_pack, opmodeField_pack, eaModeField_pack,
    eaRegField_pack]
  cases size <;> refine ⟨?_, ?_, ?_, ?_, ?_⟩ <;>
    simp [Instr.form, Form.mask, Form.pattern, classField, regField, opmodeField, eaModeField, eaRegField, bfx, and_ones3,
      OperandSize.moveCode, OperandSize.stdCode, WordOrLong.bitCode, WordOrLong.toSize, ShiftOp.typeCode, ShiftOp.dirCode]

theorem addToDn (size : OperandSize) (dn : Field3) (ea : Ea) : Statement (.addToDn size dn ea) := by
  show encode _ &&& Form.mask _ = Form.pattern _
  simp only [encode, fmtRoe_pack, mask_iff_fields, classField_pack, regField_pack, opmodeField_pack, eaModeField_pack,
    eaRegField_pack]
  cases size <;> refine ⟨?_, ?_, ?_, ?_, ?_⟩ <;>
    simp [Instr.form, Form.mask, Form.pattern, classField, regField, opmodeField, eaModeField, eaRegField, bfx, and_ones3,
      OperandSize.moveCode, OperandSize.stdCode, WordOrLong.bitCode, WordOrLong.toSize, ShiftOp.typeCode, ShiftOp.dirCode]

theorem addToEa (size : OperandSize) (dn : Field3) (ea : Ea) : Statement (.addToEa size dn ea) := by
  show encode _ &&& Form.mask _ = Form.pattern _
  simp only [encode, fmtRoe_pack, mask_iff_fields, classField_pack, regField_pack, opmodeField_pack, eaModeField_pack,
    eaRegField_pack]
  cases size <;> refine ⟨?_, ?_, ?_, ?_, ?_⟩ <;>
    simp [Instr.form, Form.mask, Form.pattern, classField, regField, opmodeField, eaModeField, eaRegField, bfx, and_ones3,
      OperandSize.moveCode, OperandSize.stdCode, WordOrLong.bitCode, WordOrLong.toSize, ShiftOp.typeCode, ShiftOp.dirCode]

theorem adda (size : WordOrLong) (an : Field3) (ea : Ea) : Statement (.adda size an ea) := by
  show encode _ &&& Form.mask _ = Form.pattern _
  simp only [encode, fmtRoe_pack, mask_iff_fields, classField_pack, regField_pack, opmodeField_pack, eaModeField_pack,
    eaRegField_pack]
  cases size <;> refine ⟨?_, ?_, ?_, ?_, ?_⟩ <;>
    simp [Instr.form, Form.mask, Form.pattern, classField, regField, opmodeField, eaModeField, eaRegField, bfx, and_ones3,
      OperandSize.moveCode, OperandSize.stdCode, WordOrLong.bitCode, WordOrLong.toSize, ShiftOp.typeCode, ShiftOp.dirCode]

theorem subToDn (size : OperandSize) (dn : Field3) (ea : Ea) : Statement (.subToDn size dn ea) := by
  show encode _ &&& Form.mask _ = Form.pattern _
  simp only [encode, fmtRoe_pack, mask_iff_fields, classField_pack, regField_pack, opmodeField_pack, eaModeField_pack,
    eaRegField_pack]
  cases size <;> refine ⟨?_, ?_, ?_, ?_, ?_⟩ <;>
    simp [Instr.form, Form.mask, Form.pattern, classField, regField, opmodeField, eaModeField, eaRegField, bfx, and_ones3,
      OperandSize.moveCode, OperandSize.stdCode, WordOrLong.bitCode, WordOrLong.toSize, ShiftOp.typeCode, ShiftOp.dirCode]

theorem subToEa (size : OperandSize) (dn : Field3) (ea : Ea) : Statement (.subToEa size dn ea) := by
  show encode _ &&& Form.mask _ = Form.pattern _
  simp only [encode, fmtRoe_pack, mask_iff_fields, classField_pack, regField_pack, opmodeField_pack, eaModeField_pack,
    eaRegField_pack]
  cases size <;> refine ⟨?_, ?_, ?_, ?_, ?_⟩ <;>
    simp [Instr.form, Form.mask, Form.pattern, classField, regField, opmodeField, eaModeField, eaRegField, bfx, and_ones3,
      OperandSize.moveCode, OperandSize.stdCode, WordOrLong.bitCode, WordOrLong.toSize, ShiftOp.typeCode, ShiftOp.dirCode]

theorem subq (size : OperandSize) (data : Field3) (ea : Ea) : Statement (.subq size data ea) := by
  show encode _ &&& Form.mask _ = Form.pattern _
  simp only [encode, fmtQuick_pack, mask_iff_fields, classField_pack, regField_pack, opmodeField_pack, eaModeField_pack,
    eaRegField_pack]
  cases size <;> refine ⟨?_, ?_, ?_, ?_, ?_⟩ <;>
    simp [Instr.form, Form.mask, Form.pattern, classField, regField, opmodeField, eaModeField, eaRegField, bfx, and_ones3,
      OperandSize.moveCode, OperandSize.stdCode, WordOrLong.bitCode, WordOrLong.toSize, ShiftOp.typeCode, ShiftOp.dirCode]

theorem muls (dn : Field3) (ea : Ea) : Statement (.muls dn ea) := by
  show encode _ &&& Form.mask _ = Form.pattern _
  simp only [encode, fmtRegEa_pack, mask_iff_fields, classField_pack, regField_pack, opmodeField_pack, eaModeField_pack,
    eaRegField_pack]
  refine ⟨?_, ?_, ?_, ?_, ?_⟩ <;>
    simp [Instr.form, Form.mask, Form.pattern, classField, regField, opmodeField, eaModeField, eaRegField, bfx, and_ones3,
      OperandSize.moveCode, OperandSize.stdCode, WordOrLong.bitCode, WordOrLong.toSize, ShiftOp.typeCode, ShiftOp.dirCode]

theorem divs (dn : Field3) (ea : Ea) : Statement (.divs dn ea) := by
  show encode _ &&& Form.mask _ = Form.pattern _
  simp only [encode, fmtRegEa_pack, mask_iff_fields, classField_pack, regField_pack, opmodeField_pack, eaModeField_pack,
    eaRegField_pack]
  refine ⟨?_, ?_, ?_, ?_, ?_⟩ <;>
    simp [Instr.form, Form.mask, Form.pattern, classField, regField, opmodeField, eaModeField, eaRegField, bfx, and_ones3,
      OperandSize.moveCode, OperandSize.stdCode, WordOrLong.bitCode, WordOrLong.toSize, ShiftOp.typeCode, ShiftOp.dirCode]

theorem lea (an : Field3) (ea : Ea) : Statement (.lea an ea) := by
  show encode _ &&& Form.mask _ = Form.pattern _
  simp only [encode, fmtRegEa_pack, mask_iff_fields, classField_pack, regField_pack, opmodeField_pack, eaModeField_pack,
    eaRegField_pack]
  refine ⟨?_, ?_, ?_, ?_, ?_⟩ <;>
    simp [Instr.form, Form.mask, Form.pattern, classField, regField, opmodeField, eaModeField, eaRegField, bfx, and_ones3,
      OperandSize.moveCode, OperandSize.stdCode, WordOrLong.bitCode, WordOrLong.toSize, ShiftOp.typeCode, ShiftOp.dirCode]

theorem orToDn (size : OperandSize) (dn : Field3) (ea : Ea) : Statement (.orToDn size dn ea) := by
  show encode _ &&& Form.mask _ = Form.pattern _
  simp only [encode, fmtRoe_pack, mask_iff_fields, classField_pack, regField_pack, opmodeField_pack, eaModeField_pack,
    eaRegField_pack]
  cases size <;> refine ⟨?_, ?_, ?_, ?_, ?_⟩ <;>
    simp [Instr.form, Form.mask, Form.pattern, classField, regField, opmodeField, eaModeField, eaRegField, bfx, and_ones3,
      OperandSize.moveCode, OperandSize.stdCode, WordOrLong.bitCode, WordOrLong.toSize, ShiftOp.typeCode, ShiftOp.dirCode]

theorem orToEa (size : OperandSize) (dn : Field3) (ea : Ea) : Statement (.orToEa size dn ea) := by
  show encode _ &&& Form.mask _ = Form.pattern _
  simp only [encode, fmtRoe_pack, mask_iff_fields, classField_pack, regField_pack, opmodeField_pack, eaModeField_pack,
    eaRegField_pack]
  cases size <;> refine ⟨?_, ?_, ?_, ?_, ?_⟩ <;>
    simp [Instr.form, Form.mask, Form.pattern, classField, regField, opmodeField, eaModeField, eaRegField, bfx, and_ones3,
      OperandSize.moveCode, OperandSize.stdCode, WordOrLong.bitCode, WordOrLong.toSize, ShiftOp.typeCode, ShiftOp.dirCode]

theorem ori (size : OperandSize) (ea : Ea) : Statement (.ori size ea) := by
  show encode _ &&& Form.mask _ = Form.pattern _
  simp only [encode, fmtSizeEa_pack, mask_iff_fields, classField_pack, regField_pack, opmodeField_pack, eaModeField_pack,
    eaRegField_pack]
  cases size <;> refine ⟨?_, ?_, ?_, ?_, ?_⟩ <;>
    simp [Instr.form, Form.mask, Form.pattern, classField, regField, opmodeField, eaModeField, eaRegField, bfx, and_ones3,
      OperandSize.moveCode, OperandSize.stdCode, WordOrLong.bitCode, WordOrLong.toSize, ShiftOp.typeCode, ShiftOp.dirCode]

theorem neg (size : OperandSize) (ea : Ea) : Statement (.neg size ea) := by
  show encode _ &&& Form.mask _ = Form.pattern _
  simp only [encode, fmtSizeEa_pack, mask_iff_fields, classField_pack, regField_pack, opmodeField_pack, eaModeField_pack,
    eaRegField_pack]
  cases size <;> refine ⟨?_, ?_, ?_, ?_, ?_⟩ <;>
    simp [Instr.form, Form.mask, Form.pattern, classField, regField, opmodeField, eaModeField, eaRegField, bfx, and_ones3,
      OperandSize.moveCode, OperandSize.stdCode, WordOrLong.bitCode, WordOrLong.toSize, ShiftOp.typeCode, ShiftOp.dirCode]

theorem eor (size : OperandSize) (dn : Field3) (ea : Ea) : Statement (.eor size dn ea) := by
  show encode _ &&& Form.mask _ = Form.pattern _
  simp only [encode, fmtRoe_pack, mask_iff_fields, classField_pack, regField_pack, opmodeField_pack, eaModeField_pack,
    eaRegField_pack]
  cases size <;> refine ⟨?_, ?_, ?_, ?_, ?_⟩ <;>
    simp [Instr.form, Form.mask, Form.pattern, classField, regField, opmodeField, eaModeField, eaRegField, bfx, and_ones3,
      OperandSize.moveCode, OperandSize.stdCode, WordOrLong.bitCode, WordOrLong.toSize, ShiftOp.typeCode, ShiftOp.dirCode]

theorem asrReg (size : OperandSize) (count : ShiftCount) (dy : Field3) : Statement (.asrReg size count dy) := by
  show encode _ &&& Form.mask _ = Form.pattern _
  simp only [encode, fmtShr_pack, mask_iff_fields, classField_pack, regField_pack, opmodeField_pack, eaModeField_pack,
    eaRegField_pack]
  cases size <;> refine ⟨?_, ?_, ?_, ?_, ?_⟩ <;>
    simp [Instr.form, Form.mask, Form.pattern, classField, regField, opmodeField, eaModeField, eaRegField, bfx, and_ones3,
      OperandSize.moveCode, OperandSize.stdCode, WordOrLong.bitCode, WordOrLong.toSize, ShiftOp.typeCode, ShiftOp.dirCode]

theorem aslReg (size : OperandSize) (count : ShiftCount) (dy : Field3) : Statement (.aslReg size count dy) := by
  show encode _ &&& Form.mask _ = Form.pattern _
  simp only [encode, fmtShr_pack, mask_iff_fields, classField_pack, regField_pack, opmodeField_pack, eaModeField_pack,
    eaRegField_pack]
  cases size <;> refine ⟨?_, ?_, ?_, ?_, ?_⟩ <;>
    simp [Instr.form, Form.mask, Form.pattern, classField, regField, opmodeField, eaModeField, eaRegField, bfx, and_ones3,
      OperandSize.moveCode, OperandSize.stdCode, WordOrLong.bitCode, WordOrLong.toSize, ShiftOp.typeCode, ShiftOp.dirCode]

theorem lsrReg (size : OperandSize) (count : ShiftCount) (dy : Field3) : Statement (.lsrReg size count dy) := by
  show encode _ &&& Form.mask _ = Form.pattern _
  simp only [encode, fmtShr_pack, mask_iff_fields, classField_pack, regField_pack, opmodeField_pack, eaModeField_pack,
    eaRegField_pack]
  cases size <;> refine ⟨?_, ?_, ?_, ?_, ?_⟩ <;>
    simp [Instr.form, Form.mask, Form.pattern, classField, regField, opmodeField, eaModeField, eaRegField, bfx, and_ones3,
      OperandSize.moveCode, OperandSize.stdCode, WordOrLong.bitCode, WordOrLong.toSize, ShiftOp.typeCode, ShiftOp.dirCode]

theorem lslReg (size : OperandSize) (count : ShiftCount) (dy : Field3) : Statement (.lslReg size count dy) := by
  show encode _ &&& Form.mask _ = Form.pattern _
  simp only [encode, fmtShr_pack, mask_iff_fields, classField_pack, regField_pack, opmodeField_pack, eaModeField_pack,
    eaRegField_pack]
  cases size <;> refine ⟨?_, ?_, ?_, ?_, ?_⟩ <;>
    simp [Instr.form, Form.mask, Form.pattern, classField, regField, opmodeField, eaModeField, eaRegField, bfx, and_ones3,
      OperandSize.moveCode, OperandSize.stdCode, WordOrLong.bitCode, WordOrLong.toSize, ShiftOp.typeCode, ShiftOp.dirCode]

theorem rorReg (size : OperandSize) (count : ShiftCount) (dy : Field3) : Statement (.rorReg size count dy) := by
  show encode _ &&& Form.mask _ = Form.pattern _
  simp only [encode, fmtShr_pack, mask_iff_fields, classField_pack, regField_pack, opmodeField_pack, eaModeField_pack,
    eaRegField_pack]
  cases size <;> refine ⟨?_, ?_, ?_, ?_, ?_⟩ <;>
    simp [Instr.form, Form.mask, Form.pattern, classField, regField, opmodeField, eaModeField, eaRegField, bfx, and_ones3,
      OperandSize.moveCode, OperandSize.stdCode, WordOrLong.bitCode, WordOrLong.toSize, ShiftOp.typeCode, ShiftOp.dirCode]

theorem rolReg (size : OperandSize) (count : ShiftCount) (dy : Field3) : Statement (.rolReg size count dy) := by
  show encode _ &&& Form.mask _ = Form.pattern _
  simp only [encode, fmtShr_pack, mask_iff_fields, classField_pack, regField_pack, opmodeField_pack, eaModeField_pack,
    eaRegField_pack]
  cases size <;> refine ⟨?_, ?_, ?_, ?_, ?_⟩ <;>
    simp [Instr.form, Form.mask, Form.pattern, classField, regField, opmodeField, eaModeField, eaRegField, bfx, and_ones3,
      OperandSize.moveCode, OperandSize.stdCode, WordOrLong.bitCode, WordOrLong.toSize, ShiftOp.typeCode, ShiftOp.dirCode]

theorem asrMem (ea : Ea) : Statement (.asrMem ea) := by
  show encode _ &&& Form.mask _ = Form.pattern _
  simp only [encode, fmtShm_pack, mask_iff_fields, classField_pack, regField_pack, opmodeField_pack, eaModeField_pack,
    eaRegField_pack]
  refine ⟨?_, ?_, ?_, ?_, ?_⟩ <;>
    simp [Instr.form, Form.mask, Form.pattern, classField, regField, opmodeField, eaModeField, eaRegField, bfx, and_ones3,
      OperandSize.moveCode, OperandSize.stdCode, WordOrLong.bitCode, WordOrLong.toSize, ShiftOp.typeCode, ShiftOp.dirCode]

theorem aslMem (ea : Ea) : Statement (.aslMem ea) := by
  show encode _ &&& Form.mask _ = Form.pattern _
  simp only [encode, fmtShm_pack, mask_iff_fields, classField_pack, regField_pack, opmodeField_pack, eaModeField_pack,
    eaRegField_pack]
  refine ⟨?_, ?_, ?_, ?_, ?_⟩ <;>
    simp [Instr.form, Form.mask, Form.pattern, classField, regField, opmodeField, eaModeField, eaRegField, bfx, and_ones3,
      OperandSize.moveCode, OperandSize.stdCode, WordOrLong.bitCode, WordOrLong.toSize, ShiftOp.typeCode, ShiftOp.dirCode]

theorem lsrMem (ea : Ea) : Statement (.lsrMem ea) := by
  show encode _ &&& Form.mask _ = Form.pattern _
  simp only [encode, fmtShm_pack, mask_iff_fields, classField_pack, regField_pack, opmodeField_pack, eaModeField_pack,
    eaRegField_pack]
  refine ⟨?_, ?_, ?_, ?_, ?_⟩ <;>
    simp [Instr.form, Form.mask, Form.pattern, classField, regField, opmodeField, eaModeField, eaRegField, bfx, and_ones3,
      OperandSize.moveCode, OperandSize.stdCode, WordOrLong.bitCode, WordOrLong.toSize, ShiftOp.typeCode, ShiftOp.dirCode]

theorem lslMem (ea : Ea) : Statement (.lslMem ea) := by
  show encode _ &&& Form.mask _ = Form.pattern _
  simp only [encode, fmtShm_pack, mask_iff_fields, classField_pack, regField_pack, opmodeField_pack, eaModeField_pack,
    eaRegField_pack]
  refine ⟨?_, ?_, ?_, ?_, ?_⟩ <;>
    simp [Instr.form, Form.mask, Form.pattern, classField, regField, opmodeField, eaModeField, eaRegField, bfx, and_ones3,
      OperandSize.moveCode, OperandSize.stdCode, WordOrLong.bitCode, WordOrLong.toSize, ShiftOp.typeCode, ShiftOp.dirCode]

theorem rorMem (ea : Ea) : Statement (.rorMem ea) := by
  show encode _ &&& Form.mask _ = Form.pattern _
  simp only [encode, fmtShm_pack, mask_iff_fields, classField_pack, regField_pack, opmodeField_pack, eaModeField_pack,
    eaRegField_pack]
  refine ⟨?_, ?_, ?_, ?_, ?_⟩ <;>
    simp [Instr.form, Form.mask, Form.pattern, classField, regField, opmodeField, eaModeField, eaRegField, bfx, and_ones3,
      OperandSize.moveCode, OperandSize.stdCode, WordOrLong.bitCode, WordOrLong.toSize, ShiftOp.typeCode, ShiftOp.dirCode]

theorem rolMem (ea : Ea) : Statement (.rolMem ea) := by
  show encode _ &&& Form.mask _ = Form.pattern _
  simp only [encode, fmtShm_pack, mask_iff_fields, classField_pack, regField_pack, opmodeField_pack, eaModeField_pack,
    eaRegField_pack]
  refine ⟨?_, ?_, ?_, ?_, ?_⟩ <;>
    simp [Instr.form, Form.mask, Form.pattern, classField, regField, opmodeField, eaModeField, eaRegField, bfx, and_ones3,
      OperandSize.moveCode, OperandSize.stdCode, WordOrLong.bitCode, WordOrLong.toSize, ShiftOp.typeCode, ShiftOp.dirCode]

theorem bclr (ea : Ea) : Statement (.bclr ea) := by
  show encode _ &&& Form.mask _ = Form.pattern _
  simp only [encode, fmtEa_pack, mask_iff_fields, classField_pack, regField_pack, opmodeField_pack, eaModeField_pack,
    eaRegField_pack]
  refine ⟨?_, ?_, ?_, ?_, ?_⟩ <;>
    simp [Instr.form, Form.mask, Form.pattern, classField, regField, opmodeField, eaModeField, eaRegField, bfx, and_ones3,
      OperandSize.moveCode, OperandSize.stdCode, WordOrLong.bitCode, WordOrLong.toSize, ShiftOp.typeCode, ShiftOp.dirCode]

theorem cmp (size : OperandSize) (dn : Field3) (ea : Ea) : Statement (.cmp size dn ea) := by
  show encode _ &&& Form.mask _ = Form.pattern _
  simp only [encode, fmtRoe_pack, mask_iff_fields, classField_pack, regField_pack, opmodeField_pack, eaModeField_pack,
    eaRegField_pack]
  cases size <;> refine ⟨?_, ?_, ?_, ?_, ?_⟩ <;>
    simp [Instr.form, Form.mask, Form.pattern, classField, regField, opmodeField, eaModeField, eaRegField, bfx, and_ones3,
      OperandSize.moveCode, OperandSize.stdCode, WordOrLong.bitCode, WordOrLong.toSize, ShiftOp.typeCode, ShiftOp.dirCode]

theorem cmpi (size : OperandSize) (ea : Ea) : Statement (.cmpi size ea) := by
  show encode _ &&& Form.mask _ = Form.pattern _
  simp only [encode, fmtSizeEa_pack, mask_iff_fields, classField_pack, regField_pack, opmodeField_pack, eaModeField_pack,
    eaRegField_pack]
  cases size <;> refine ⟨?_, ?_, ?_, ?_, ?_⟩ <;>
    simp [Instr.form, Form.mask, Form.pattern, classField, regField, opmodeField, eaModeField, eaRegField, bfx, and_ones3,
      OperandSize.moveCode, OperandSize.stdCode, WordOrLong.bitCode, WordOrLong.toSize, ShiftOp.typeCode, ShiftOp.dirCode]

theorem bra (disp8 : Byte) : Statement (.bra disp8) := by
  show encode _ &&& Form.mask _ = Form.pattern _
  simp only [encode, fmtBr_pack, mask_iff_fields, classField_pack, regField_pack, opmodeField_pack, eaModeField_pack,
    eaRegField_pack]
  refine ⟨?_, ?_, ?_, ?_, ?_⟩ <;>
    simp [Instr.form, Form.mask, Form.pattern, classField, regField, opmodeField, eaModeField, eaRegField, bfx, and_ones3,
      OperandSize.moveCode, OperandSize.stdCode, WordOrLong.bitCode, WordOrLong.toSize, ShiftOp.typeCode, ShiftOp.dirCode]

theorem bcc (cond : BitVec 4) (disp8 : Byte) : Statement (.bcc cond disp8) := by
  show encode _ &&& Form.mask _ = Form.pattern _
  simp only [encode, fmtBr_pack, mask_iff_fields, classField_pack, regField_pack, opmodeField_pack, eaModeField_pack,
    eaRegField_pack]
  refine ⟨?_, ?_, ?_, ?_, ?_⟩ <;>
    simp [Instr.form, Form.mask, Form.pattern, classField, regField, opmodeField, eaModeField, eaRegField, bfx, and_ones3,
      OperandSize.moveCode, OperandSize.stdCode, WordOrLong.bitCode, WordOrLong.toSize, ShiftOp.typeCode, ShiftOp.dirCode]

theorem jsr (ea : Ea) : Statement (.jsr ea) := by
  show encode _ &&& Form.mask _ = Form.pattern _
  simp only [encode, fmtEa_pack, mask_iff_fields, classField_pack, regField_pack, opmodeField_pack, eaModeField_pack,
    eaRegField_pack]
  refine ⟨?_, ?_, ?_, ?_, ?_⟩ <;>
    simp [Instr.form, Form.mask, Form.pattern, classField, regField, opmodeField, eaModeField, eaRegField, bfx, and_ones3,
      OperandSize.moveCode, OperandSize.stdCode, WordOrLong.bitCode, WordOrLong.toSize, ShiftOp.typeCode, ShiftOp.dirCode]

theorem rts : Statement .rts := by
  show encode .rts &&& Form.mask .rts = Form.pattern .rts
  decide

end Sys2Proof.Laws.FormMatches
end

