-- ==== Sys2Proof/Laws/Classify.lean ====
section
/-! SUPPORT. What the classifier table can answer: a row is fixed by five fields of the Word, and the inverses of the
field codes. -/

namespace Sys2Proof

set_option linter.unusedSimpArgs false

theorem field4_and_ones (c : BitVec 4) : c &&& 15#4 = c := by revert c; decide

theorem field3_and_ones (c : BitVec 3) : c &&& 7#3 = c := by revert c; decide

/-- The form a Word can belong to, by its class, register and opmode fields alone (R94, R95). -/
def formOf (c : BitVec 4) (r o : Field3) : Option Form :=
  if c = 0#4 then
    if r = 4#3 then some .bclrImm else if r = 0#3 then some .ori else some .cmpi
  else if c = 1#4 then some .move
  else if c = 2#4 ∨ c = 3#4 then if o = 1#3 then some .movea else some .move
  else if c = 4#4 then
    if o = 7#3 then some .lea
    else if r = 7#3 then if o = 1#3 then some .rts else some .jsr
    else if r = 4#3 then some .movemR2M else if r = 6#3 then some .movemM2R
    else some .neg
  else if c = 5#4 then some .subq
  else if c = 6#4 then some .branch
  else if c = 8#4 then if o = 7#3 then some .divs else if o.getLsbD 2 then some .orToEa else some .orToDn
  else if c = 9#4 then if o.getLsbD 2 then some .subToEa else some .subToDn
  else if c = 11#4 then if o.getLsbD 2 then some .eor else some .cmp
  else if c = 12#4 then some .muls
  else if c = 13#4 then if o.extractLsb' 0 2 = 3#2 then some .adda else if o.getLsbD 2 then some .addToEa else some .addToDn
  else if c = 14#4 then if o.extractLsb' 0 2 = 3#2 then some .shiftMem else some .shiftReg
  else none

/-- A row of the classifier table holds of no Word but those whose fields name it. -/
theorem holds_pack (slot f) (c : BitVec 4) (r o m x : Field3) (h : Form.holds slot f (pack c r o m x) = true) :
    formOf c r o = some f := by
  simp only [Form.holds, Bool.and_eq_true, beq_iff_eq, mask_iff_fields, classField_pack, regField_pack, opmodeField_pack, eaModeField_pack, eaRegField_pack] at h
  obtain ⟨⟨⟨h1, h2, h3, h4, h5⟩, hf⟩, -⟩ := h
  cases f <;>
  simp [Form.mask, Form.pattern, classField, regField, opmodeField, eaModeField, eaRegField, bfx, field4_and_ones, field3_and_ones] at h1 h2 h3 h4 h5 <;>
  simp only [Form.further, bne_iff_ne, Bool.and_eq_true, Bool.or_eq_true, beq_iff_eq, sizeField_eq, moveSizeField_eq, memTypeField_eq, regTypeField_eq, opmodeField_pack, regField_pack, eaModeField_pack, classField_pack] at hf <;>
  (try subst h1) <;> (try subst h2) <;> (try subst h3)
  case move =>
    obtain ⟨⟨hf1, hf2⟩, -⟩ := hf
    have hc : c = 1#4 ∨ c = 2#4 ∨ c = 3#4 := by clear hf2; revert c; decide
    rcases hc with rfl | rfl | rfl <;> simp [formOf, hf2]
  case movea =>
    have hc : c = 2#4 ∨ c = 3#4 := by revert c; decide
    rcases hc with rfl | rfl <;> simp [formOf]
  case shiftReg =>
    obtain ⟨hf, -⟩ := hf
    revert r o; decide
  all_goals first | rfl | (clear hf; revert r o; decide) | (revert r o; decide) | (clear hf; revert o; decide)

/-- The first row that holds is any row that holds. -/
theorem classifyForm_eq (slot : BsrSlot) (w : Word) (f : Form) : classifyForm slot w = some f ↔ f.holds slot w = true := by
  constructor
  · exact fun h => List.find?_some (p := (Form.holds slot · w)) h
  · intro h
    cases hc : classifyForm slot w with
    | none =>
      have := (List.find?_eq_none.1 hc) f (by cases f <;> decide)
      exact absurd h this
    | some g =>
      have hg := List.find?_some (p := (Form.holds slot · w)) hc
      have h1 := h
      rw [← pack_fields w] at h1 hg
      have h2 := holds_pack _ _ _ _ _ _ _ h1
      rw [holds_pack _ _ _ _ _ _ _ hg] at h2
      rw [Option.some.inj h2]

/-- A Word of which no row holds has no classification. -/
theorem classify_eq_none {slot : BsrSlot} {w : Word} (h : ∀ f, Form.holds slot f w = false) : classify slot w = none := by
  simp only [classify]
  cases hc : classifyForm slot w with
  | none => rfl
  | some f =>
    have := (classifyForm_eq _ _ _).1 hc
    rw [h f] at this
    cases this

/-- It is enough to look at the row the Word's fields name. -/
theorem classify_eq_none_of_fields {slot : BsrSlot} {w : Word}
    (h : ∀ f, formOf (classField w) (regField w) (opmodeField w) = some f → Form.holds slot f w = false) :
    classify slot w = none := by
  apply classify_eq_none
  intro f
  by_contra hf
  have hf : Form.holds slot f w = true := by simpa using hf
  have h2 := hf
  rw [← pack_fields w] at h2
  have := h f (holds_pack _ _ _ _ _ _ _ h2)
  rw [hf] at this
  cases this

theorem sizeStd_code (s : OperandSize) : sizeStd? s.stdCode = some s := by cases s <;> rfl

theorem sizeMove_code (s : OperandSize) : sizeMove? s.moveCode = some s := by cases s <;> rfl

theorem sizeMovea_code (s : WordOrLong) : sizeMovea? s.toSize.moveCode = some s := by cases s <;> rfl

theorem sizeStd_inv {c s} (h : sizeStd? c = some s) : s.stdCode = c := by
  revert h; revert s; revert c; intro c s; cases s <;> revert c <;> decide

theorem sizeMove_inv {c s} (h : sizeMove? c = some s) : s.moveCode = c := by
  revert h; revert s; revert c; intro c s; cases s <;> revert c <;> decide

theorem sizeMovea_inv {c s} (h : sizeMovea? c = some s) : s.toSize.moveCode = c ∧ sizeMove? c = some s.toSize := by
  revert h; revert s; revert c; intro c s; cases s <;> revert c <;> decide

theorem shiftName_inv {c b op} (h : shiftName? c b = some op) : op.typeCode = c ∧ op.dirCode = BitVec.ofBool b := by
  revert h; revert op; revert c b; intro c b op; cases op <;> revert c b <;> decide

theorem modeCode_eaField (w : Word) : (eaField w).modeCode = eaModeField w := (Ea.codes_ofFields _ _).1

theorem regCode_eaField (w : Word) : (eaField w).regCode = eaRegField w := (Ea.codes_ofFields _ _).2

theorem modeCode_dstField (w : Word) : (dstField w).modeCode = opmodeField w := (Ea.codes_ofFields _ _).1

theorem regCode_dstField (w : Word) : (dstField w).regCode = regField w := (Ea.codes_ofFields _ _).2

/-- The fixed bits of an encoded Word, whichever instruction it is. -/
theorem form_matches (i : Instr) : encode i &&& i.form.mask = i.form.pattern := by
  cases i with
  | move size src dst => exact Laws.FormMatches.move size src dst
  | movea size src an => exact Laws.FormMatches.movea size src an
  | movemR2M size ea => exact Laws.FormMatches.movemR2M size ea
  | movemM2R size ea => exact Laws.FormMatches.movemM2R size ea
  | addToDn size dn ea => exact Laws.FormMatches.addToDn size dn ea
  | addToEa size dn ea => exact Laws.FormMatches.addToEa size dn ea
  | adda size an ea => exact Laws.FormMatches.adda size an ea
  | subToDn size dn ea => exact Laws.FormMatches.subToDn size dn ea
  | subToEa size dn ea => exact Laws.FormMatches.subToEa size dn ea
  | subq size data ea => exact Laws.FormMatches.subq size data ea
  | muls dn ea => exact Laws.FormMatches.muls dn ea
  | divs dn ea => exact Laws.FormMatches.divs dn ea
  | lea an ea => exact Laws.FormMatches.lea an ea
  | orToDn size dn ea => exact Laws.FormMatches.orToDn size dn ea
  | orToEa size dn ea => exact Laws.FormMatches.orToEa size dn ea
  | ori size ea => exact Laws.FormMatches.ori size ea
  | neg size ea => exact Laws.FormMatches.neg size ea
  | eor size dn ea => exact Laws.FormMatches.eor size dn ea
  | asrReg size count dy => exact Laws.FormMatches.asrReg size count dy
  | aslReg size count dy => exact Laws.FormMatches.aslReg size count dy
  | lsrReg size count dy => exact Laws.FormMatches.lsrReg size count dy
  | lslReg size count dy => exact Laws.FormMatches.lslReg size count dy
  | rorReg size count dy => exact Laws.FormMatches.rorReg size count dy
  | rolReg size count dy => exact Laws.FormMatches.rolReg size count dy
  | asrMem ea => exact Laws.FormMatches.asrMem ea
  | aslMem ea => exact Laws.FormMatches.aslMem ea
  | lsrMem ea => exact Laws.FormMatches.lsrMem ea
  | lslMem ea => exact Laws.FormMatches.lslMem ea
  | rorMem ea => exact Laws.FormMatches.rorMem ea
  | rolMem ea => exact Laws.FormMatches.rolMem ea
  | bclr ea => exact Laws.FormMatches.bclr ea
  | cmp size dn ea => exact Laws.FormMatches.cmp size dn ea
  | cmpi size ea => exact Laws.FormMatches.cmpi size ea
  | bra disp8 => exact Laws.FormMatches.bra disp8
  | bcc cond disp8 => exact Laws.FormMatches.bcc cond disp8
  | jsr ea => exact Laws.FormMatches.jsr ea
  | rts => exact Laws.FormMatches.rts

theorem condField_fmtBr (c : BitVec 4) (d : Byte) : condField (fmtBr c d) = c := by
  apply BitVec.eq_of_getLsbD_eq
  intro i hi
  simp only [condField, fmtBr, bfx, BitVec.getLsbD_append, BitVec.getLsbD_extractLsb]
  interval_cases i <;> simp

theorem lowByte_fmtBr (c : BitVec 4) (d : Byte) : lowByte (fmtBr c d) = d := by
  apply BitVec.eq_of_getLsbD_eq
  intro i hi
  simp only [lowByte, fmtBr, bfx, BitVec.getLsbD_append, BitVec.getLsbD_extractLsb]
  interval_cases i <;> simp

/-- The row of a well-formed instruction holds of its Word, and reads the instruction back from it. -/
theorem holds_encode (slot) (i : Instr) (h : i.wf slot = true) : i.form.holds slot (encode i) = true ∧ i.form.instr? (encode i) = some i := by
  have hm : encode i &&& i.form.mask = i.form.pattern := form_matches i
  simp only [Instr.wf, Bool.and_eq_true] at h
  obtain ⟨⟨hea, hdst⟩, hcond⟩ := h
  simp only [Form.holds, hm, beq_self_eq_true, Bool.true_and, Bool.and_eq_true]
  clear hm
  cases i with
  | move s src dst =>
    have hd : ¬ dst.modeCode = 1#3 := by
      simp only [Instr.dstWf, Instr.dst?] at hdst
      cases dst <;> simp_all [Ea.modeCode, Ea.inDataAlt]
    simp only [Instr.eaWf, Instr.ea?, Instr.form, Instr.size?, Instr.dstWf, Instr.dst?] at hea hdst
    simp only [encode, fmtMove_pack, Instr.form, Form.further, Form.sizeOf, moveSizeField_eq, classField_pack, opmodeField_pack, dstField_pack, eaField_pack, Form.instr?]
    cases s <;> simp_all [OperandSize.moveCode, sizeMove?]
  | movea s src an =>
    simp only [Instr.eaWf, Instr.ea?, Instr.form, Instr.size?] at hea
    simp only [encode, fmtMove_pack, Instr.form, Form.further, Form.sizeOf, moveSizeField_eq, classField_pack, opmodeField_pack, regField_pack, eaField_pack, Form.instr?]
    cases s <;> simp_all [OperandSize.moveCode, sizeMove?, sizeMovea?, WordOrLong.toSize]
  | movemR2M s ea | movemM2R s ea =>
    simp only [Instr.eaWf, Instr.ea?, Instr.form, Instr.size?] at hea
    simp only [encode, fmtMovem_pack, Instr.form, Form.further, Form.sizeOf, bitAt_6_eq, opmodeField_pack, eaField_pack, Form.instr?]
    cases s <;> simp_all [sizeBit, WordOrLong.toSize, WordOrLong.bitCode]
  | adda s an ea =>
    simp only [Instr.eaWf, Instr.ea?, Instr.form, Instr.size?] at hea
    simp only [encode, fmtRoe_pack, Instr.form, Form.further, Form.sizeOf, bitAt_8_eq, opmodeField_pack, regField_pack, eaField_pack, Form.instr?]
    cases s <;> simp_all [sizeBit, WordOrLong.toSize, WordOrLong.bitCode]
  | addToDn s dn ea | addToEa s dn ea | subToDn s dn ea | subToEa s dn ea | orToDn s dn ea | orToEa s dn ea | cmp s dn ea | eor s dn ea | subq s dn ea =>
    simp only [Instr.eaWf, Instr.ea?, Instr.form, Instr.size?] at hea
    simp only [encode, fmtRoe_pack, fmtQuick_pack, Instr.form, Form.further, Form.sizeOf, sizeField_eq, opmodeField_pack, regField_pack, eaField_pack, Form.instr?]
    cases s <;> simp_all [sizeStd?, OperandSize.stdCode]
  | ori s ea | cmpi s ea | neg s ea =>
    simp only [Instr.eaWf, Instr.ea?, Instr.form, Instr.size?] at hea
    simp only [encode, fmtSizeEa_pack, Instr.form, Form.further, Form.sizeOf, sizeField_eq, opmodeField_pack, regField_pack, eaField_pack, Form.instr?]
    cases s <;> simp_all [sizeStd?, OperandSize.stdCode]
  | muls dn ea | divs dn ea | lea dn ea | jsr ea | bclr ea =>
    simp only [Instr.eaWf, Instr.ea?, Instr.form, Instr.size?] at hea
    simp only [encode, fmtRegEa_pack, fmtEa_pack, Instr.form, Form.further, Form.sizeOf, opmodeField_pack, regField_pack, eaField_pack, Form.instr?, hea, and_self]
  | asrMem ea | aslMem ea | lsrMem ea | lslMem ea | rorMem ea | rolMem ea =>
    simp only [Instr.eaWf, Instr.ea?, Instr.form, Instr.size?] at hea
    simp only [encode, fmtShm_pack, Instr.form, Form.further, Form.sizeOf, memTypeField_eq, bitAt_8_eq, opmodeField_pack, regField_pack, eaField_pack, Form.instr?, hea]
    simp [ShiftOp.typeCode, ShiftOp.dirCode, shiftName?, ShiftOp.memInstr]
  | asrReg s c dy | aslReg s c dy | lsrReg s c dy | lslReg s c dy | rorReg s c dy | rolReg s c dy =>
    simp only [encode, fmtShr_pack, Instr.form, Form.further, Form.sizeOf, regTypeField_eq, bitAt_8_eq, sizeField_eq, opmodeField_pack, eaModeField_pack, eaRegField_pack, Form.instr?, shiftCountField, bitAt_5_eq, regField_pack]
    cases s <;> cases c <;> simp [ShiftOp.typeCode, ShiftOp.dirCode, shiftName?, ShiftOp.regInstr, ShiftCount.irCode, ShiftCount.field, sizeStd?, OperandSize.stdCode, Form.eaOk, Form.eaSet]
  | bra d =>
    simp only [encode, Instr.form, Form.further, Form.instr?, condField_fmtBr, lowByte_fmtBr]
    simp [Form.eaOk, Form.eaSet]
  | bcc c d =>
    simp only [encode, Instr.form, Form.further, Form.instr?, condField_fmtBr, lowByte_fmtBr]
    simp only [Instr.condWf, Bool.and_eq_true, bne_iff_ne] at hcond
    simp [Form.eaOk, Form.eaSet, hcond.1]
    simpa using hcond.2
  | rts => exact ⟨⟨rfl, rfl⟩, rfl⟩

end Sys2Proof
end

