-- ==== Sys2Proof/Laws/Memory.lean ====
section
/-! SUPPORT. The laws of the buffer's cells: reads after writes, the canonical form, and the bytes START latches. -/

namespace Sys2Proof.Machine.Memory

open Sys2Proof

theorem wf_iff (m : List Host.Cell) : wf m = true ↔ (m.map Prod.fst).Pairwise (· < ·) := by
  simp only [wf, decide_eq_true_eq]

@[simp] theorem wf_nil : wf [] = true := rfl

theorem wf_cons (c : Host.Cell) (m : List Host.Cell) :
    wf (c :: m) = true ↔ (∀ d ∈ m, c.1 < d.1) ∧ wf m = true := by
  simp only [wf_iff, List.map_cons, List.pairwise_cons, List.mem_map, forall_exists_index, and_imp,
    forall_apply_eq_imp_iff₂]

/-- A cell's address is not listed below a larger lower bound. -/
theorem read_eq_none_of_lt {m : List Host.Cell} {i : Nat} (h : ∀ d ∈ m, i < d.1) : read m i = none := by
  induction m with
  | nil => rfl
  | cons c m ih =>
    have hc := h c (by simp)
    simp only [read, Nat.ne_of_gt hc, if_false]
    exact ih fun d hd => h d (by simp [hd])

theorem read_write_same (m : List Host.Cell) (i : Nat) (v : Byte) : read (write m i v) i = some v := by
  induction m with
  | nil => simp [write, read]
  | cons c m ih =>
    simp only [write]
    split
    · simp [read]
    · split
      · simp [read]
      · simp only [read]
        rw [if_neg (by omega)]
        exact ih

theorem read_write_other (m : List Host.Cell) {i j : Nat} (v : Byte) (h : j ≠ i) :
    read (write m i v) j = read m j := by
  induction m with
  | nil => simp [write, read, Ne.symm h]
  | cons c m ih =>
    simp only [write]
    split
    · simp [read, Ne.symm h]
    · split
      · rename_i h2
        simp [read, Ne.symm h, ← h2]
      · simp only [read, ih]

theorem mem_write {m : List Host.Cell} {i : Nat} {v : Byte} {d : Host.Cell} (h : d ∈ write m i v) :
    d.1 = i ∨ d ∈ m := by
  induction m with
  | nil => simp_all [write]
  | cons c m ih =>
    simp only [write] at h
    split at h
    · rcases List.mem_cons.1 h with rfl | h
      · exact .inl rfl
      · exact .inr h
    · split at h
      · rcases List.mem_cons.1 h with rfl | h
        · exact .inl rfl
        · exact .inr (by simp [h])
      · rcases List.mem_cons.1 h with rfl | h
        · exact .inr (by simp)
        · exact (ih h).imp_right fun h => by simp [h]

/-- A write keeps the canonical form. -/
theorem write_wf {m : List Host.Cell} (h : wf m = true) (i : Nat) (v : Byte) : wf (write m i v) = true := by
  induction m with
  | nil => simp [write, wf_cons]
  | cons c m ih =>
    obtain ⟨hlt, hm⟩ := (wf_cons c m).1 h
    simp only [write]
    split
    · rename_i hi
      refine (wf_cons _ _).2 ⟨?_, h⟩
      intro d hd
      rcases List.mem_cons.1 hd with rfl | hd
      · exact hi
      · exact Nat.lt_trans hi (hlt d hd)
    · split
      · rename_i hi
        exact (wf_cons _ _).2 ⟨fun d hd => by simpa [hi] using hlt d hd, hm⟩
      · rename_i h1 h2
        refine (wf_cons _ _).2 ⟨?_, ih hm⟩
        intro d hd
        rcases mem_write hd with hd | hd
        · simp only [hd]; omega
        · exact hlt d hd

/-- The load of a program keeps the canonical form. -/
theorem writeAll_wf {m : List Host.Cell} (h : wf m = true) (i : Nat) (bs : List Byte) :
    wf (writeAll m i bs) = true := by
  induction bs generalizing m i with
  | nil => exact h
  | cons b bs ih => exact ih (write_wf h i b) (i + 1)

theorem read_writeAll_other (m : List Host.Cell) (i : Nat) (bs : List Byte) {j : Nat}
    (h : j < i ∨ i + bs.length ≤ j) : read (writeAll m i bs) j = read m j := by
  induction bs generalizing m i with
  | nil => rfl
  | cons b bs ih =>
    simp only [List.length_cons] at h
    rw [writeAll, ih _ _ (by omega), read_write_other _ _ (by omega)]

theorem read_writeAll_same (m : List Host.Cell) (i : Nat) (bs : List Byte) {j : Nat} (h : j < bs.length) :
    read (writeAll m i bs) (i + j) = bs[j]? := by
  induction bs generalizing m i j with
  | nil => simp at h
  | cons b bs ih =>
    cases j with
    | zero => simp [writeAll, read_writeAll_other, read_write_same]
    | succ j =>
      have := ih (write m i b) (i + 1) (j := j) (by simpa using h)
      simpa [writeAll, Nat.add_assoc, Nat.add_comm 1 j] using this

theorem keys_cellsFrom (i : Nat) (bs : List Byte) :
    (cellsFrom i bs).map Prod.fst = (List.range bs.length).map (i + ·) := by
  induction bs generalizing i with
  | nil => rfl
  | cons b bs ih =>
    simp only [cellsFrom, List.map_cons, ih, List.length_cons, List.range_succ_eq_map, List.map_map]
    simp [Function.comp_def, Nat.add_assoc, Nat.add_comm 1]

theorem read_cellsFrom (i : Nat) (bs : List Byte) (j : Nat) : read (cellsFrom i bs) (i + j) = bs[j]? := by
  induction bs generalizing i j with
  | nil => simp [cellsFrom, read]
  | cons b bs ih =>
    cases j with
    | zero => simp [cellsFrom, read]
    | succ j =>
      have := ih (i + 1) j
      simp only [cellsFrom, read]
      rw [if_neg (by omega)]
      simpa [Nat.add_assoc, Nat.add_comm 1 j] using this

/-- A buffer whose addresses are 0 .. n-1 holds a byte at each of them. -/
theorem read_isSome_of_keys {m : List Host.Cell} {i : Nat} (h : i ∈ m.map Prod.fst) : ∃ b, read m i = some b := by
  induction m with
  | nil => simp at h
  | cons c m ih =>
    by_cases hc : c.1 = i
    · exact ⟨c.2, by simp [read, hc]⟩
    · rw [List.map_cons, List.mem_cons] at h
      obtain ⟨b, hb⟩ := ih (h.resolve_left fun e => hc e.symm)
      exact ⟨b, by simp [read, hc, hb]⟩

end Sys2Proof.Machine.Memory

namespace Sys2Proof.Machine.State

theorem bufWf_iff (s : State) : s.bufWf = true ↔ s.buf.map Prod.fst = List.range s.len := by
  simp only [bufWf, beq_iff_eq]

/-- A buffer that holds exactly the bytes 0 .. L-1 is in canonical form. -/
theorem memory_wf_of_bufWf {s : State} (h : s.bufWf = true) : Memory.wf s.buf = true := by
  rw [Memory.wf_iff, (bufWf_iff s).1 h]
  exact List.pairwise_lt_range

/-- START latches exactly the bytes it is given. -/
theorem start_bufWf (s : State) (bytes : List Byte) (base : Addr) : (s.start bytes base).bufWf = true := by
  rw [bufWf_iff]
  simp [start, Memory.keys_cellsFrom]

theorem start_byte? (s : State) (bytes : List Byte) (base : Addr) (i : Nat) :
    (s.start bytes base).byte? i = bytes[i]? := by
  have h := Memory.read_cellsFrom 0 bytes i
  simp only [Nat.zero_add] at h
  simp only [byte?, start, h]
  split
  · rfl
  · rw [List.getElem?_eq_none (by omega)]

theorem byte?_of_bufWf {s : State} (h : s.bufWf = true) {i : Nat} (hi : i < s.len) : ∃ b, s.byte? i = some b := by
  rw [bufWf_iff] at h
  simp only [byte?, if_pos hi]
  exact Memory.read_isSome_of_keys (by rw [h]; exact List.mem_range.2 hi)

theorem word?_of_bufWf {s : State} (h : s.bufWf = true) {k : Nat} (hk : k < s.nWords) : ∃ w, s.word? k = some w := by
  simp only [nWords] at hk
  obtain ⟨a, ha⟩ := byte?_of_bufWf h (i := 2 * k) (by omega)
  obtain ⟨b, hb⟩ := byte?_of_bufWf h (i := 2 * k + 1) (by omega)
  exact ⟨wordOfBytes a b, by simp [word?, ha, hb]⟩

theorem lt_nWords_of_word? {s : State} {k : Nat} {w : Word} (h : s.word? k = some w) : k < s.nWords := by
  by_contra hk
  have h2 : s.byte? (2 * k + 1) = none := by
    simp only [byte?, nWords] at hk ⊢
    exact if_neg (by omega)
  simp only [word?, h2] at h
  split at h <;> simp_all

end Sys2Proof.Machine.State
end

