-- ==== Sys2Proof/Laws/State.lean ====
section
/-! SUPPORT. One lemma per field per update of State, and what the updates leave of the reads of the buffer. -/

namespace Sys2Proof.Machine.State

/-! SCAN-DECODE's write -/
@[simp] theorem pend_buf (s : State) (r : Instruction) : (s.pend r).buf = s.buf := rfl
@[simp] theorem pend_len (s : State) (r : Instruction) : (s.pend r).len = s.len := rfl
@[simp] theorem pend_base (s : State) (r : Instruction) : (s.pend r).base = s.base := rfl
@[simp] theorem pend_phase (s : State) (r : Instruction) : (s.pend r).phase = .emittingInstruction := rfl
@[simp] theorem pend_cursor (s : State) (r : Instruction) : (s.pend r).cursor = s.cursor := rfl
@[simp] theorem pend_pending (s : State) (r : Instruction) : (s.pend r).pending = some r := rfl
@[simp] theorem pend_out (s : State) (r : Instruction) : (s.pend r).out = s.out := rfl
@[simp] theorem pend_bsrSlot (s : State) (r : Instruction) : (s.pend r).bsrSlot = s.bsrSlot := rfl

/-! the same write, in the statements' words -/
@[simp] theorem withPending_buf (s : State) (r : Instruction) : (s.withPending r).buf = s.buf := rfl
@[simp] theorem withPending_len (s : State) (r : Instruction) : (s.withPending r).len = s.len := rfl
@[simp] theorem withPending_base (s : State) (r : Instruction) : (s.withPending r).base = s.base := rfl
@[simp] theorem withPending_phase (s : State) (r : Instruction) : (s.withPending r).phase = .emittingInstruction := rfl
@[simp] theorem withPending_cursor (s : State) (r : Instruction) : (s.withPending r).cursor = s.cursor := rfl
@[simp] theorem withPending_pending (s : State) (r : Instruction) : (s.withPending r).pending = some r := rfl
@[simp] theorem withPending_out (s : State) (r : Instruction) : (s.withPending r).out = s.out := rfl
@[simp] theorem withPending_bsrSlot (s : State) (r : Instruction) : (s.withPending r).bsrSlot = s.bsrSlot := rfl

theorem pend_eq_withPending (s : State) (r : Instruction) : s.pend r = s.withPending r := rfl

/-! EMIT's writes -/
@[simp] theorem emitRecord_buf (s : State) (r : Instruction) : (s.emitRecord r).buf = s.buf := rfl
@[simp] theorem emitRecord_len (s : State) (r : Instruction) : (s.emitRecord r).len = s.len := rfl
@[simp] theorem emitRecord_base (s : State) (r : Instruction) : (s.emitRecord r).base = s.base := rfl
@[simp] theorem emitRecord_phase (s : State) (r : Instruction) : (s.emitRecord r).phase = .scanning := rfl
@[simp] theorem emitRecord_cursor (s : State) (r : Instruction) : (s.emitRecord r).cursor = s.cursor + r.lengthInWords := rfl
@[simp] theorem emitRecord_pending (s : State) (r : Instruction) : (s.emitRecord r).pending = none := rfl
@[simp] theorem emitRecord_out (s : State) (r : Instruction) : (s.emitRecord r).out = s.out ++ [r] := rfl
@[simp] theorem emitRecord_bsrSlot (s : State) (r : Instruction) : (s.emitRecord r).bsrSlot = s.bsrSlot := rfl

/-! SCAN-END's write -/
@[simp] theorem scanEnd_buf (s : State) : (s.scanEnd).buf = s.buf := rfl
@[simp] theorem scanEnd_len (s : State) : (s.scanEnd).len = s.len := rfl
@[simp] theorem scanEnd_base (s : State) : (s.scanEnd).base = s.base := rfl
@[simp] theorem scanEnd_phase (s : State) : (s.scanEnd).phase = .endOfBuffer := rfl
@[simp] theorem scanEnd_cursor (s : State) : (s.scanEnd).cursor = s.cursor := rfl
@[simp] theorem scanEnd_pending (s : State) : (s.scanEnd).pending = s.pending := rfl
@[simp] theorem scanEnd_out (s : State) : (s.scanEnd).out = s.out := rfl
@[simp] theorem scanEnd_bsrSlot (s : State) : (s.scanEnd).bsrSlot = s.bsrSlot := rfl

/-! START's writes -/
@[simp] theorem start_buf (s : State) (bytes : List Byte) (base : Addr) : (s.start bytes base).buf = Memory.cellsFrom 0 bytes := rfl
@[simp] theorem start_len (s : State) (bytes : List Byte) (base : Addr) : (s.start bytes base).len = bytes.length := rfl
@[simp] theorem start_base (s : State) (bytes : List Byte) (base : Addr) : (s.start bytes base).base = base := rfl
@[simp] theorem start_phase (s : State) (bytes : List Byte) (base : Addr) : (s.start bytes base).phase = if bytes.length % 2 = 1 then .rejected else .scanning := rfl
@[simp] theorem start_cursor (s : State) (bytes : List Byte) (base : Addr) : (s.start bytes base).cursor = 0 := rfl
@[simp] theorem start_pending (s : State) (bytes : List Byte) (base : Addr) : (s.start bytes base).pending = none := rfl
@[simp] theorem start_out (s : State) (bytes : List Byte) (base : Addr) : (s.start bytes base).out = [] := rfl
@[simp] theorem start_bsrSlot (s : State) (bytes : List Byte) (base : Addr) : (s.start bytes base).bsrSlot = s.bsrSlot := rfl

/-! the load of a program -/
@[simp] theorem loadAtCursor_buf (s : State) (ws : List Word) : (s.loadAtCursor ws).buf = Memory.writeAll s.buf (2 * s.cursor) (bytesOfWords ws) := rfl
@[simp] theorem loadAtCursor_len (s : State) (ws : List Word) : (s.loadAtCursor ws).len = max s.len (2 * s.cursor + 2 * ws.length) := rfl
@[simp] theorem loadAtCursor_base (s : State) (ws : List Word) : (s.loadAtCursor ws).base = s.base := rfl
@[simp] theorem loadAtCursor_phase (s : State) (ws : List Word) : (s.loadAtCursor ws).phase = .scanning := rfl
@[simp] theorem loadAtCursor_cursor (s : State) (ws : List Word) : (s.loadAtCursor ws).cursor = s.cursor := rfl
@[simp] theorem loadAtCursor_pending (s : State) (ws : List Word) : (s.loadAtCursor ws).pending = none := rfl
@[simp] theorem loadAtCursor_out (s : State) (ws : List Word) : (s.loadAtCursor ws).out = s.out := rfl
@[simp] theorem loadAtCursor_bsrSlot (s : State) (ws : List Word) : (s.loadAtCursor ws).bsrSlot = s.bsrSlot := rfl

/-! reset -/
@[simp] theorem reset_buf : (reset).buf = [] := rfl
@[simp] theorem reset_len : (reset).len = 0 := rfl
@[simp] theorem reset_base : (reset).base = 0#32 := rfl
@[simp] theorem reset_phase : (reset).phase = .scanning := rfl
@[simp] theorem reset_cursor : (reset).cursor = 0 := rfl
@[simp] theorem reset_pending : (reset).pending = none := rfl
@[simp] theorem reset_out : (reset).out = [] := rfl
@[simp] theorem reset_bsrSlot : (reset).bsrSlot = .data := rfl

/-! The reads see BUF and L only, and the reported address BASE only. -/

theorem byte?_congr {s t : State} (hb : s.buf = t.buf) (hl : s.len = t.len) (i : Nat) : s.byte? i = t.byte? i := by
  simp only [byte?, hb, hl]

theorem word?_congr {s t : State} (hb : s.buf = t.buf) (hl : s.len = t.len) (k : Nat) : s.word? k = t.word? k := by
  simp only [word?, byte?_congr hb hl]

theorem nWords_congr {s t : State} (hl : s.len = t.len) : s.nWords = t.nWords := by
  simp only [nWords, hl]

@[simp] theorem pend_nWords (s : State) (r : Instruction) : (s.pend r).nWords = s.nWords := rfl
@[simp] theorem pend_byte? (s : State) (r : Instruction) (i : Nat) : (s.pend r).byte? i = s.byte? i := rfl
@[simp] theorem pend_word? (s : State) (r : Instruction) (k : Nat) : (s.pend r).word? k = s.word? k := rfl
@[simp] theorem pend_bufWf (s : State) (r : Instruction) : (s.pend r).bufWf = s.bufWf := rfl
@[simp] theorem pend_final (s : State) (r : Instruction) : ¬ (s.pend r).final := by simp [final]
@[simp] theorem withPending_nWords (s : State) (r : Instruction) : (s.withPending r).nWords = s.nWords := rfl
@[simp] theorem withPending_byte? (s : State) (r : Instruction) (i : Nat) : (s.withPending r).byte? i = s.byte? i := rfl
@[simp] theorem withPending_word? (s : State) (r : Instruction) (k : Nat) : (s.withPending r).word? k = s.word? k := rfl
@[simp] theorem withPending_bufWf (s : State) (r : Instruction) : (s.withPending r).bufWf = s.bufWf := rfl
@[simp] theorem withPending_final (s : State) (r : Instruction) : ¬ (s.withPending r).final := by simp [final]
@[simp] theorem emitRecord_nWords (s : State) (r : Instruction) : (s.emitRecord r).nWords = s.nWords := rfl
@[simp] theorem emitRecord_byte? (s : State) (r : Instruction) (i : Nat) : (s.emitRecord r).byte? i = s.byte? i := rfl
@[simp] theorem emitRecord_word? (s : State) (r : Instruction) (k : Nat) : (s.emitRecord r).word? k = s.word? k := rfl
@[simp] theorem emitRecord_bufWf (s : State) (r : Instruction) : (s.emitRecord r).bufWf = s.bufWf := rfl
@[simp] theorem scanEnd_nWords (s : State) : (s.scanEnd).nWords = s.nWords := rfl
@[simp] theorem scanEnd_byte? (s : State) (i : Nat) : (s.scanEnd).byte? i = s.byte? i := rfl
@[simp] theorem scanEnd_word? (s : State) (k : Nat) : (s.scanEnd).word? k = s.word? k := rfl
@[simp] theorem scanEnd_bufWf (s : State) : (s.scanEnd).bufWf = s.bufWf := rfl

end Sys2Proof.Machine.State
end

