-- ==== Sys2Proof/Laws/Reads.lean ====
section
/-! SUPPORT. Sequencing of reads, and what `Ext`, two-Word reads and `rawWords` can answer. -/

namespace Sys2Proof.Machine

open Sys2Proof

/-! ### Sequencing -/

@[simp] theorem Read.ok_bind {α β : Type} (a : α) (f : α → Read β) : ((.ok a : Read α) >>= f) = f a := rfl

@[simp] theorem Read.error_bind {α β : Type} (e : Abort) (f : α → Read β) :
    ((.error e : Read α) >>= f) = .error e := rfl

@[simp] theorem Read.pure_eq {α : Type} (a : α) : (pure a : Read α) = .ok a := rfl

theorem Read.bind_eq_ok {α β : Type} {x : Read α} {f : α → Read β} {b : β} :
    (x >>= f) = .ok b ↔ ∃ a, x = .ok a ∧ f a = .ok b := by
  cases x <;> simp

theorem Read.bind_eq_error {α β : Type} {x : Read α} {f : α → Read β} {e : Abort} :
    (x >>= f) = .error e ↔ x = .error e ∨ ∃ a, x = .ok a ∧ f a = .error e := by
  cases x <;> simp

namespace State

/-! ### Words and extension Words -/

theorem word_eq_ok {s : State} {k : Nat} {w : Word} : s.word k = .ok w ↔ s.word? k = some w := by
  simp only [word]
  cases s.word? k <;> simp

theorem word_eq_error {s : State} {k : Nat} {e : Abort} :
    s.word k = .error e ↔ s.word? k = none ∧ e = .stop (.wordUndefined k) := by
  simp only [word]
  cases s.word? k <;> simp [eq_comm]

/-- `Ext(k)` answers a Word exactly where the buffer holds one. -/
theorem ext_eq_ok {s : State} {k : Nat} {w : Word} : s.ext k = .ok w ↔ s.word? k = some w := by
  simp only [ext]
  split
  · rename_i h
    simp only [reduceCtorEq, false_iff]
    intro hw
    exact absurd (lt_nWords_of_word? hw) (by omega)
  · exact word_eq_ok

/-- `Ext(k)` raises TruncatedBuffer exactly at or past the buffer's end; its only other failure is a hole in `BUF`. -/
theorem ext_eq_error {s : State} {k : Nat} {e : Abort} :
    s.ext k = .error e ↔ (s.nWords ≤ k ∧ e = .raise .truncatedBuffer) ∨
      (k < s.nWords ∧ s.word? k = none ∧ e = .stop (.wordUndefined k)) := by
  simp only [ext]
  split
  · rename_i h
    simp only [Except.error.injEq, h, true_and, Nat.not_lt.2 h, false_and, or_false]
    exact eq_comm
  · rename_i h
    rw [word_eq_error]
    simp only [h, false_and, false_or, Nat.lt_of_not_le h, true_and]

theorem ext_of_le {s : State} {k : Nat} (h : s.nWords ≤ k) : s.ext k = .error (.raise .truncatedBuffer) :=
  ext_eq_error.2 (.inl ⟨h, rfl⟩)

theorem ext_of_bufWf {s : State} (h : s.bufWf = true) {k : Nat} (hk : k < s.nWords) :
    ∃ w, s.word? k = some w ∧ s.ext k = .ok w := by
  obtain ⟨w, hw⟩ := word?_of_bufWf h hk
  exact ⟨w, hw, ext_eq_ok.2 hw⟩

theorem extLong_eq_ok {s : State} {k : Nat} {x : Addr} :
    s.extLong k = .ok x ↔ ∃ h l, s.word? k = some h ∧ s.word? (k + 1) = some l ∧ x = longOfWords h l := by
  simp only [extLong, Read.bind_eq_ok, ext_eq_ok, Read.pure_eq, Except.ok.injEq]
  constructor
  · rintro ⟨h, hh, l, hl, rfl⟩
    exact ⟨h, l, hh, hl, rfl⟩
  · rintro ⟨h, l, hh, hl, rfl⟩
    exact ⟨h, hh, l, hl, rfl⟩

/-! ### What the buffer holds -/

@[simp] theorem holdsAt_nil (s : State) (k : Nat) : s.holdsAt k [] ↔ k ≤ s.nWords := by
  simp [holdsAt]

theorem holdsAt_cons {s : State} {k : Nat} {w : Word} {ws : List Word} :
    s.holdsAt k (w :: ws) ↔ s.word? k = some w ∧ s.holdsAt (k + 1) ws := by
  simp only [holdsAt, List.length_cons]
  constructor
  · rintro ⟨hl, hw⟩
    refine ⟨by simpa using hw 0 (by omega), by omega, fun j hj => ?_⟩
    have := hw (j + 1) (by omega)
    rw [show k + (j + 1) = k + 1 + j by omega] at this
    simpa using this
  · rintro ⟨h0, hl, hw⟩
    refine ⟨by omega, fun j hj => ?_⟩
    cases j with
    | zero => simpa using h0
    | succ j =>
      have := hw j (by omega)
      rw [show k + (j + 1) = k + 1 + j by omega]
      simpa using this

theorem holdsAt_append {s : State} {k : Nat} {ws vs : List Word} :
    s.holdsAt k (ws ++ vs) ↔ s.holdsAt k ws ∧ s.holdsAt (k + ws.length) vs := by
  induction ws generalizing k with
  | nil =>
    simp only [List.nil_append, holdsAt_nil, List.length_nil, Nat.add_zero]
    exact ⟨fun h => ⟨by have := h.1; omega, h⟩, fun h => h.2⟩
  | cons w ws ih =>
    simp only [List.cons_append, holdsAt_cons, ih, List.length_cons, and_assoc]
    rw [show k + 1 + ws.length = k + (ws.length + 1) by omega]

theorem holdsAt_le {s : State} {k : Nat} {ws : List Word} (h : s.holdsAt k ws) : k + ws.length ≤ s.nWords := h.1

/-! ### rawWords -/

theorem words_of_holdsAt {s : State} {k : Nat} {ws : List Word} (h : s.holdsAt k ws) :
    s.words k ws.length = .ok ws := by
  induction ws generalizing k with
  | nil => rfl
  | cons w ws ih =>
    obtain ⟨hw, hws⟩ := holdsAt_cons.1 h
    simp [words, word_eq_ok.2 hw, ih hws]

theorem words_eq_ok {s : State} {c n : Nat} {ws : List Word} (h : s.words c n = .ok ws) (hc : c ≤ s.nWords) :
    ws.length = n ∧ s.holdsAt c ws := by
  induction n generalizing c ws with
  | zero =>
    simp only [words, Except.ok.injEq] at h
    subst h
    exact ⟨rfl, (holdsAt_nil s c).2 hc⟩
  | succ n ih =>
    simp only [words, Read.bind_eq_ok, word_eq_ok, Read.pure_eq, Except.ok.injEq] at h
    obtain ⟨w, hw, vs, hvs, rfl⟩ := h
    obtain ⟨hl, hh⟩ := ih hvs (lt_nWords_of_word? hw)
    exact ⟨by simp [hl], holdsAt_cons.2 ⟨hw, hh⟩⟩

theorem words_eq_error {s : State} {c n : Nat} {e : Abort} (h : s.words c n = .error e) :
    ∃ k, c ≤ k ∧ k < c + n ∧ s.word? k = none ∧ e = .stop (.wordUndefined k) := by
  induction n generalizing c with
  | zero => simp [words] at h
  | succ n ih =>
    simp only [words, Read.bind_eq_error, word_eq_error, Read.pure_eq, reduceCtorEq, and_false, exists_false,
      or_false] at h
    rcases h with ⟨hw, rfl⟩ | ⟨w, -, h⟩
    · exact ⟨c, Nat.le_refl c, by omega, hw, rfl⟩
    · obtain ⟨k, h1, h2, h3⟩ := ih h
      exact ⟨k, by omega, by omega, h3⟩

/-- In a buffer with no hole the Words of any range below `N` are there. -/
theorem words_of_bufWf {s : State} (h : s.bufWf = true) {c n : Nat} (hn : c + n ≤ s.nWords) :
    ∃ ws, s.words c n = .ok ws ∧ ws.length = n ∧ s.holdsAt c ws := by
  cases hw : s.words c n with
  | ok ws => exact ⟨ws, rfl, words_eq_ok hw (by omega)⟩
  | error e =>
    obtain ⟨k, -, h2, h3, -⟩ := words_eq_error hw
    obtain ⟨w, hw⟩ := word?_of_bufWf h (k := k) (by omega)
    simp [h3] at hw

end State

end Sys2Proof.Machine
end

