-- ==== Sys2Proof/Laws/Operands.lean ====
section
/-! SUPPORT. What the resolver and the other operand forms can answer: on success the Words they consumed and the
mode those designate, on failure the reason. -/

namespace Sys2Proof.Machine

open Sys2Proof

namespace State

/-- A read failed because `BUF` holds no byte below `L` where it should: no buffer START latched does this. -/
def isHole (s : State) (e : Abort) : Prop := ∃ k, k < s.nWords ∧ s.word? k = none ∧ e = .stop (.wordUndefined k)

theorem not_isHole_of_bufWf {s : State} (h : s.bufWf = true) (e : Abort) : ¬ s.isHole e := by
  rintro ⟨k, hk, hw, -⟩
  obtain ⟨w, hw'⟩ := word?_of_bufWf h hk
  simp [hw] at hw'

theorem not_isHole_raise (s : State) (r : DataReason) : ¬ s.isHole (.raise r) := by
  rintro ⟨k, -, -, h⟩
  cases h

theorem ext_error_cases {s : State} {k : Nat} {e : Abort} (h : s.ext k = .error e) :
    s.isHole e ∨ (e = .raise .truncatedBuffer ∧ s.nWords < k + 1) := by
  rcases ext_eq_error.1 h with ⟨hk, rfl⟩ | ⟨hk, hw, rfl⟩
  · exact .inr ⟨rfl, by omega⟩
  · exact .inl ⟨k, hk, hw, rfl⟩

theorem extLong_error_cases {s : State} {k : Nat} {e : Abort} (h : s.extLong k = .error e) :
    s.isHole e ∨ (e = .raise .truncatedBuffer ∧ s.nWords < k + 2) := by
  simp only [extLong, Read.bind_eq_error, Read.pure_eq, reduceCtorEq, and_false, exists_false, or_false] at h
  rcases h with h | ⟨w, -, h⟩
  · exact (ext_error_cases h).imp_right fun h => ⟨h.1, by omega⟩
  · exact (ext_error_cases h).imp_right fun h => ⟨h.1, by omega⟩

theorem holdsAt_one {s : State} {k : Nat} {w : Word} : s.holdsAt k [w] ↔ s.word? k = some w := by
  rw [holdsAt_cons, holdsAt_nil]
  exact ⟨fun h => h.1, fun h => ⟨h, lt_nWords_of_word? h⟩⟩

theorem holdsAt_two {s : State} {k : Nat} {w v : Word} :
    s.holdsAt k [w, v] ↔ s.word? k = some w ∧ s.word? (k + 1) = some v := by
  rw [holdsAt_cons, holdsAt_one]

/-! ### ReadImm -/

theorem readImm_ok {s : State} {size : OperandSize} {k v k' : Nat} (h : s.readImm size k = .ok (v, k')) :
    k' = k + immCount size ∧ ∃ ws, ws.length = immCount size ∧ ImmDesignates size ws v ∧ s.holdsAt k ws := by
  cases size with
  | byte =>
    simp only [readImm, Read.bind_eq_ok, ext_eq_ok, Read.pure_eq, Except.ok.injEq, Prod.mk.injEq] at h
    obtain ⟨e, he, rfl, rfl⟩ := h
    exact ⟨rfl, [e], rfl, ⟨e, rfl, lowByte_toNat e⟩, holdsAt_one.2 he⟩
  | word =>
    simp only [readImm, Read.bind_eq_ok, ext_eq_ok, Read.pure_eq, Except.ok.injEq, Prod.mk.injEq] at h
    obtain ⟨e, he, rfl, rfl⟩ := h
    exact ⟨rfl, [e], rfl, ⟨e, rfl, rfl⟩, holdsAt_one.2 he⟩
  | long =>
    simp only [readImm, Read.bind_eq_ok, extLong_eq_ok, Read.pure_eq, Except.ok.injEq, Prod.mk.injEq] at h
    obtain ⟨x, ⟨a, b, ha, hb, rfl⟩, rfl, rfl⟩ := h
    exact ⟨rfl, [a, b], rfl, ⟨a, b, rfl, longOfWords_toNat a b⟩, holdsAt_two.2 ⟨ha, hb⟩⟩

theorem readImm_error {s : State} {size : OperandSize} {k : Nat} {e : Abort} (h : s.readImm size k = .error e) :
    s.isHole e ∨ (e = .raise .truncatedBuffer ∧ s.nWords < k + immCount size) := by
  cases size with
  | byte =>
    simp only [readImm, Read.bind_eq_error, Read.pure_eq, reduceCtorEq, and_false, exists_false, or_false] at h
    exact ext_error_cases h
  | word =>
    simp only [readImm, Read.bind_eq_error, Read.pure_eq, reduceCtorEq, and_false, exists_false, or_false] at h
    exact ext_error_cases h
  | long =>
    simp only [readImm, Read.bind_eq_error, Read.pure_eq, reduceCtorEq, and_false, exists_false, or_false] at h
    exact extLong_error_cases h

theorem immDesignates_lt {size : OperandSize} {ws : List Word} {v : Nat} (h : ImmDesignates size ws v) :
    v < 2 ^ sizeBits size := by
  cases size with
  | byte =>
    obtain ⟨e, -, rfl⟩ := h
    exact Nat.mod_lt _ (by decide)
  | word =>
    obtain ⟨e, -, rfl⟩ := h
    exact e.isLt
  | long =>
    obtain ⟨a, b, -, rfl⟩ := h
    have := a.isLt
    have := b.isLt
    simp only [sizeBits]
    omega

/-! ### Resolve -/

/-- A successful resolution: the Words it consumed lie in the buffer and designate the mode it answers (R103). -/
theorem resolve_ok {s : State} {ea : Ea} {size : OperandSize} {k k' : Nat} {op : Operand} (hk : k ≤ s.nWords)
    (h : s.resolve ea size k = .ok (op, k')) :
    op.size = size ∧ k' = k + eaExtCount size ea ∧
      ∃ ws, ws.length = eaExtCount size ea ∧ EaDesignates ea size ws op.mode ∧ s.holdsAt k ws := by
  have hnil := (holdsAt_nil s k).2 hk
  cases ea with
  | dataReg n | addrReg n | indirect n | postInc n | preDec n =>
    simp only [resolve, Except.ok.injEq, Prod.mk.injEq] at h
    obtain ⟨rfl, rfl⟩ := h
    exact ⟨rfl, rfl, [], rfl, ⟨rfl, rfl⟩, hnil⟩
  | disp16 n | absShort =>
    simp only [resolve, Read.bind_eq_ok, ext_eq_ok, Read.pure_eq, Except.ok.injEq, Prod.mk.injEq] at h
    obtain ⟨e, he, rfl, rfl⟩ := h
    exact ⟨rfl, rfl, [e], rfl, ⟨e, rfl, rfl⟩, holdsAt_one.2 he⟩
  | indexed n =>
    simp only [resolve, Read.bind_eq_ok, ext_eq_ok, Read.pure_eq] at h
    obtain ⟨e, he, h⟩ := h
    split at h
    · simp at h
    · rename_i hb
      simp only [Except.ok.injEq, Prod.mk.injEq] at h
      obtain ⟨rfl, rfl⟩ := h
      refine ⟨rfl, rfl, [e], rfl, ⟨lowByte e, bitAt e 11, bfx e 14 12, bitAt e 15, ?_, ?_⟩, holdsAt_one.2 he⟩
      · rw [← briefUnsupported_eq_false.1 (by simpa using hb)]
        exact congrArg (· :: []) (brief_split e)
      · rfl
  | absLong =>
    simp only [resolve, Read.bind_eq_ok, extLong_eq_ok, Read.pure_eq, Except.ok.injEq, Prod.mk.injEq] at h
    obtain ⟨x, ⟨a, b, ha, hb, rfl⟩, rfl, rfl⟩ := h
    exact ⟨rfl, rfl, [a, b], rfl, ⟨a, b, rfl, rfl⟩, holdsAt_two.2 ⟨ha, hb⟩⟩
  | immediate =>
    simp only [resolve, Read.bind_eq_ok, Read.pure_eq, Except.ok.injEq, Prod.mk.injEq] at h
    obtain ⟨⟨v, k₁⟩, hi, rfl, rfl⟩ := h
    obtain ⟨rfl, ws, hl, hd, hh⟩ := readImm_ok hi
    exact ⟨rfl, rfl, ws, hl, ⟨v, hd, rfl⟩, hh⟩
  | pcDisp | pcIndexed | reserved r => simp [resolve] at h

/-- A failed resolution: a missing Word, or one of the modes outside the subset (R105, R112). -/
theorem resolve_error {s : State} {ea : Ea} {size : OperandSize} {k : Nat} {e : Abort}
    (h : s.resolve ea size k = .error e) :
    s.isHole e ∨ (e = .raise .truncatedBuffer ∧ s.nWords < k + eaExtCount size ea ∧
        ea ≠ .pcDisp ∧ ea ≠ .pcIndexed ∧ ∀ r, ea ≠ .reserved r) ∨
      (e = .raise .unsupportedAddressingMode ∧ (ea = .pcDisp ∨ ea = .pcIndexed ∨ (∃ r, ea = .reserved r) ∨
        ∃ n w, ea = .indexed n ∧ s.word? k = some w ∧ briefUnsupported w = true)) := by
  cases ea with
  | dataReg n | addrReg n | indirect n | postInc n | preDec n => simp [resolve] at h
  | disp16 n | absShort =>
    simp only [resolve, Read.bind_eq_error, Read.pure_eq, reduceCtorEq, and_false, exists_false, or_false] at h
    exact (ext_error_cases h).imp_right fun h => .inl ⟨h.1, h.2, by simp⟩
  | indexed n =>
    simp only [resolve, Read.bind_eq_error, Read.pure_eq] at h
    rcases h with h | ⟨w, hw, h⟩
    · exact (ext_error_cases h).imp_right fun h => .inl ⟨h.1, h.2, by simp⟩
    · split at h
      · rename_i hb
        simp only [Except.error.injEq] at h
        exact .inr (.inr ⟨h.symm, .inr (.inr (.inr ⟨n, w, rfl, ext_eq_ok.1 hw, hb⟩))⟩)
      · simp at h
  | absLong =>
    simp only [resolve, Read.bind_eq_error, Read.pure_eq, reduceCtorEq, and_false, exists_false, or_false] at h
    exact (extLong_error_cases h).imp_right fun h => .inl ⟨h.1, h.2, by simp⟩
  | immediate =>
    simp only [resolve, Read.bind_eq_error, Read.pure_eq, reduceCtorEq, and_false, exists_false, or_false] at h
    exact (readImm_error h).imp_right fun h => .inl ⟨h.1, h.2, by simp⟩
  | pcDisp | pcIndexed =>
    simp only [resolve, Except.error.injEq] at h
    exact .inr (.inr ⟨h.symm, by simp⟩)
  | reserved r =>
    simp only [resolve, Except.error.injEq] at h
    exact .inr (.inr ⟨h.symm, by simp⟩)

theorem eaDesignates_inRange {ea : Ea} {size : OperandSize} {ws : List Word} {m : AddressingMode}
    (h : EaDesignates ea size ws m) : m.inRange = true := by
  cases ea with
  | dataReg n | addrReg n | indirect n | postInc n | preDec n =>
    obtain ⟨-, rfl⟩ := h
    rfl
  | disp16 n =>
    obtain ⟨e, -, rfl⟩ := h
    have h1 := BitVec.le_toInt e
    have h2 := BitVec.toInt_lt (x := e)
    simp only [AddressingMode.inRange, decide_eq_true_eq]
    omega
  | indexed n =>
    obtain ⟨d, l, r, a, -, rfl⟩ := h
    have h1 := BitVec.le_toInt d
    have h2 := BitVec.toInt_lt (x := d)
    simp only [AddressingMode.inRange, decide_eq_true_eq]
    omega
  | absShort =>
    obtain ⟨e, -, rfl⟩ := h
    rfl
  | absLong =>
    obtain ⟨a, b, -, rfl⟩ := h
    rfl
  | immediate =>
    obtain ⟨v, hv, rfl⟩ := h
    simp only [AddressingMode.inRange, decide_eq_true_eq]
    exact immDesignates_lt hv
  | pcDisp | pcIndexed | reserved r => exact h.elim

/-! ### The branch displacement -/

theorem branchDisp_ok {s : State} {b : Byte} {k k' : Nat} {d : Int} {width : OperandSize}
    (h : s.branchDisp b k = .ok (d, width, k')) (hk : k ≤ s.nWords) :
    k' = k + branchCount b ∧ k' ≤ s.nWords := by
  simp only [branchDisp] at h
  simp only [branchCount]
  split at h
  · rename_i h0
    rw [if_pos h0]
    simp only [Read.bind_eq_ok, ext_eq_ok, Read.pure_eq, Except.ok.injEq, Prod.mk.injEq] at h
    obtain ⟨e, he, -, -, rfl⟩ := h
    exact ⟨rfl, lt_nWords_of_word? he⟩
  · rename_i h0
    rw [if_neg h0]
    split at h
    · rename_i hff
      rw [if_pos hff]
      simp only [Read.bind_eq_ok, extLong_eq_ok, Read.pure_eq, Except.ok.injEq, Prod.mk.injEq] at h
      obtain ⟨x, ⟨a, c, -, hc, -⟩, -, -, rfl⟩ := h
      exact ⟨rfl, lt_nWords_of_word? hc⟩
    · rename_i hff
      rw [if_neg hff]
      simp only [Except.ok.injEq, Prod.mk.injEq] at h
      obtain ⟨-, -, rfl⟩ := h
      exact ⟨rfl, hk⟩

theorem branchDisp_error {s : State} {b : Byte} {k : Nat} {e : Abort} (h : s.branchDisp b k = .error e) :
    s.isHole e ∨ (e = .raise .truncatedBuffer ∧ s.nWords < k + branchCount b) := by
  simp only [branchDisp] at h
  simp only [branchCount]
  split at h
  · rename_i h0
    rw [if_pos h0]
    simp only [Read.bind_eq_error, Read.pure_eq, reduceCtorEq, and_false, exists_false, or_false] at h
    exact ext_error_cases h
  · rename_i h0
    rw [if_neg h0]
    split at h
    · rename_i hff
      rw [if_pos hff]
      simp only [Read.bind_eq_error, Read.pure_eq, reduceCtorEq, and_false, exists_false, or_false] at h
      exact extLong_error_cases h
    · simp at h

end State

end Sys2Proof.Machine
end

