-- ==== Sys2Proof/Laws/Exec.lean ====
section
/-! SUPPORT. Every meaning is the shared end of a decode applied to its form's rule, and what that can answer. -/

namespace Sys2Proof.Machine

open Sys2Proof

/-- `DecodeForm(form, w, c, c + 1)` of every instruction at the cursor, gathered from the meanings (R107). -/
def formDecode (i : Instr) (s : State) : Read Decoded :=
  match i with
  | .move size src dst => do
    let (a, k) ← s.resolve src size (s.cursor + 1)
    let (b, k) ← s.resolve dst size k
    return { mnemonic := .MOVE, operands := [a, b], size := some size, condition := none, next := k }
  | .movea size ea an =>
    s.decodeEaThen .MOVEA (some size.toSize) ea size.toSize (anOperand an size.toSize) (s.cursor + 1)
  | .movemR2M size ea => do
    let (list, op, k) ← s.decodeMovem size ea (s.cursor + 1)
    return { mnemonic := .MOVEM, operands := [list, op], size := some size.toSize, condition := none, next := k }
  | .movemM2R size ea => do
    let (list, op, k) ← s.decodeMovem size ea (s.cursor + 1)
    return { mnemonic := .MOVEM, operands := [op, list], size := some size.toSize, condition := none, next := k }
  | .addToDn size dn ea => s.decodeEaThen .ADD (some size) ea size (dnOperand dn size) (s.cursor + 1)
  | .addToEa size dn ea => s.decodeThenEa .ADD size (dnOperand dn size) ea (s.cursor + 1)
  | .adda size an ea =>
    s.decodeEaThen .ADDA (some size.toSize) ea size.toSize (anOperand an size.toSize) (s.cursor + 1)
  | .subToDn size dn ea => s.decodeEaThen .SUB (some size) ea size (dnOperand dn size) (s.cursor + 1)
  | .subToEa size dn ea => s.decodeThenEa .SUB size (dnOperand dn size) ea (s.cursor + 1)
  | .subq size data ea => s.decodeThenEa .SUBQ size (quickOperand data size) ea (s.cursor + 1)
  | .muls dn ea => s.decodeEaThen .MULS (some .word) ea .word (dnOperand dn .word) (s.cursor + 1)
  | .divs dn ea => s.decodeEaThen .DIVS (some .word) ea .word (dnOperand dn .word) (s.cursor + 1)
  | .lea an ea => s.decodeEaThen .LEA none ea .long (anOperand an .long) (s.cursor + 1)
  | .orToDn size dn ea => s.decodeEaThen .OR (some size) ea size (dnOperand dn size) (s.cursor + 1)
  | .orToEa size dn ea => s.decodeThenEa .OR size (dnOperand dn size) ea (s.cursor + 1)
  | .ori size ea => s.decodeImmThenEa .ORI size ea (s.cursor + 1)
  | .neg size ea => s.decodeEaOnly .NEG (some size) ea size (s.cursor + 1)
  | .eor size dn ea => s.decodeThenEa .EOR size (dnOperand dn size) ea (s.cursor + 1)
  | .asrReg size count dy => .ok (decodeShiftReg .ASR size count dy (s.cursor + 1))
  | .aslReg size count dy => .ok (decodeShiftReg .ASL size count dy (s.cursor + 1))
  | .lsrReg size count dy => .ok (decodeShiftReg .LSR size count dy (s.cursor + 1))
  | .lslReg size count dy => .ok (decodeShiftReg .LSL size count dy (s.cursor + 1))
  | .rorReg size count dy => .ok (decodeShiftReg .ROR size count dy (s.cursor + 1))
  | .rolReg size count dy => .ok (decodeShiftReg .ROL size count dy (s.cursor + 1))
  | .asrMem ea => s.decodeEaOnly .ASR (some .word) ea .word (s.cursor + 1)
  | .aslMem ea => s.decodeEaOnly .ASL (some .word) ea .word (s.cursor + 1)
  | .lsrMem ea => s.decodeEaOnly .LSR (some .word) ea .word (s.cursor + 1)
  | .lslMem ea => s.decodeEaOnly .LSL (some .word) ea .word (s.cursor + 1)
  | .rorMem ea => s.decodeEaOnly .ROR (some .word) ea .word (s.cursor + 1)
  | .rolMem ea => s.decodeEaOnly .ROL (some .word) ea .word (s.cursor + 1)
  | .bclr ea => do
    let e ← s.ext (s.cursor + 1)
    let (dst, k) ← s.resolve ea (bclrEaSize ea) (s.cursor + 2)
    return { mnemonic := .BCLR, operands := [⟨.immediate (lowByte e).toNat .byte, .byte⟩, dst],
             size := none, condition := none, next := k }
  | .cmp size dn ea => s.decodeEaThen .CMP (some size) ea size (dnOperand dn size) (s.cursor + 1)
  | .cmpi size ea => s.decodeImmThenEa .CMPI size ea (s.cursor + 1)
  | .bra b => s.decodeBranch .BRA (conditionOf 0b0000#4) b s.cursor (s.cursor + 1)
  | .bcc cond b => s.decodeBranch .Bcc (conditionOf cond) b s.cursor (s.cursor + 1)
  | .jsr ea => s.decodeEaOnly .JSR none ea .long (s.cursor + 1)
  | .rts => .ok { mnemonic := .RTS, operands := [], size := none, condition := none, next := s.cursor + 1 }

/-- Every meaning is the shared end of a decode. -/
theorem exec_eq_finish (i : Instr) (s : State) : exec i s = s.finish (formDecode i s) := by
  cases i <;> rfl

/-! ### What a form's rule can answer -/

/-- What every form's rule guarantees of the record it answers: `n` extension Words consumed, all in the buffer; at
most two operands, each in its range. -/
structure DecodedOk (s : State) (k n : Nat) (mn : Mnemonic) (d : Decoded) : Prop where
  next_eq : d.next = k + n
  next_le : d.next ≤ s.nWords
  mnemonic_eq : d.mnemonic = mn
  operands_le : d.operands.length ≤ 2
  inRange : ∀ op ∈ d.operands, op.mode.inRange = true

/-- Why a form's rule can fail: a hole in the buffer, a missing Word, or a mode outside the subset. -/
def FormFailure (s : State) (k n : Nat) (hasEa : Prop) (e : Abort) : Prop :=
  s.isHole e ∨ (e = .raise .truncatedBuffer ∧ s.nWords < k + n) ∨ (e = .raise .unsupportedAddressingMode ∧ hasEa)

theorem resolve_next_le {s : State} {ea : Ea} {size : OperandSize} {k k' : Nat} {op : Operand} (hk : k ≤ s.nWords)
    (h : s.resolve ea size k = .ok (op, k')) :
    k' = k + eaExtCount size ea ∧ k' ≤ s.nWords ∧ op.mode.inRange = true := by
  obtain ⟨-, rfl, ws, hl, hd, hh⟩ := State.resolve_ok hk h
  exact ⟨rfl, by have := State.holdsAt_le hh; omega, State.eaDesignates_inRange hd⟩

theorem resolve_failure {s : State} {ea : Ea} {size : OperandSize} {k : Nat} {e : Abort} (n : Nat)
    (h : s.resolve ea size k = .error e) : FormFailure s k (eaExtCount size ea + n) True e := by
  rcases State.resolve_error h with h | h | h
  · exact .inl h
  · exact .inr (.inl ⟨h.1, by omega⟩)
  · exact .inr (.inr ⟨h.1, trivial⟩)

theorem decodeEaThen_ok {s : State} {mn : Mnemonic} {sz : Option OperandSize} {ea : Ea} {easz : OperandSize}
    {dst : Operand} {k : Nat} {d : Decoded} (hk : k ≤ s.nWords) (hdst : dst.mode.inRange = true)
    (h : s.decodeEaThen mn sz ea easz dst k = .ok d) :
    DecodedOk s k (eaExtCount easz ea) mn d ∧ d.condition = none := by
  simp only [State.decodeEaThen, Read.bind_eq_ok, Read.pure_eq, Except.ok.injEq] at h
  obtain ⟨⟨op, k'⟩, hr, rfl⟩ := h
  obtain ⟨h1, h2, h3⟩ := resolve_next_le hk hr
  exact ⟨⟨h1, h2, rfl, Nat.le_refl 2, by simp [h3, hdst]⟩, rfl⟩

theorem decodeEaThen_error {s : State} {mn : Mnemonic} {sz : Option OperandSize} {ea : Ea} {easz : OperandSize}
    {dst : Operand} {k : Nat} {e : Abort} (h : s.decodeEaThen mn sz ea easz dst k = .error e) :
    FormFailure s k (eaExtCount easz ea) True e := by
  simp only [State.decodeEaThen, Read.bind_eq_error, Read.pure_eq, reduceCtorEq, and_false, exists_false,
    or_false] at h
  exact resolve_failure 0 h

theorem decodeThenEa_ok {s : State} {mn : Mnemonic} {size : OperandSize} {src : Operand} {ea : Ea} {k : Nat}
    {d : Decoded} (hk : k ≤ s.nWords) (hsrc : src.mode.inRange = true)
    (h : s.decodeThenEa mn size src ea k = .ok d) :
    DecodedOk s k (eaExtCount size ea) mn d ∧ d.condition = none := by
  simp only [State.decodeThenEa, Read.bind_eq_ok, Read.pure_eq, Except.ok.injEq] at h
  obtain ⟨⟨op, k'⟩, hr, rfl⟩ := h
  obtain ⟨h1, h2, h3⟩ := resolve_next_le hk hr
  exact ⟨⟨h1, h2, rfl, Nat.le_refl 2, by simp [h3, hsrc]⟩, rfl⟩

theorem decodeThenEa_error {s : State} {mn : Mnemonic} {size : OperandSize} {src : Operand} {ea : Ea} {k : Nat}
    {e : Abort} (h : s.decodeThenEa mn size src ea k = .error e) : FormFailure s k (eaExtCount size ea) True e := by
  simp only [State.decodeThenEa, Read.bind_eq_error, Read.pure_eq, reduceCtorEq, and_false, exists_false,
    or_false] at h
  exact resolve_failure 0 h

theorem decodeEaOnly_ok {s : State} {mn : Mnemonic} {sz : Option OperandSize} {ea : Ea} {easz : OperandSize}
    {k : Nat} {d : Decoded} (hk : k ≤ s.nWords) (h : s.decodeEaOnly mn sz ea easz k = .ok d) :
    DecodedOk s k (eaExtCount easz ea) mn d ∧ d.condition = none := by
  simp only [State.decodeEaOnly, Read.bind_eq_ok, Read.pure_eq, Except.ok.injEq] at h
  obtain ⟨⟨op, k'⟩, hr, rfl⟩ := h
  obtain ⟨h1, h2, h3⟩ := resolve_next_le hk hr
  exact ⟨⟨h1, h2, rfl, by simp, by simp [h3]⟩, rfl⟩

theorem decodeEaOnly_error {s : State} {mn : Mnemonic} {sz : Option OperandSize} {ea : Ea} {easz : OperandSize}
    {k : Nat} {e : Abort} (h : s.decodeEaOnly mn sz ea easz k = .error e) :
    FormFailure s k (eaExtCount easz ea) True e := by
  simp only [State.decodeEaOnly, Read.bind_eq_error, Read.pure_eq, reduceCtorEq, and_false, exists_false,
    or_false] at h
  exact resolve_failure 0 h

theorem readImm_next_le {s : State} {size : OperandSize} {k v k' : Nat} (h : s.readImm size k = .ok (v, k')) :
    k' = k + immCount size ∧ k' ≤ s.nWords ∧ v < 2 ^ sizeBits size := by
  obtain ⟨rfl, ws, hl, hd, hh⟩ := State.readImm_ok h
  exact ⟨rfl, by have := State.holdsAt_le hh; omega, State.immDesignates_lt hd⟩

theorem decodeImmThenEa_ok {s : State} {mn : Mnemonic} {size : OperandSize} {ea : Ea} {k : Nat} {d : Decoded}
    (h : s.decodeImmThenEa mn size ea k = .ok d) :
    DecodedOk s k (immCount size + eaExtCount size ea) mn d ∧ d.condition = none := by
  simp only [State.decodeImmThenEa, Read.bind_eq_ok] at h
  obtain ⟨⟨v, k'⟩, hi, h⟩ := h
  obtain ⟨rfl, h2, h3⟩ := readImm_next_le hi
  obtain ⟨h4, h5⟩ := decodeThenEa_ok h2 (by simpa [AddressingMode.inRange] using h3) h
  exact ⟨⟨by rw [h4.next_eq]; omega, h4.next_le, h4.mnemonic_eq, h4.operands_le, h4.inRange⟩, h5⟩

theorem decodeImmThenEa_error {s : State} {mn : Mnemonic} {size : OperandSize} {ea : Ea} {k : Nat} {e : Abort}
    (h : s.decodeImmThenEa mn size ea k = .error e) :
    FormFailure s k (immCount size + eaExtCount size ea) True e := by
  simp only [State.decodeImmThenEa, Read.bind_eq_error] at h
  rcases h with h | ⟨⟨v, k'⟩, hi, h⟩
  · exact (State.readImm_error h).imp_right fun h => .inl ⟨h.1, by omega⟩
  · obtain ⟨rfl, -, -⟩ := readImm_next_le hi
    rcases decodeThenEa_error h with h | h | h
    · exact .inl h
    · exact .inr (.inl ⟨h.1, by omega⟩)
    · exact .inr (.inr h)

theorem decodeMovem_ok {s : State} {size : WordOrLong} {ea : Ea} {k k' : Nat} {list op : Operand}
    (h : s.decodeMovem size ea k = .ok (list, op, k')) :
    k' = k + (1 + eaExtCount size.toSize ea) ∧ k' ≤ s.nWords ∧ list.mode.inRange = true ∧
      op.mode.inRange = true := by
  simp only [State.decodeMovem, Read.bind_eq_ok, State.ext_eq_ok, Read.pure_eq, Except.ok.injEq, Prod.mk.injEq] at h
  obtain ⟨m, hm, ⟨op', k₁⟩, hr, rfl, rfl, rfl⟩ := h
  obtain ⟨h1, h2, h3⟩ := resolve_next_le (State.lt_nWords_of_word? hm) hr
  exact ⟨by omega, h2, rfl, h3⟩

theorem decodeMovem_error {s : State} {size : WordOrLong} {ea : Ea} {k : Nat} {e : Abort}
    (h : s.decodeMovem size ea k = .error e) : FormFailure s k (1 + eaExtCount size.toSize ea) True e := by
  simp only [State.decodeMovem, Read.bind_eq_error, Read.pure_eq, reduceCtorEq, and_false, exists_false,
    or_false] at h
  rcases h with h | ⟨m, -, h⟩
  · exact (State.ext_error_cases h).imp_right fun h => .inl ⟨h.1, by omega⟩
  · rcases resolve_failure 0 h with h | h | h
    · exact .inl h
    · exact .inr (.inl ⟨h.1, by omega⟩)
    · exact .inr (.inr h)

theorem decodeBranch_ok {s : State} {mn : Mnemonic} {cond : Condition} {b : Byte} {c k : Nat} {d : Decoded}
    (hk : k ≤ s.nWords) (h : s.decodeBranch mn cond b c k = .ok d) :
    DecodedOk s k (branchCount b) mn d ∧ d.condition = some cond := by
  simp only [State.decodeBranch, Read.bind_eq_ok, Read.pure_eq, Except.ok.injEq] at h
  obtain ⟨⟨disp, width, k'⟩, hb, rfl⟩ := h
  obtain ⟨h1, h2⟩ := State.branchDisp_ok hb hk
  exact ⟨⟨h1, h2, rfl, by simp, by simp [AddressingMode.inRange]⟩, rfl⟩

theorem decodeBranch_error {s : State} {mn : Mnemonic} {cond : Condition} {b : Byte} {c k : Nat} {e : Abort}
    (h : s.decodeBranch mn cond b c k = .error e) : FormFailure s k (branchCount b) False e := by
  simp only [State.decodeBranch, Read.bind_eq_error, Read.pure_eq, reduceCtorEq, and_false, exists_false,
    or_false] at h
  exact (State.branchDisp_error h).imp_right .inl

theorem shiftCountOperand_inRange (count : ShiftCount) (size : OperandSize) :
    (shiftCountOperand count size).mode.inRange = true := by
  cases count with
  | inReg n => rfl
  | quick q =>
    have h : quickValue q ≤ 8 := by
      simp only [quickValue]
      split
      · exact Nat.le_refl 8
      · have := q.isLt
        omega
    have h2 : 8 < 2 ^ sizeBits size := by cases size <;> decide
    simp only [shiftCountOperand, quickOperand, AddressingMode.inRange, decide_eq_true_eq]
    omega

theorem quickOperand_inRange (q : Field3) (size : OperandSize) : (quickOperand q size).mode.inRange = true :=
  shiftCountOperand_inRange (.quick q) size

/-- What every form's rule answers on success (R30, R62, R110). -/
theorem formDecode_ok {i : Instr} {s : State} {d : Decoded} (hc : s.cursor < s.nWords)
    (h : formDecode i s = .ok d) :
    DecodedOk s (s.cursor + 1) (instrExtCount i) (instrMnemonic i) d ∧
      (d.condition ≠ none → i.form = .branch) := by
  have hk : s.cursor + 1 ≤ s.nWords := hc
  cases i with
  | move size src dst =>
    simp only [formDecode, Read.bind_eq_ok, Read.pure_eq, Except.ok.injEq] at h
    obtain ⟨⟨a, k₁⟩, ha, ⟨b, k₂⟩, hb, rfl⟩ := h
    obtain ⟨h1, h2, h3⟩ := resolve_next_le hk ha
    obtain ⟨h4, h5, h6⟩ := resolve_next_le h2 hb
    exact ⟨⟨by simp only [instrExtCount]; omega, h5, rfl, by simp, by simp [h3, h6]⟩, by simp⟩
  | movemR2M size ea | movemM2R size ea =>
    simp only [formDecode, Read.bind_eq_ok, Read.pure_eq, Except.ok.injEq] at h
    obtain ⟨⟨list, op, k₁⟩, ha, rfl⟩ := h
    obtain ⟨h1, h2, h3, h4⟩ := decodeMovem_ok ha
    exact ⟨⟨h1, h2, rfl, by simp, by simp [h3, h4]⟩, by simp⟩
  | movea size ea an | adda size an ea | addToDn size dn ea | subToDn size dn ea | orToDn size dn ea | cmp size dn ea
  | muls dn ea | divs dn ea | lea an ea =>
    obtain ⟨h1, h2⟩ := decodeEaThen_ok hk rfl h
    exact ⟨h1, by simp [h2]⟩
  | addToEa size dn ea | subToEa size dn ea | orToEa size dn ea | eor size dn ea =>
    obtain ⟨h1, h2⟩ := decodeThenEa_ok hk rfl h
    exact ⟨h1, by simp [h2]⟩
  | subq size data ea =>
    obtain ⟨h1, h2⟩ := decodeThenEa_ok hk (quickOperand_inRange data size) h
    exact ⟨h1, by simp [h2]⟩
  | ori size ea | cmpi size ea =>
    obtain ⟨h1, h2⟩ := decodeImmThenEa_ok h
    exact ⟨h1, by simp [h2]⟩
  | neg size ea | jsr ea | asrMem ea | aslMem ea | lsrMem ea | lslMem ea | rorMem ea | rolMem ea =>
    obtain ⟨h1, h2⟩ := decodeEaOnly_ok hk h
    exact ⟨h1, by simp [h2]⟩
  | asrReg size count dy | aslReg size count dy | lsrReg size count dy | lslReg size count dy | rorReg size count dy
  | rolReg size count dy =>
    simp only [formDecode, Except.ok.injEq] at h
    subst h
    refine ⟨⟨rfl, hk, rfl, Nat.le_refl 2, ?_⟩, by simp [decodeShiftReg]⟩
    simp only [decodeShiftReg, List.mem_cons, List.not_mem_nil, or_false, forall_eq_or_imp, forall_eq]
    exact ⟨shiftCountOperand_inRange count size, rfl⟩
  | bclr ea =>
    simp only [formDecode, Read.bind_eq_ok, State.ext_eq_ok, Read.pure_eq, Except.ok.injEq] at h
    obtain ⟨e, he, ⟨op, k₁⟩, hr, rfl⟩ := h
    obtain ⟨h1, h2, h3⟩ := resolve_next_le (State.lt_nWords_of_word? he) hr
    refine ⟨⟨by simp only [instrExtCount]; omega, h2, rfl, by simp, ?_⟩, by simp⟩
    simp only [List.mem_cons, List.not_mem_nil, or_false, forall_eq_or_imp, forall_eq]
    exact ⟨decide_eq_true (lowByte e).isLt, h3⟩
  | bra b | bcc cond b =>
    obtain ⟨h1, -⟩ := decodeBranch_ok hk h
    exact ⟨h1, fun _ => rfl⟩
  | rts =>
    simp only [formDecode, Except.ok.injEq] at h
    subst h
    exact ⟨⟨rfl, hk, rfl, by simp, by simp⟩, by simp⟩

/-- How every form's rule can fail (R145). -/
theorem formDecode_error {i : Instr} {s : State} {e : Abort} (hc : s.cursor < s.nWords)
    (h : formDecode i s = .error e) : FormFailure s (s.cursor + 1) (instrExtCount i) (i.ea? ≠ none) e := by
  have hk : s.cursor + 1 ≤ s.nWords := hc
  have weaken : ∀ {n : Nat} {p : Prop}, p → FormFailure s (s.cursor + 1) n True e →
      FormFailure s (s.cursor + 1) n p e := fun hp h => h.imp_right (Or.imp_right fun h => ⟨h.1, hp⟩)
  cases i with
  | move size src dst =>
    simp only [formDecode, Read.bind_eq_error, Read.pure_eq, reduceCtorEq, and_false, exists_false, or_false] at h
    rcases h with h | ⟨⟨a, k₁⟩, ha, h⟩
    · exact weaken (by simp [Instr.ea?]) (resolve_failure _ h)
    · obtain ⟨h1, -, -⟩ := resolve_next_le hk ha
      simp only at h
      rcases resolve_failure 0 h with h | h | h
      · exact .inl h
      · exact .inr (.inl ⟨h.1, by simp only [instrExtCount]; omega⟩)
      · exact .inr (.inr ⟨h.1, by simp [Instr.ea?]⟩)
  | movemR2M size ea | movemM2R size ea =>
    simp only [formDecode, Read.bind_eq_error, Read.pure_eq, reduceCtorEq, and_false, exists_false, or_false] at h
    exact weaken (by simp [Instr.ea?]) (decodeMovem_error h)
  | movea size ea an | adda size an ea | addToDn size dn ea | subToDn size dn ea | orToDn size dn ea | cmp size dn ea
  | muls dn ea | divs dn ea | lea an ea =>
    exact weaken (by simp [Instr.ea?]) (decodeEaThen_error h)
  | addToEa size dn ea | subToEa size dn ea | orToEa size dn ea | eor size dn ea | subq size data ea =>
    exact weaken (by simp [Instr.ea?]) (decodeThenEa_error h)
  | ori size ea | cmpi size ea => exact weaken (by simp [Instr.ea?]) (decodeImmThenEa_error h)
  | neg size ea | jsr ea | asrMem ea | aslMem ea | lsrMem ea | lslMem ea | rorMem ea | rolMem ea =>
    exact weaken (by simp [Instr.ea?]) (decodeEaOnly_error h)
  | asrReg size count dy | aslReg size count dy | lsrReg size count dy | lslReg size count dy | rorReg size count dy
  | rolReg size count dy | rts => simp [formDecode] at h
  | bclr ea =>
    simp only [formDecode, Read.bind_eq_error, Read.pure_eq, reduceCtorEq, and_false, exists_false, or_false] at h
    rcases h with h | ⟨e', -, h⟩
    · exact (State.ext_error_cases h).imp_right fun h => .inl ⟨h.1, by simp only [instrExtCount]; omega⟩
    · rcases resolve_failure 0 h with h | h | h
      · exact .inl h
      · exact .inr (.inl ⟨h.1, by simp only [instrExtCount]; omega⟩)
      · exact .inr (.inr ⟨h.1, by simp [Instr.ea?]⟩)
  | bra b | bcc cond b =>
    exact (decodeBranch_error h).imp_right (Or.imp_right fun h => h.2.elim)

/-! ### What the end of a decode can answer -/

/-- The one inversion of a meaning: it leaves a record pending, the form's record or the DATA record (R107, R108). -/
theorem finish_next {s t : State} {d : Read Decoded} (h : s.finish d = .next t) :
    (∃ x raw, d = .ok x ∧ s.words s.cursor (x.next - s.cursor) = .ok raw ∧
        t = s.pend (s.recordOf s.cursor x raw)) ∨
      (∃ r w, d = .error (.raise r) ∧ s.word? s.cursor = some w ∧ t = s.pend (s.dataRecord s.cursor w r)) := by
  cases d with
  | ok x =>
    simp only [State.finish] at h
    cases hw : s.words s.cursor (x.next - s.cursor) with
    | ok raw =>
      simp only [hw, Host.Outcome.next.injEq] at h
      exact .inl ⟨x, raw, rfl, hw, h.symm⟩
    | error e =>
      obtain ⟨k, -, -, -, rfl⟩ := State.words_eq_error hw
      simp [hw] at h
  | error e =>
    cases e with
    | raise r =>
      simp only [State.finish, State.takeData] at h
      cases hw : s.word? s.cursor with
      | none => simp [hw] at h
      | some w =>
        simp only [hw, Host.Outcome.next.injEq] at h
        exact .inr ⟨r, w, rfl, rfl, h.symm⟩
    | stop f => simp [State.finish] at h

/-- Every meaning writes PENDING and STATE and nothing else. -/
theorem exec_pends {i : Instr} {s t : State} (h : exec i s = .next t) : ∃ r, t = s.pend r := by
  rw [exec_eq_finish] at h
  rcases finish_next h with ⟨x, raw, -, -, rfl⟩ | ⟨r, w, -, -, rfl⟩
  · exact ⟨_, rfl⟩
  · exact ⟨_, rfl⟩

theorem finish_ok {s : State} {x : Decoded} {raw : List Word} (h : s.holdsAt s.cursor raw)
    (hn : x.next = s.cursor + raw.length) : s.finish (.ok x) = .next (s.pend (s.recordOf s.cursor x raw)) := by
  have hw := State.words_of_holdsAt h
  rw [show raw.length = x.next - s.cursor by omega] at hw
  simp [State.finish, hw]

theorem finish_raise {s : State} {r : DataReason} {w : Word} (h : s.word? s.cursor = some w) :
    s.finish (.error (.raise r)) = .next (s.pend (s.dataRecord s.cursor w r)) := by
  simp [State.finish, State.takeData, h]

theorem addressOf_eq (s : State) (c : Nat) : s.addressOf c = BitVec.ofNat 32 (s.base.toNat + 2 * c) := by
  simp only [State.addressOf]
  exact_mod_cast mod32_natCast (s.base.toNat + 2 * c)

theorem dataRecord_eq_dataAt (s : State) (w : Word) (r : DataReason) :
    s.dataRecord s.cursor w r = s.dataAt w r := by
  simp only [State.dataRecord, State.dataAt, addressOf_eq]

end Sys2Proof.Machine
end

