-- ==== Sys2Proof/Laws/Shift.lean ====
section
/-! SUPPORT. Two buffers that agree from a Word on give the same decodes there: what a decode reads, and the base of the
agreement of a segment's run with the whole run (R37, R109, R160). -/

namespace Sys2Proof.Machine

open Sys2Proof

/-- From Word `k0` on, Word `j` of `s'` is Word `b + j` of `s`. -/
structure Agree (s s' : State) (b k0 : Nat) : Prop where
  nWords : s.nWords = b + s'.nWords
  word : ∀ j, k0 ≤ j → s.word? (b + j) = s'.word? j

/-- A fault's Word index moved by `b`. -/
def Abort.shift (b : Nat) : Abort → Abort
  | .raise r => .raise r
  | .stop (.wordUndefined k) => .stop (.wordUndefined (b + k))
  | .stop .pendingMissing => .stop .pendingMissing

/-- A read's answer with `f` applied to its value and its fault moved by `b`. -/
def Read.shift {α : Type} (b : Nat) (f : α → α) : Read α → Read α
  | .ok a => .ok (f a)
  | .error e => .error (e.shift b)

@[simp] theorem Read.shift_ok {α : Type} (b : Nat) (f : α → α) (a : α) : Read.shift b f (.ok a) = .ok (f a) := rfl

@[simp] theorem Read.shift_error {α : Type} (b : Nat) (f : α → α) (e : Abort) :
    Read.shift b f (.error e) = .error (e.shift b) := rfl

theorem Read.shift_bind {α β : Type} {b : Nat} {f : α → α} {g : β → β} {x : Read α} {h h' : α → Read β}
    (hh : ∀ a, x = .ok a → h (f a) = Read.shift b g (h' a)) :
    (Read.shift b f x >>= h) = Read.shift b g (x >>= h') := by
  cases x with
  | ok a => exact hh a rfl
  | error e => rfl

variable {s s' : State} {b k0 : Nat}

theorem Agree.ext (ha : Agree s s' b k0) {k : Nat} (hk : k0 ≤ k) : s.ext (b + k) = Read.shift b id (s'.ext k) := by
  simp only [State.ext, State.word, ha.nWords, ha.word k hk]
  by_cases h : s'.nWords ≤ k
  · rw [if_pos h, if_pos (by omega)]
    rfl
  · rw [if_neg h, if_neg (by omega)]
    cases s'.word? k <;> rfl

theorem Agree.extLong (ha : Agree s s' b k0) {k : Nat} (hk : k0 ≤ k) :
    s.extLong (b + k) = Read.shift b id (s'.extLong k) := by
  simp only [State.extLong]
  rw [ha.ext hk]
  apply Read.shift_bind
  intro h _
  rw [show b + k + 1 = b + (k + 1) by omega, ha.ext (by omega)]
  exact Read.shift_bind fun l _ => rfl

theorem Agree.words (ha : Agree s s' b k0) {c : Nat} (n : Nat) (hc : k0 ≤ c) :
    s.words (b + c) n = Read.shift b id (s'.words c n) := by
  induction n generalizing c with
  | zero => rfl
  | succ n ih =>
    have hw : s.word (b + c) = Read.shift b id (s'.word c) := by
      simp only [State.word, ha.word c hc]
      cases s'.word? c <;> rfl
    simp only [State.words]
    rw [hw]
    apply Read.shift_bind
    intro w _
    rw [show b + c + 1 = b + (c + 1) by omega, ih (by omega)]
    exact Read.shift_bind fun ws _ => rfl

theorem Agree.readImm (ha : Agree s s' b k0) (size : OperandSize) {k : Nat} (hk : k0 ≤ k) :
    s.readImm size (b + k) = Read.shift b (fun p => (p.1, b + p.2)) (s'.readImm size k) := by
  cases size <;> simp only [State.readImm] <;>
    first
    | rw [ha.ext hk]; exact Read.shift_bind fun e _ => rfl
    | rw [ha.extLong hk]; exact Read.shift_bind fun e _ => rfl

theorem Agree.resolve (ha : Agree s s' b k0) (ea : Ea) (size : OperandSize) {k : Nat} (hk : k0 ≤ k) :
    s.resolve ea size (b + k) = Read.shift b (fun p => (p.1, b + p.2)) (s'.resolve ea size k) := by
  cases ea with
  | dataReg n | addrReg n | indirect n | postInc n | preDec n | pcDisp | pcIndexed | reserved r => rfl
  | disp16 n | absShort =>
    simp only [State.resolve]
    rw [ha.ext hk]
    exact Read.shift_bind fun e _ => rfl
  | indexed n =>
    simp only [State.resolve]
    rw [ha.ext hk]
    apply Read.shift_bind
    intro e _
    simp only [id]
    split <;> rfl
  | absLong =>
    simp only [State.resolve]
    rw [ha.extLong hk]
    exact Read.shift_bind fun e _ => rfl
  | immediate =>
    simp only [State.resolve]
    rw [ha.readImm size hk]
    exact Read.shift_bind fun p _ => rfl

/-- A form's rule on agreeing buffers answers the same, with the index moved. -/
def Decoded.shift (b : Nat) (d : Decoded) : Decoded := { d with next := b + d.next }

theorem readImm_ge {size : OperandSize} {k : Nat} {p : Nat × Nat} (h : s.readImm size k = .ok p) : k ≤ p.2 := by
  have := (State.readImm_ok (v := p.1) (k' := p.2) h).1
  omega

theorem resolve_ge {ea : Ea} {size : OperandSize} {k : Nat} {p : Operand × Nat} (h : s.resolve ea size k = .ok p) :
    k ≤ p.2 := by
  cases ea with
  | dataReg n | addrReg n | indirect n | postInc n | preDec n =>
    simp only [State.resolve, Except.ok.injEq] at h
    simp [← h]
  | disp16 n | absShort =>
    simp only [State.resolve, Read.bind_eq_ok, Read.pure_eq, Except.ok.injEq] at h
    obtain ⟨e, -, rfl⟩ := h
    simp
  | indexed n =>
    simp only [State.resolve, Read.bind_eq_ok, Read.pure_eq] at h
    obtain ⟨e, -, h⟩ := h
    split at h
    · simp at h
    · simp only [Except.ok.injEq] at h
      simp [← h]
  | absLong =>
    simp only [State.resolve, Read.bind_eq_ok, Read.pure_eq, Except.ok.injEq] at h
    obtain ⟨e, -, rfl⟩ := h
    simp
  | immediate =>
    simp only [State.resolve, Read.bind_eq_ok, Read.pure_eq, Except.ok.injEq] at h
    obtain ⟨⟨v, k'⟩, hi, rfl⟩ := h
    exact readImm_ge hi
  | pcDisp | pcIndexed | reserved r => simp [State.resolve] at h

theorem Agree.decodeEaThen (ha : Agree s s' b k0) (mn : Mnemonic) (sz : Option OperandSize) (ea : Ea)
    (easz : OperandSize) (dst : Operand) {k : Nat} (hk : k0 ≤ k) :
    s.decodeEaThen mn sz ea easz dst (b + k) = Read.shift b (Decoded.shift b) (s'.decodeEaThen mn sz ea easz dst k) := by
  simp only [State.decodeEaThen]
  rw [ha.resolve ea easz hk]
  exact Read.shift_bind fun p _ => rfl

theorem Agree.decodeThenEa (ha : Agree s s' b k0) (mn : Mnemonic) (size : OperandSize) (src : Operand) (ea : Ea)
    {k : Nat} (hk : k0 ≤ k) :
    s.decodeThenEa mn size src ea (b + k) = Read.shift b (Decoded.shift b) (s'.decodeThenEa mn size src ea k) := by
  simp only [State.decodeThenEa]
  rw [ha.resolve ea size hk]
  exact Read.shift_bind fun p _ => rfl

theorem Agree.decodeEaOnly (ha : Agree s s' b k0) (mn : Mnemonic) (sz : Option OperandSize) (ea : Ea)
    (easz : OperandSize) {k : Nat} (hk : k0 ≤ k) :
    s.decodeEaOnly mn sz ea easz (b + k) = Read.shift b (Decoded.shift b) (s'.decodeEaOnly mn sz ea easz k) := by
  simp only [State.decodeEaOnly]
  rw [ha.resolve ea easz hk]
  exact Read.shift_bind fun p _ => rfl

theorem Agree.decodeImmThenEa (ha : Agree s s' b k0) (mn : Mnemonic) (size : OperandSize) (ea : Ea) {k : Nat}
    (hk : k0 ≤ k) :
    s.decodeImmThenEa mn size ea (b + k) = Read.shift b (Decoded.shift b) (s'.decodeImmThenEa mn size ea k) := by
  simp only [State.decodeImmThenEa]
  rw [ha.readImm size hk]
  apply Read.shift_bind
  intro p hp
  exact ha.decodeThenEa mn size _ ea (Nat.le_trans hk (readImm_ge hp))

theorem Agree.decodeMovem (ha : Agree s s' b k0) (size : WordOrLong) (ea : Ea) {k : Nat} (hk : k0 ≤ k) :
    s.decodeMovem size ea (b + k) =
      Read.shift b (fun p => (p.1, p.2.1, b + p.2.2)) (s'.decodeMovem size ea k) := by
  simp only [State.decodeMovem]
  rw [ha.ext hk]
  apply Read.shift_bind
  intro m _
  rw [show b + k + 1 = b + (k + 1) by omega, ha.resolve ea size.toSize (by omega)]
  exact Read.shift_bind fun p _ => rfl

theorem Agree.branchDisp (ha : Agree s s' b k0) (d : Byte) {k : Nat} (hk : k0 ≤ k) :
    s.branchDisp d (b + k) = Read.shift b (fun p => (p.1, p.2.1, b + p.2.2)) (s'.branchDisp d k) := by
  simp only [State.branchDisp]
  split
  · rw [ha.ext hk]
    exact Read.shift_bind fun e _ => rfl
  · split
    · rw [ha.extLong hk]
      exact Read.shift_bind fun e _ => rfl
    · rfl

theorem Agree.decodeBranch (ha : Agree s s' b k0) (mn : Mnemonic) (cond : Condition) (d : Byte) {c c' k : Nat}
    (hk : k0 ≤ k) (hc : s.addressOf c = s'.addressOf c') :
    s.decodeBranch mn cond d c (b + k) = Read.shift b (Decoded.shift b) (s'.decodeBranch mn cond d c' k) := by
  simp only [State.decodeBranch, State.branchTargetOf, hc]
  rw [ha.branchDisp d hk]
  exact Read.shift_bind fun p _ => rfl

/-- The form's rule of an instruction, on buffers that agree from the cursor on. -/
theorem Agree.formDecode (ha : Agree s s' b k0) (i : Instr) (hc : s.cursor = b + s'.cursor) (hk : k0 ≤ s'.cursor)
    (haddr : s.addressOf s.cursor = s'.addressOf s'.cursor) :
    formDecode i s = Read.shift b (Decoded.shift b) (formDecode i s') := by
  have hk1 : k0 ≤ s'.cursor + 1 := by omega
  have hc1 : s.cursor + 1 = b + (s'.cursor + 1) := by omega
  cases i with
  | move size src dst =>
    simp only [Machine.formDecode]
    rw [hc1, ha.resolve src size hk1]
    apply Read.shift_bind
    intro p hp
    simp only
    rw [ha.resolve dst size (Nat.le_trans hk1 (resolve_ge hp))]
    exact Read.shift_bind fun q _ => rfl
  | movea | adda | addToDn | subToDn | orToDn | cmp | muls | divs | lea =>
    simp only [Machine.formDecode]
    rw [hc1]
    exact ha.decodeEaThen _ _ _ _ _ hk1
  | addToEa | subToEa | orToEa | eor | subq =>
    simp only [Machine.formDecode]
    rw [hc1]
    exact ha.decodeThenEa _ _ _ _ hk1
  | ori | cmpi =>
    simp only [Machine.formDecode]
    rw [hc1]
    exact ha.decodeImmThenEa _ _ _ hk1
  | neg | jsr | asrMem | aslMem | lsrMem | lslMem | rorMem | rolMem =>
    simp only [Machine.formDecode]
    rw [hc1]
    exact ha.decodeEaOnly _ _ _ _ hk1
  | movemR2M size ea | movemM2R size ea =>
    simp only [Machine.formDecode]
    rw [hc1, ha.decodeMovem size ea hk1]
    exact Read.shift_bind fun p _ => rfl
  | bclr ea =>
    simp only [Machine.formDecode]
    rw [hc1, ha.ext hk1]
    apply Read.shift_bind
    intro e _
    rw [show s.cursor + 2 = b + (s'.cursor + 2) by omega, ha.resolve ea _ (by omega)]
    exact Read.shift_bind fun q _ => rfl
  | asrReg | aslReg | lsrReg | lslReg | rorReg | rolReg | rts =>
    simp only [Machine.formDecode]
    rw [hc1]
    rfl
  | bra d | bcc cond d =>
    simp only [Machine.formDecode]
    rw [hc1]
    exact ha.decodeBranch _ _ _ hk1 haddr

end Sys2Proof.Machine
end

