-- ==== Sys2Proof/Laws/Driver.lean ====
section
/-! SUPPORT. What a step of the Driver can do, said once, and what `DecodeAt` depends on. -/

namespace Sys2Proof.Machine

open Sys2Proof

/-- SCAN-DECODE only writes PENDING and STATE. -/
theorem scanDecode_pends {s t : State} (h : scanDecode s = .next t) : ∃ r, t = s.pend r := by
  simp only [scanDecode] at h
  cases hf : s.fetch with
  | instr i =>
    simp only [hf] at h
    exact exec_pends h
  | unclassified =>
    simp only [hf, State.takeData] at h
    split at h
    · simp only [Host.Outcome.next.injEq] at h
      exact ⟨_, h.symm⟩
    · cases h
  | missing => simp [hf] at h

theorem decodeAt_eq_some {s : State} {c : Nat} {r : Instruction} :
    decodeAt s c = some r ↔ scanDecode { s with cursor := c } = .next (State.pend { s with cursor := c } r) := by
  simp only [decodeAt]
  constructor
  · intro h
    split at h
    · rename_i t ht
      obtain ⟨r', rfl⟩ := scanDecode_pends ht
      simp only [State.pend_pending, Option.some.injEq] at h
      rw [ht, h]
    · cases h
    · cases h
  · intro h
    rw [h]
    rfl

theorem decodeAt_cursor {s : State} {r : Instruction} :
    decodeAt s s.cursor = some r ↔ scanDecode s = .next (s.pend r) := decodeAt_eq_some

/-- A decode needs a Word at its index. -/
theorem lt_nWords_of_decodeAt {s : State} {c : Nat} {r : Instruction} (h : decodeAt s c = some r) : c < s.nWords := by
  rw [decodeAt_eq_some, scanDecode] at h
  cases hw : s.word? c with
  | some w => exact State.lt_nWords_of_word? hw
  | none =>
    have hf : State.fetch { s with cursor := c } = .missing := by
      simp only [State.fetch, show State.word? { s with cursor := c } c = none from hw]
    simp [hf] at h

/-! ### What a decode depends on -/

theorem Agree.finish {s s' : State} {b k0 : Nat} (ha : Agree s s' b k0) (hc : s.cursor = b + s'.cursor)
    (hk : k0 ≤ s'.cursor) (haddr : s.addressOf s.cursor = s'.addressOf s'.cursor) (x : Read Decoded) (r : Instruction) :
    s.finish (Read.shift b (Decoded.shift b) x) = .next (s.pend r) ↔ s'.finish x = .next (s'.pend r) := by
  have hinj : ∀ (a : State) (q q' : Instruction),
      (Host.Outcome.next (a.pend q) : Host.Outcome State Fault Refusal) = .next (a.pend q') ↔ q = q' := by
    intro a q q'
    constructor
    · intro h
      simp only [Host.Outcome.next.injEq] at h
      simpa using congrArg State.pending h
    · rintro rfl
      rfl
  have hdata : ∀ reason, s.takeData reason = .next (s.pend r) ↔ s'.takeData reason = .next (s'.pend r) := by
    intro reason
    simp only [State.takeData, hc, ha.word s'.cursor hk]
    cases s'.word? s'.cursor with
    | none => simp
    | some w =>
      simp only [hinj]
      rw [show s.dataRecord (b + s'.cursor) w reason = s'.dataRecord s'.cursor w reason by
        simp only [State.dataRecord, ← hc, haddr]]
  cases x with
  | ok d =>
    have hn : (Decoded.shift b d).next - s.cursor = d.next - s'.cursor := by
      simp only [Decoded.shift]
      omega
    simp only [Read.shift_ok, State.finish]
    rw [hn, hc, ha.words _ hk]
    cases s'.words s'.cursor (d.next - s'.cursor) with
    | ok raw =>
      simp only [Read.shift_ok, id]
      rw [hinj, hinj]
      rw [show s.recordOf (b + s'.cursor) (Decoded.shift b d) raw = s'.recordOf s'.cursor d raw by
        simp only [State.recordOf, Decoded.shift, ← hc, haddr]
        rw [show b + d.next - s.cursor = d.next - s'.cursor by omega]]
    | error e =>
      cases e with
      | raise reason => exact hdata reason
      | stop f => cases f <;> simp [Abort.shift]
  | error e =>
    cases e with
    | raise reason => exact hdata reason
    | stop f => cases f <;> simp [Abort.shift, State.finish]

theorem Agree.scanDecode {s s' : State} {b : Nat} (ha : Agree s s' b s'.cursor) (hc : s.cursor = b + s'.cursor)
    (hslot : s.bsrSlot = s'.bsrSlot) (haddr : s.addressOf s.cursor = s'.addressOf s'.cursor) (r : Instruction) :
    scanDecode s = .next (s.pend r) ↔ scanDecode s' = .next (s'.pend r) := by
  have hk := Nat.le_refl s'.cursor
  have hw : s.word? s.cursor = s'.word? s'.cursor := by rw [hc]; exact ha.word _ hk
  simp only [Machine.scanDecode, State.fetch, hw, hslot]
  cases s'.word? s'.cursor with
  | none => simp
  | some w =>
    simp only
    cases classify s'.bsrSlot w with
    | none => exact ha.finish hc hk haddr (.error (.raise .unclassifiedOpcode)) r
    | some i =>
      simp only [exec_eq_finish]
      rw [ha.formDecode i hc hk haddr]
      exact ha.finish hc hk haddr _ r

/-- Buffers that agree from Word `c` of `s'` on give the same decode there. -/
theorem Agree.decodeAt {s s' : State} {b c : Nat} (ha : Agree s s' b c) (hslot : s.bsrSlot = s'.bsrSlot)
    (haddr : s.addressOf (b + c) = s'.addressOf c) : decodeAt s (b + c) = decodeAt s' c := by
  apply Option.ext
  intro r
  rw [decodeAt_eq_some, decodeAt_eq_some]
  exact Agree.scanDecode (s := { s with cursor := b + c }) (s' := { s' with cursor := c }) ⟨ha.nWords, ha.word⟩ rfl hslot
    haddr r

theorem decodeAt_congr {s s' : State} (c : Nat) (hb : s.buf = s'.buf) (hl : s.len = s'.len) (hbase : s.base = s'.base)
    (hslot : s.bsrSlot = s'.bsrSlot) : decodeAt s c = decodeAt s' c := by
  have h := Agree.decodeAt (s := s) (s' := s') (b := 0) (c := c)
    ⟨by simp [State.nWords_congr hl], fun j _ => by rw [Nat.zero_add]; exact State.word?_congr hb hl j⟩ hslot
    (by simp only [State.addressOf, Nat.zero_add, hbase])
  simpa using h

/-! ### The steps -/

/-- The one inversion of a step: which of SCAN-END, SCAN-DECODE and EMIT it was, with its guard and its effect. -/
theorem step_cases {s t : State} (h : step s = .next t) :
    (s.phase = .scanning ∧ s.nWords ≤ s.cursor ∧ t = s.scanEnd) ∨
      (s.phase = .scanning ∧ s.cursor < s.nWords ∧ ∃ r, decodeAt s s.cursor = some r ∧ t = s.pend r) ∨
      (s.phase = .emittingInstruction ∧ ∃ r, s.pending = some r ∧ t = s.emitRecord r) := by
  simp only [step] at h
  cases hp : s.phase with
  | scanning =>
    simp only [hp] at h
    split at h
    · rename_i hc
      simp only [Host.Outcome.next.injEq] at h
      exact .inl ⟨rfl, hc, h.symm⟩
    · rename_i hc
      obtain ⟨r, rfl⟩ := scanDecode_pends h
      exact .inr (.inl ⟨rfl, by omega, r, decodeAt_cursor.2 h, rfl⟩)
  | emittingInstruction =>
    simp only [hp, State.emit] at h
    cases hr : s.pending with
    | none => simp [hr] at h
    | some r =>
      simp only [hr, Host.Outcome.next.injEq] at h
      exact .inr (.inr ⟨rfl, r, rfl, h.symm⟩)
  | endOfBuffer => simp [hp] at h
  | rejected => simp [hp] at h

/-- In a buffer with no hole every meaning leaves a record (R148). -/
theorem exec_total {s : State} (h : s.bufWf = true) (hc : s.cursor < s.nWords) (i : Instr) :
    ∃ r, exec i s = .next (s.pend r) := by
  obtain ⟨w, hw⟩ := State.word?_of_bufWf h hc
  rw [exec_eq_finish]
  cases hd : formDecode i s with
  | ok d =>
    obtain ⟨hok, -⟩ := formDecode_ok hc hd
    obtain ⟨raw, hraw, -, -⟩ := State.words_of_bufWf h (c := s.cursor) (n := d.next - s.cursor)
      (by have := hok.next_le; have := hok.next_eq; omega)
    exact ⟨s.recordOf s.cursor d raw, by simp only [State.finish, hraw]⟩
  | error e =>
    rcases formDecode_error hc hd with h' | ⟨rfl, -⟩ | ⟨rfl, -⟩
    · exact (State.not_isHole_of_bufWf h _ h').elim
    · exact ⟨_, finish_raise hw⟩
    · exact ⟨_, finish_raise hw⟩

end Sys2Proof.Machine
end

