-- ==== Sys2Proof/Laws/Records.lean ====
section
/-! SUPPORT. From Words that designate operands to the record of a decode, and back from a decode's record to its Words. -/

namespace Sys2Proof.Machine

open Sys2Proof

namespace State

set_option linter.unusedSimpArgs false

/-- `ReadImm` reads the value its Words designate (R89). -/
theorem readImm_of {s : State} {size k ws v} (hd : ImmDesignates size ws v) (hh : s.holdsAt k ws) :
    s.readImm size k = .ok (v, k + ws.length) := by
  cases size with
  | byte =>
    obtain ⟨e, rfl, rfl⟩ := hd
    simp [readImm, ext_eq_ok.2 (holdsAt_one.1 hh), lowByte_toNat]
  | word =>
    obtain ⟨e, rfl, rfl⟩ := hd
    simp [readImm, ext_eq_ok.2 (holdsAt_one.1 hh)]
  | long =>
    obtain ⟨h, l, rfl, rfl⟩ := hd
    have hx := holdsAt_two.1 hh
    have := extLong_eq_ok.2 ⟨h, l, hx.1, hx.2, rfl⟩
    simp [readImm, this, longOfWords_toNat]

/-- `Resolve` gives the mode its EA field and Words designate (R83). -/
theorem resolve_of {s : State} {ea size k ws m} (hd : EaDesignates ea size ws m) (hh : s.holdsAt k ws) :
    s.resolve ea size k = .ok (⟨m, size⟩, k + ws.length) := by
  cases ea with
  | dataReg n | addrReg n | indirect n | postInc n | preDec n =>
    obtain ⟨rfl, rfl⟩ := hd
    rfl
  | disp16 n | absShort =>
    obtain ⟨e, rfl, rfl⟩ := hd
    simp [resolve, ext_eq_ok.2 (holdsAt_one.1 hh), sext16]
  | indexed n =>
    obtain ⟨d, l, r, a, rfl, rfl⟩ := hd
    have hf := brief_fields a l r d _ rfl
    simp only [resolve, ext_eq_ok.2 (holdsAt_one.1 hh), Read.ok_bind]
    rw [if_neg (by rw [Bool.not_eq_true]; exact briefUnsupported_eq_false.2 hf.2.2.2.1)]
    simp only [Read.pure_eq, indexSpecOf, hf.1, hf.2.1, hf.2.2.1, hf.2.2.2.2, sext8, List.length_cons, List.length_nil, sizeBit]
  | absLong =>
    obtain ⟨h, l, rfl, rfl⟩ := hd
    have hx := holdsAt_two.1 hh
    have := extLong_eq_ok.2 ⟨h, l, hx.1, hx.2, rfl⟩
    simp [resolve, this, longOfWords]
  | immediate =>
    obtain ⟨v, hv, rfl⟩ := hd
    simp [resolve, readImm_of hv hh]
  | pcDisp | pcIndexed | reserved r => exact hd.elim

/-- The displacement its Words designate (R92). -/
theorem branchDisp_of {s : State} {b ws disp width k} (hd : BranchDesignates b ws disp width) (hh : s.holdsAt k ws) :
    s.branchDisp b k = .ok (disp, width, k + ws.length) := by
  simp only [BranchDesignates] at hd
  simp only [branchDisp]
  split at hd
  · rename_i h; obtain ⟨e, rfl, rfl, rfl⟩ := hd
    rw [if_pos h]; simp [ext_eq_ok.2 (holdsAt_one.1 hh), sext16]
  · rename_i h; rw [if_neg h]
    split at hd
    · rename_i h'; obtain ⟨h, l, rfl, rfl, rfl⟩ := hd
      have hx := holdsAt_two.1 hh
      have := extLong_eq_ok.2 ⟨h, l, hx.1, hx.2, rfl⟩
      rw [if_pos h']; simp [this, longOfWords, sext32]
    · rename_i h'; obtain ⟨rfl, rfl, rfl⟩ := hd
      rw [if_neg h']; simp [sext8]

theorem branchTarget_eq (s : State) (d : Int) : s.branchTargetOf s.cursor d = BitVec.ofNat 32 (s.base.toNat + 2 * s.cursor) + 2#32 + BitVec.ofInt 32 d := by
  simp only [branchTargetOf, addressOf_eq, mod32]
  rw [BitVec.ofInt_add, BitVec.ofInt_add]
  congr 2
  rw [BitVec.ofInt_natCast, BitVec.ofNat_toNat, BitVec.setWidth_eq]

/-- How many Words designate an immediate. -/
theorem immDesignates_length {size ws v} (h : ImmDesignates size ws v) : ws.length = immCount size := by
  cases size with
  | byte | word => obtain ⟨e, rfl, -⟩ := h; rfl
  | long => obtain ⟨e, f, rfl, -⟩ := h; rfl

/-- How many Words designate an addressing mode. -/
theorem eaDesignates_length {ea size ws v} (h : EaDesignates ea size ws v) : ws.length = eaExtCount size ea := by
  cases ea with
  | dataReg | addrReg | indirect | postInc | preDec => obtain ⟨rfl, -⟩ := h; rfl
  | disp16 | absShort => obtain ⟨e, rfl, -⟩ := h; rfl
  | indexed => obtain ⟨d, l, r, a, rfl, -⟩ := h; rfl
  | absLong => obtain ⟨e, f, rfl, -⟩ := h; rfl
  | immediate => obtain ⟨v, h, -⟩ := h; exact immDesignates_length h
  | pcDisp | pcIndexed | reserved => exact h.elim

/-- The unsupported bits of a brief extension Word. -/
theorem briefUnsupported_bits (e : Word) : (e.extractLsb' 8 3 != 0#3) = briefUnsupported e := by
  have h := briefUnsupported_eq_false (e := e)
  have h2 : (bfx e 10 8 : Field3) = e.extractLsb' 8 3 := rfl
  rw [h2] at h
  cases hb : briefUnsupported e with
  | false => simp [h.1 hb]
  | true =>
    have : ¬ (e.extractLsb' 8 3 = 0#3) := fun hh => by rw [h.2 hh] at hb; cases hb
    simpa using this

end State

open State

set_option linter.unusedSimpArgs false

/-- A quick-data field holds 1 .. 8. -/
theorem quickValue_ofNat (q : Nat) (h1 : 1 ≤ q) (h2 : q ≤ 8) : quickValue (BitVec.ofNat 3 q) = q := by
  interval_cases q <;> rfl

/-- What an instruction's step is, from its form's rule and the Words at the cursor (R107). -/
theorem exec_of {i : Instr} {s : State} {x : Decoded} {raw : List Word} (hd : formDecode i s = .ok x)
    (hh : s.holdsAt s.cursor raw) (hn : x.next = s.cursor + raw.length) :
    exec i s = .next (s.withPending (s.recordAt x.mnemonic x.operands x.size x.condition raw)) := by
  rw [exec_eq_finish, hd, finish_ok hh hn]
  simp [State.pend, State.withPending, State.recordOf, State.recordAt, addressOf_eq, hn]

/-- The two ways a meaning ends: the form's record, or the DATA record (R107). -/
theorem exec_cases {i : Instr} {s t : State} {r} (_hc : s.cursor < s.nWords) (h : exec i s = .next t) (hp : t.pending = some r) :
   (∃ x, formDecode i s = .ok x ∧ r.mnemonic = x.mnemonic ∧ r.lengthInWords = x.next - s.cursor ∧ r.dataReason = none) ∨
   (∃ q w, formDecode i s = .error (.raise q) ∧ s.word? s.cursor = some w ∧ r = s.dataRecord s.cursor w q) := by
  rw [exec_eq_finish] at h
  rcases finish_next h with ⟨x, raw, hx, hr, rfl⟩ | ⟨q, w', hx, hw', rfl⟩
  · simp only [pend_pending, Option.some.injEq] at hp
    subst hp; exact .inl ⟨x, hx, rfl, rfl, rfl⟩
  · simp only [pend_pending, Option.some.injEq] at hp
    subst hp; exact .inr ⟨q, w', hx, hw', rfl⟩

/-- A reason raised by the form ends in the DATA record (R107, R108). -/
theorem exec_raise {i s w r} (hw : s.word? s.cursor = some w) (h : formDecode i s = .error (.raise r)) :
    exec i s = .next (s.withPending (s.dataAt w r)) := by
  rw [exec_eq_finish, h, finish_raise hw, dataRecord_eq_dataAt]; rfl

/-- No form has more than four extension Words (R62). -/
theorem instrExtCount_le (i : Instr) : instrExtCount i ≤ 4 := by
  have h1 : ∀ s ea, eaExtCount s ea ≤ 2 := by intro s ea; cases s <;> cases ea <;> simp [eaExtCount, immCount]
  have h2 : ∀ s, immCount s ≤ 2 := by intro s; cases s <;> decide
  have h3 : ∀ b, branchCount b ≤ 2 := by intro b; simp only [branchCount]; split; decide; split <;> decide
  cases i with
  | move s a b => have := h1 s a; have := h1 s b; simp only [instrExtCount]; omega
  | ori s a | cmpi s a => have := h1 s a; have := h2 s; simp only [instrExtCount]; omega
  | movemR2M s a | movemM2R s a => have := h1 s.toSize a; simp only [instrExtCount]; omega
  | bclr a => have := h1 (bclrEaSize a) a; simp only [instrExtCount]; omega
  | bra b | bcc c b => have := h3 b; simp only [instrExtCount]; omega
  | rts | asrReg | aslReg | lsrReg | lslReg | rorReg | rolReg => simp only [instrExtCount]; omega
  | _ => simp only [instrExtCount]; exact Nat.le_trans (h1 _ _) (by decide)

/-- Only the branches carry a condition (R114). -/
theorem condition_iff {i s x} (h : formDecode i s = .ok x) : x.condition ≠ none ↔ instrMnemonic i = .BRA ∨ instrMnemonic i = .Bcc := by
  cases i <;> simp only [formDecode, decodeEaThen, decodeThenEa, decodeEaOnly, decodeImmThenEa, decodeMovem, decodeBranch, decodeShiftReg, Read.bind_eq_ok, Read.pure_eq, Except.ok.injEq] at h
  case movea | addToDn | adda | subToDn | muls | divs | lea | orToDn | cmp | addToEa | subToEa | orToEa | eor | subq | neg | jsr | asrMem | aslMem | lsrMem | lslMem | rorMem | rolMem =>
    obtain ⟨_, -, rfl⟩ := h; simp [instrMnemonic]
  case move =>
    obtain ⟨_, -, _, -, rfl⟩ := h; simp [instrMnemonic]
  case movemR2M | movemM2R =>
    obtain ⟨_, -, rfl⟩ := h; simp [instrMnemonic]
  case ori | cmpi =>
    obtain ⟨_, -, _, -, rfl⟩ := h; simp [instrMnemonic]
  case bclr =>
    obtain ⟨_, -, _, -, rfl⟩ := h; simp [instrMnemonic]
  case bra | bcc =>
    obtain ⟨_, -, rfl⟩ := h; simp [instrMnemonic]
  all_goals subst h; simp [instrMnemonic]

/-- SCAN-DECODE leaves a record wherever the buffer holds the Word at the cursor. -/
theorem scanDecode_total {s : State} (h : s.bufWf = true) (hc : s.cursor < s.nWords) : ∃ r, scanDecode s = .next (s.pend r) := by
  obtain ⟨w, hw⟩ := word?_of_bufWf h hc
  simp only [scanDecode, State.fetch, hw]
  cases classify s.bsrSlot w with
  | none => exact ⟨s.dataRecord s.cursor w .unclassifiedOpcode, by simp [takeData, hw]⟩
  | some i => exact exec_total h hc i

/-- `DecodeAt` is total below `N` (R109). -/
theorem decodeAt_total {s : State} {c : Nat} (h : s.bufWf = true) (hc : c < s.nWords) : ∃ r, decodeAt s c = some r := by
  obtain ⟨r, hr⟩ := scanDecode_total (s := { s with cursor := c }) h hc
  exact ⟨r, decodeAt_eq_some.2 hr⟩

/-- What a record of a decode is (R107, R108). -/
theorem decodeAt_cases {s c r} (h : decodeAt s c = some r) :
    c < s.nWords ∧ s.holdsAt c r.rawWords ∧ r.rawWords.length = r.lengthInWords ∧ r.address = BitVec.ofNat 32 (s.base.toNat + 2 * c) ∧
    ((∃ i x, r.dataReason = none ∧ r.mnemonic = instrMnemonic i ∧ r.lengthInWords = 1 + instrExtCount i ∧ r.operands = x.operands ∧ r.condition = x.condition ∧ formDecode i {s with cursor := c} = .ok x) ∨
     (∃ q w, r = State.dataRecord s c w q)) := by
  have hc := lt_nWords_of_decodeAt h
  refine ⟨hc, ?_⟩
  rw [decodeAt_eq_some] at h
  generalize hs : ({ s with cursor := c } : State) = s1 at h
  have hcs : s1.cursor < s1.nWords := by subst hs; exact hc
  obtain ⟨w, hw⟩ : ∃ w, s1.word? s1.cursor = some w := by
    simp only [scanDecode, State.fetch] at h
    cases hw : s1.word? s1.cursor with
    | some w => exact ⟨w, rfl⟩
    | none => simp [hw] at h
  have hdat : ∀ q, r = s1.dataRecord s1.cursor w q → s.holdsAt c r.rawWords ∧ r.rawWords.length = r.lengthInWords ∧ r.address = BitVec.ofNat 32 (s.base.toNat + 2 * c) ∧
    ((∃ i x, r.dataReason = none ∧ r.mnemonic = instrMnemonic i ∧ r.lengthInWords = 1 + instrExtCount i ∧ r.operands = x.operands ∧ r.condition = x.condition ∧ formDecode i s1 = .ok x) ∨
     (∃ q w, r = State.dataRecord s c w q)) := by
    rintro q rfl
    subst hs
    exact ⟨holdsAt_one.2 hw, rfl, addressOf_eq _ _, .inr ⟨q, w, rfl⟩⟩
  simp only [scanDecode, State.fetch, hw] at h
  cases hcl : classify s1.bsrSlot w with
  | none =>
    simp only [hcl, takeData, hw, Host.Outcome.next.injEq] at h
    exact hdat _ (by simpa using (congrArg State.pending h).symm)
  | some i =>
    simp only [hcl] at h
    rw [exec_eq_finish] at h
    rcases finish_next h with ⟨x, raw, hx, hr, ht⟩ | ⟨q, w', hx, hw', ht⟩
    · have hreq : r = s1.recordOf s1.cursor x raw := by simpa using congrArg State.pending ht
      obtain ⟨hok, hcond⟩ := formDecode_ok hcs hx
      obtain ⟨hl, hh⟩ := words_eq_ok hr (by omega)
      have h1 := hok.next_eq
      subst hreq
      refine ⟨?_, ?_, ?_, .inl ⟨i, x, rfl, hok.mnemonic_eq, ?_, rfl, rfl, hx⟩⟩
      · subst hs; exact hh
      · simp [recordOf, hl]
      · subst hs; exact addressOf_eq _ _
      · simp [recordOf]; omega
    · have hreq : r = s1.dataRecord s1.cursor w' q := by simpa using congrArg State.pending ht
      have : w' = w := by rw [hw] at hw'; exact (Option.some.inj hw').symm
      subst this
      exact hdat _ hreq

/-- A step at a Word the classifier does not know. -/
theorem step_unclassified {s : State} {w} (hp : s.phase = .scanning) (hw : s.word? s.cursor = some w) (hc : classify s.bsrSlot w = none) :
    step s = .next (s.withPending (s.dataAt w .unclassifiedOpcode)) := by
  have := lt_nWords_of_word? hw
  simp only [step, hp, if_neg (Nat.not_le.2 this), scanDecode, State.fetch, hw, hc, takeData, dataRecord_eq_dataAt]
  rfl

/-- A step at a Word the classifier knows. -/
theorem step_instr {s : State} {w i} (hp : s.phase = .scanning) (hw : s.word? s.cursor = some w) (hc : classify s.bsrSlot w = some i) :
    step s = exec i s := by
  have := lt_nWords_of_word? hw
  simp only [step, hp, if_neg (Nat.not_le.2 this), scanDecode, State.fetch, hw, hc]

end Sys2Proof.Machine
end

