-- ==== Sys2Proof/Laws/Runs.lean ====
section
/-! SUPPORT. Runs of the machine, the records that cover a buffer, and the Words that a START or a load places. -/

namespace Sys2Proof.Machine

open Sys2Proof State

/-! ### Runs -/

/-- A run of the machine, in the model's own types. -/
abbrev run (k : Nat) (s : State) : Host.Outcome State Fault Refusal := Host.Core.run Sys2Proof.core k s

theorem run_succ (k : Nat) (s : State) :
    run (k + 1) s = match step s with
      | .next t => run k t
      | .fault r => .fault r
      | .refused r => .refused r := by
  have h : ∀ o, step s = o → run (k+1) s = match o with | .next t => run k t | .fault r => .fault r | .refused r => .refused r := by
    intro o ho
    have hc : Sys2Proof.core.step s = o := ho
    simp only [run, Host.Core.run]
    rw [hc]
    cases o <;> rfl
  exact h _ rfl

theorem run_succ_next {k s t} (h : run (k+1) s = .next t) : ∃ m, step s = .next m ∧ run k m = .next t := by
  rw [run_succ] at h
  split at h
  · exact ⟨_, by assumption, h⟩
  · cases h
  · cases h

/-! ### The cover of a buffer by records -/

theorem covers_congr {s t : State} (hb : s.buf = t.buf) (hl : s.len = t.len) (hbase : s.base = t.base) (hs : s.bsrSlot = t.bsrSlot) (c rs e) : s.covers c rs e ↔ t.covers c rs e := by
  induction rs generalizing c with
  | nil => rfl
  | cons r rs ih => simp only [covers, ih, nWords_congr hl, decodeAt_congr c hb hl hbase hs]

theorem covers_append {s : State} {c rs qs e} : s.covers c (rs ++ qs) e ↔ ∃ m, s.covers c rs m ∧ s.covers m qs e := by
  induction rs generalizing c with
  | nil => simp [covers]
  | cons r rs ih =>
    simp only [List.cons_append, covers, ih]
    constructor
    · rintro ⟨h1, h2, m, h3, h4⟩; exact ⟨m, ⟨h1, h2, h3⟩, h4⟩
    · rintro ⟨m, ⟨h1, h2, h3⟩, h4⟩; exact ⟨h1, h2, m, h3, h4⟩

theorem covers_sum {s : State} {c rs e} (h : s.covers c rs e) : e = c + sumLengths rs := by
  induction rs generalizing c with
  | nil => simpa [covers, sumLengths] using h.symm
  | cons r rs ih =>
    have := ih h.2.2
    simp [sumLengths] at *; omega

theorem covers_unique {s : State} {c rs qs} (h1 : s.covers c rs s.nWords) (h2 : s.covers c qs s.nWords) : rs = qs := by
  induction rs generalizing c qs with
  | nil =>
    cases qs with
    | nil => rfl
    | cons q qs => simp only [covers] at h1 h2; omega
  | cons r rs ih =>
    cases qs with
    | nil => simp only [covers] at h1 h2; omega
    | cons q qs =>
      have : r = q := by have a := h1.2.1; rw [h2.2.1] at a; exact (Option.some.inj a).symm
      subst this
      rw [ih h1.2.2 h2.2.2]

theorem covers_shift {s s' : State} {b c rs e} (ha : Agree s s' b 0) (hs : s.bsrSlot = s'.bsrSlot) (hb : ∀ c, s.addressOf (b + c) = s'.addressOf c) :
    s'.covers c rs e → s.covers (b + c) rs (b + e) := by
  induction rs generalizing c with
  | nil => simp [covers]
  | cons r rs ih =>
    rintro ⟨h1, h2, h3⟩
    refine ⟨by have := ha.nWords; omega, ?_, ?_⟩
    · rw [Agree.decodeAt ⟨ha.nWords, fun j _ => ha.word j (Nat.zero_le _)⟩ hs (hb c)]; exact h2
    · have := ih h3; rwa [Nat.add_assoc]

/-! ### The Words a START or a load places -/

theorem tableWords_cons (nbits w) : tableWords nbits w = BitVec.ofNat 16 (w % 2 ^ nbits) :: (tableWords nbits w).tail := by
  simp [tableWords, List.range, List.range.loop, Config.maxLengthInWords]

theorem bytesOfWords_get (ws : List Word) (j : Nat) (h : j < ws.length) :
    (bytesOfWords ws)[2*j]? = some (bfx (ws[j]) 15 8) ∧ (bytesOfWords ws)[2*j+1]? = some (bfx (ws[j]) 7 0) := by
  induction ws generalizing j with
  | nil => simp at h
  | cons w ws ih =>
    cases j with
    | zero => simp [bytesOfWords, bytesOfWord]
    | succ j =>
      have := ih j (by simpa using h)
      simpa [bytesOfWords, bytesOfWord, Nat.mul_add] using this

theorem bytesOfWords_length (ws : List Word) : (bytesOfWords ws).length = 2 * ws.length := by
  induction ws with
  | nil => rfl
  | cons w ws ih => simp [bytesOfWords, bytesOfWord] at *; omega

/-- `loadAtCursor` places its Words where the next step fetches (log 8). -/
theorem loadAtCursor_holdsAt (s : State) (ws : List Word) : (s.loadAtCursor ws).holdsAt s.cursor ws := by
  refine ⟨by simp [nWords]; omega, fun j hj => ?_⟩
  have h1 := bytesOfWords_get ws j hj
  have hl := bytesOfWords_length ws
  have e1 : (s.loadAtCursor ws).byte? (2 * (s.cursor + j)) = some (bfx (ws[j]) 15 8) := by
    rw [byte?, if_pos (by rw [loadAtCursor_len]; omega), loadAtCursor_buf, show 2 * (s.cursor + j) = 2 * s.cursor + 2 * j by omega, Memory.read_writeAll_same _ _ _ (by omega), h1.1]
  have e2 : (s.loadAtCursor ws).byte? (2 * (s.cursor + j) + 1) = some (bfx (ws[j]) 7 0) := by
    rw [byte?, if_pos (by rw [loadAtCursor_len]; omega), loadAtCursor_buf, show 2 * (s.cursor + j) + 1= 2 * s.cursor + (2 * j + 1) by omega, Memory.read_writeAll_same _ _ _ (by omega), h1.2]
  simp only [word?, e1, e2, List.getElem?_eq_getElem hj]
  rw [wordOfBytes_of_bytesOfWord]

/-- A START of the bytes of some Words places those Words at Word index 0. -/
theorem start_holdsAt (s : State) (ws : List Word) (base : Addr) : (s.start (bytesOfWords ws) base).holdsAt 0 ws := by
  have hl := bytesOfWords_length ws
  refine ⟨by simp only [nWords, start_len]; omega, fun j hj => ?_⟩
  have h1 := bytesOfWords_get ws j hj
  simp only [word?, start_byte?, Nat.zero_add, h1.1, h1.2, List.getElem?_eq_getElem hj]
  rw [wordOfBytes_of_bytesOfWord]

end Sys2Proof.Machine
end

