-- ==== Sys2Proof/Tests/Slice0.lean ====
section
/-! SUPPORT. The model's own tests: ill-formed terms, the decoding of a Word of every constructor (written out from the
formats R66 to R78), one decode on small buffers (from spec/95_test_vectors.md, whose ids stand in the names), and a
state and operands that meet the hypotheses of every statement. -/

namespace Sys2Proof.Tests

open Sys2Proof Sys2Proof.Machine

/-- The state after a START of a few Words. -/
def load (slot : BsrSlot) (base : Addr) (ws : List Word) : State :=
  { State.reset with bsrSlot := slot }.start (bytesOfWords ws) base

theorem load_holdsAt (slot : BsrSlot) (base : Addr) (ws : List Word) : (load slot base ws).holdsAt 0 ws :=
  start_holdsAt _ ws base

theorem load_bufWf (slot : BsrSlot) (base : Addr) (ws : List Word) : (load slot base ws).bufWf = true :=
  State.start_bufWf _ _ base

theorem load_word (slot : BsrSlot) (base : Addr) (w : Word) : (load slot base [w]).word? 0 = some w :=
  State.holdsAt_one.1 (load_holdsAt slot base [w])

theorem load_phase (slot : BsrSlot) (base : Addr) (ws : List Word) : (load slot base ws).phase = .scanning := by
  simp only [load, State.start_phase, bytesOfWords_length]
  exact if_neg (by omega)

/-! ### Well-formedness -/

/-- A Byte source cannot be An (V5). -/
theorem test_wf_refuses_source : (Instr.move .byte (.addrReg 0#3) (.dataReg 0#3)).eaWf = false := by decide

/-- An immediate destination of MOVE (V6). -/
theorem test_wf_refuses_destination : (Instr.move .word (.dataReg 0#3) .immediate).dstWf = false := by decide

/-- An address register destination is MOVEA, not MOVE. -/
theorem test_wf_refuses_an_destination : (Instr.move .long (.dataReg 0#3) (.addrReg 0#3)).wf .data = false := by decide

/-- Condition 0000 is BRA; condition 0001 is Bcc under BccF alone (R140, R141). -/
theorem test_wf_refuses_condition :
    (Instr.bcc 0#4 2#8).condWf .bccF = false ∧ (Instr.bcc 1#4 2#8).condWf .data = false ∧
      (Instr.bcc 1#4 2#8).condWf .bccF = true := by decide

/-! ### Decoding, one Word of each constructor -/

theorem test_decode_move : decodeTableWord 16 0b00_11_000_000_001_001 = some (.move .word (.addrReg 1#3) (.dataReg 0#3)) := by decide

theorem test_decode_movea : decodeTableWord 16 0b00_10_011_001_000_101 = some (.movea .long (.dataReg 5#3) 3#3) := by decide

theorem test_decode_movemR2M : decodeTableWord 16 0b01001_0_001_1_100_111 = some (.movemR2M .long (.preDec 7#3)) := by decide

theorem test_decode_movemM2R : decodeTableWord 16 0b01001_1_001_0_011_111 = some (.movemM2R .word (.postInc 7#3)) := by decide

theorem test_decode_addToDn : decodeTableWord 16 0b1101_010_0_01_000_001 = some (.addToDn .word 2#3 (.dataReg 1#3)) := by decide

theorem test_decode_addToEa : decodeTableWord 16 0b1101_010_1_10_010_001 = some (.addToEa .long 2#3 (.indirect 1#3)) := by decide

theorem test_decode_adda : decodeTableWord 16 0b1101_010_0_11_001_001 = some (.adda .word 2#3 (.addrReg 1#3)) := by decide

theorem test_decode_subToDn : decodeTableWord 16 0b1001_010_0_00_000_001 = some (.subToDn .byte 2#3 (.dataReg 1#3)) := by decide

theorem test_decode_subToEa : decodeTableWord 16 0b1001_010_1_01_011_001 = some (.subToEa .word 2#3 (.postInc 1#3)) := by decide

theorem test_decode_subq : decodeTableWord 16 0b0101_000_1_10_001_110 = some (.subq .long 0#3 (.addrReg 6#3)) := by decide

theorem test_decode_muls : decodeTableWord 16 0b1100_001_111_111_100 = some (.muls 1#3 .immediate) := by decide

theorem test_decode_divs : decodeTableWord 16 0b1000_110_111_000_001 = some (.divs 6#3 (.dataReg 1#3)) := by decide

theorem test_decode_lea : decodeTableWord 16 0b0100_001_111_101_000 = some (.lea 1#3 (.disp16 0#3)) := by decide

theorem test_decode_orToDn : decodeTableWord 16 0b1000_011_0_01_000_001 = some (.orToDn .word 3#3 (.dataReg 1#3)) := by decide

theorem test_decode_orToEa : decodeTableWord 16 0b1000_011_1_01_010_001 = some (.orToEa .word 3#3 (.indirect 1#3)) := by decide

theorem test_decode_ori : decodeTableWord 16 0b00000000_10_111_001 = some (.ori .long .absLong) := by decide

theorem test_decode_neg : decodeTableWord 16 0b01000100_01_010_011 = some (.neg .word (.indirect 3#3)) := by decide

theorem test_decode_eor : decodeTableWord 16 0b1011_001_1_10_000_100 = some (.eor .long 1#3 (.dataReg 4#3)) := by decide

theorem test_decode_asrReg : decodeTableWord 16 0b1110_000_0_00_0_00_001 = some (.asrReg .byte (.quick 0#3) 1#3) := by decide

theorem test_decode_aslReg : decodeTableWord 16 0b1110_011_1_01_0_00_001 = some (.aslReg .word (.quick 3#3) 1#3) := by decide

theorem test_decode_lsrReg : decodeTableWord 16 0b1110_011_0_10_1_01_001 = some (.lsrReg .long (.inReg 3#3) 1#3) := by decide

theorem test_decode_lslReg : decodeTableWord 16 0b1110_011_1_00_1_01_001 = some (.lslReg .byte (.inReg 3#3) 1#3) := by decide

theorem test_decode_rorReg : decodeTableWord 16 0b1110_011_0_01_0_11_001 = some (.rorReg .word (.quick 3#3) 1#3) := by decide

theorem test_decode_rolReg : decodeTableWord 16 0b1110_011_1_10_1_11_001 = some (.rolReg .long (.inReg 3#3) 1#3) := by decide

theorem test_decode_asrMem : decodeTableWord 16 0b11100_00_0_11_010_101 = some (.asrMem (.indirect 5#3)) := by decide

theorem test_decode_aslMem : decodeTableWord 16 0b11100_00_1_11_011_101 = some (.aslMem (.postInc 5#3)) := by decide

theorem test_decode_lsrMem : decodeTableWord 16 0b11100_01_0_11_100_101 = some (.lsrMem (.preDec 5#3)) := by decide

theorem test_decode_lslMem : decodeTableWord 16 0b11100_01_1_11_110_101 = some (.lslMem (.indexed 5#3)) := by decide

theorem test_decode_rorMem : decodeTableWord 16 0b11100_11_0_11_111_000 = some (.rorMem .absShort) := by decide

theorem test_decode_rolMem : decodeTableWord 16 0b11100_11_1_11_111_001 = some (.rolMem .absLong) := by decide

theorem test_decode_bclr : decodeTableWord 16 0b0000100010_000_010 = some (.bclr (.dataReg 2#3)) := by decide

theorem test_decode_cmp : decodeTableWord 16 0b1011_000_0_00_111_100 = some (.cmp .byte 0#3 .immediate) := by decide

theorem test_decode_cmpi : decodeTableWord 16 0b00001100_01_010_110 = some (.cmpi .word (.indirect 6#3)) := by decide

theorem test_decode_bra : decodeTableWord 16 0b0110_0000_11111110 = some (.bra 0xFE#8) := by decide

theorem test_decode_bcc : decodeTableWord 16 0b0110_1110_00000010 = some (.bcc 0b1110#4 0x02#8) := by decide

theorem test_decode_jsr : decodeTableWord 16 0b0100111010_010_001 = some (.jsr (.indirect 1#3)) := by decide

theorem test_decode_rts : decodeTableWord 16 0b0100111001110101 = some (.rts) := by decide

/-- Words no row matches (L2-UNCL; A5, A18, V11, H7, H14, R11). -/
theorem test_decode_refuses :
    ∀ w ∈ [0x4AFC, 0x4E40, 0x4E72, 0xA000, 0xF000, 0xFFFF, 0x0100, 0x4840, 0xC140, 0x7001, 0xD140, 0x51C8, 0x1040,
        0xE050, 0xE4D0, 0x6102],
      decodeTableWord 16 w = none := by decide

/-- The decoder refuses by name, and a buffer that ends before a Word is told apart. -/
theorem test_decode_errors :
    decode .data [0x4A#8, 0xFC#8] = .error .unclassifiedOpcode ∧ decode .data [0x4E#8] = .error .noOpcodeWord := by decide

/-- The opcode Words of a table row that has an operand Word: the instruction is the first Word's. -/
theorem test_decode_low_word_first : decodeTableWord 32 0x1234_303C = some (.move .word .immediate (.dataReg 0#3)) := by
  decide

/-! ### One decode each, from the spec's vectors -/

theorem test_E7 : decodeAt (load .data 0#32 [0x3031#16, 0xA0FE#16]) 0 =
    some ⟨.MOVE, [⟨.addressRegisterIndirectIndexed 1 ⟨.A, 2, .word⟩ (-2), .word⟩, ⟨.dataRegisterDirect 0, .word⟩],
        some .word, none, 0#32, 2, [0x3031#16, 0xA0FE#16], none⟩ := by
  decide

theorem test_E9 : decodeAt (load .data 0#32 [0x3038#16, 0x8000#16]) 0 =
    some ⟨.MOVE, [⟨.absoluteShort 0x8000#16, .word⟩, ⟨.dataRegisterDirect 0, .word⟩], some .word, none, 0#32, 2,
        [0x3038#16, 0x8000#16], none⟩ := by
  decide

theorem test_E12 : decodeAt (load .data 0#32 [0x103C#16, 0x00FF#16]) 0 =
    some ⟨.MOVE, [⟨.immediate 0xFF .byte, .byte⟩, ⟨.dataRegisterDirect 0, .byte⟩], some .byte, none, 0#32, 2,
        [0x103C#16, 0x00FF#16], none⟩ := by
  decide

theorem test_E17 : decodeAt (load .data 0#32 [0x3030#16, 0x0100#16]) 0 =
    some ⟨.DATA, [], none, none, 0#32, 1, [0x3030#16], some .unsupportedAddressingMode⟩ := by
  decide

theorem test_E21 : decodeAt (load .data 0#32 [0x3039#16, 0x0001#16]) 0 =
    some ⟨.DATA, [], none, none, 0#32, 1, [0x3039#16], some .truncatedBuffer⟩ := by
  decide

theorem test_V4 : decodeAt (load .data 0#32 [0x23FC#16, 0x1234#16, 0x5678#16, 0x0000#16, 0x4000#16]) 0 =
    some ⟨.MOVE, [⟨.immediate 0x12345678 .long, .long⟩, ⟨.absoluteLong 0x4000#32, .long⟩], some .long, none, 0#32, 5,
        [0x23FC#16, 0x1234#16, 0x5678#16, 0x0000#16, 0x4000#16], none⟩ := by
  decide

theorem test_V10 : decodeAt (load .data 0#32 [0x307C#16, 0x8000#16]) 0 =
    some ⟨.MOVEA, [⟨.immediate 0x8000 .word, .word⟩, ⟨.addressRegisterDirect 0, .word⟩], some .word, none, 0#32, 2,
        [0x307C#16, 0x8000#16], none⟩ := by
  decide

theorem test_M1 : decodeAt (load .data 0#32 [0x48E7#16, 0xFFFE#16]) 0 =
    some ⟨.MOVEM, [⟨.registerList 0x7FFF#16, .long⟩, ⟨.addressRegisterIndirectPreDecrement 7, .long⟩], some .long,
        none, 0#32, 2, [0x48E7#16, 0xFFFE#16], none⟩ := by
  decide

theorem test_M4 : decodeAt (load .data 0#32 [0x4CDF#16, 0x8000#16]) 0 =
    some ⟨.MOVEM, [⟨.addressRegisterIndirectPostIncrement 7, .long⟩, ⟨.registerList 0x8000#16, .long⟩], some .long,
        none, 0#32, 2, [0x4CDF#16, 0x8000#16], none⟩ := by
  decide

theorem test_M6 : decodeAt (load .data 0#32 [0x4CB9#16, 0x0003#16, 0x0000#16, 0x1000#16]) 0 =
    some ⟨.MOVEM, [⟨.absoluteLong 0x1000#32, .word⟩, ⟨.registerList 0x0003#16, .word⟩], some .word, none, 0#32, 4,
        [0x4CB9#16, 0x0003#16, 0x0000#16, 0x1000#16], none⟩ := by
  decide

theorem test_M12 : decodeAt (load .data 0#32 [0x4CFA#16, 0x0003#16, 0x0010#16]) 0 =
    some ⟨.DATA, [], none, none, 0#32, 1, [0x4CFA#16], some .unsupportedAddressingMode⟩ := by
  decide

theorem test_A3 : decodeAt (load .data 0#32 [0xD048#16]) 0 =
    some ⟨.ADD, [⟨.addressRegisterDirect 0, .word⟩, ⟨.dataRegisterDirect 0, .word⟩], some .word, none, 0#32, 1,
        [0xD048#16], none⟩ := by
  decide

theorem test_A2 : decodeAt (load .data 0#32 [0xD150#16]) 0 =
    some ⟨.ADD, [⟨.dataRegisterDirect 0, .word⟩, ⟨.addressRegisterIndirect 0, .word⟩], some .word, none, 0#32, 1,
        [0xD150#16], none⟩ := by
  decide

theorem test_A9 : decodeAt (load .data 0#32 [0xD1FC#16, 0x0001#16, 0x0000#16]) 0 =
    some ⟨.ADDA, [⟨.immediate 0x00010000 .long, .long⟩, ⟨.addressRegisterDirect 0, .long⟩], some .long, none, 0#32,
        3, [0xD1FC#16, 0x0001#16, 0x0000#16], none⟩ := by
  decide

theorem test_A11 : decodeAt (load .data 0#32 [0x9081#16]) 0 =
    some ⟨.SUB, [⟨.dataRegisterDirect 1, .long⟩, ⟨.dataRegisterDirect 0, .long⟩], some .long, none, 0#32, 1,
        [0x9081#16], none⟩ := by
  decide

theorem test_A12 : decodeAt (load .data 0#32 [0x9150#16]) 0 =
    some ⟨.SUB, [⟨.dataRegisterDirect 0, .word⟩, ⟨.addressRegisterIndirect 0, .word⟩], some .word, none, 0#32, 1,
        [0x9150#16], none⟩ := by
  decide

theorem test_A16 : decodeAt (load .data 0#32 [0x5148#16]) 0 =
    some ⟨.SUBQ, [⟨.immediate 8 .word, .word⟩, ⟨.addressRegisterDirect 0, .word⟩], some .word, none, 0#32, 1,
        [0x5148#16], none⟩ := by
  decide

theorem test_A20 : decodeAt (load .data 0#32 [0x5379#16, 0x0000#16, 0x1000#16]) 0 =
    some ⟨.SUBQ, [⟨.immediate 1 .word, .word⟩, ⟨.absoluteLong 0x1000#32, .word⟩], some .word, none, 0#32, 3,
        [0x5379#16, 0x0000#16, 0x1000#16], none⟩ := by
  decide

theorem test_A21 : decodeAt (load .data 0#32 [0xC3FC#16, 0x0003#16]) 0 =
    some ⟨.MULS, [⟨.immediate 3 .word, .word⟩, ⟨.dataRegisterDirect 1, .word⟩], some .word, none, 0#32, 2,
        [0xC3FC#16, 0x0003#16], none⟩ := by
  decide

theorem test_A26 : decodeAt (load .data 0#32 [0x81FC#16, 0x0000#16]) 0 =
    some ⟨.DIVS, [⟨.immediate 0 .word, .word⟩, ⟨.dataRegisterDirect 0, .word⟩], some .word, none, 0#32, 2,
        [0x81FC#16, 0x0000#16], none⟩ := by
  decide

theorem test_G1 : decodeAt (load .data 0#32 [0x43E8#16, 0x0010#16]) 0 =
    some ⟨.LEA, [⟨.addressRegisterIndirectWithDisplacement 0 (16), .long⟩, ⟨.addressRegisterDirect 1, .long⟩], none,
        none, 0#32, 2, [0x43E8#16, 0x0010#16], none⟩ := by
  decide

theorem test_G8 : decodeAt (load .data 0#32 [0x803C#16, 0x00FF#16]) 0 =
    some ⟨.OR, [⟨.immediate 0xFF .byte, .byte⟩, ⟨.dataRegisterDirect 0, .byte⟩], some .byte, none, 0#32, 2,
        [0x803C#16, 0x00FF#16], none⟩ := by
  decide

theorem test_G7 : decodeAt (load .data 0#32 [0x8350#16]) 0 =
    some ⟨.OR, [⟨.dataRegisterDirect 1, .word⟩, ⟨.addressRegisterIndirect 0, .word⟩], some .word, none, 0#32, 1,
        [0x8350#16], none⟩ := by
  decide

theorem test_G14 : decodeAt (load .data 0#32 [0x0079#16, 0x8000#16, 0x0000#16, 0x2000#16]) 0 =
    some ⟨.ORI, [⟨.immediate 0x8000 .word, .word⟩, ⟨.absoluteLong 0x2000#32, .word⟩], some .word, none, 0#32, 4,
        [0x0079#16, 0x8000#16, 0x0000#16, 0x2000#16], none⟩ := by
  decide

theorem test_G21 : decodeAt (load .data 0#32 [0x4450#16]) 0 =
    some ⟨.NEG, [⟨.addressRegisterIndirect 0, .word⟩], some .word, none, 0#32, 1, [0x4450#16], none⟩ := by
  decide

theorem test_G25 : decodeAt (load .data 0#32 [0xB190#16]) 0 =
    some ⟨.EOR, [⟨.dataRegisterDirect 0, .long⟩, ⟨.addressRegisterIndirect 0, .long⟩], some .long, none, 0#32, 1,
        [0xB190#16], none⟩ := by
  decide

theorem test_H4 : decodeAt (load .data 0#32 [0xE000#16]) 0 =
    some ⟨.ASR, [⟨.immediate 8 .byte, .byte⟩, ⟨.dataRegisterDirect 0, .byte⟩], some .byte, none, 0#32, 1,
        [0xE000#16], none⟩ := by
  decide

theorem test_H5 : decodeAt (load .data 0#32 [0xE100#16]) 0 =
    some ⟨.ASL, [⟨.immediate 8 .byte, .byte⟩, ⟨.dataRegisterDirect 0, .byte⟩], some .byte, none, 0#32, 1,
        [0xE100#16], none⟩ := by
  decide

theorem test_H2 : decodeAt (load .data 0#32 [0xE0A9#16]) 0 =
    some ⟨.LSR, [⟨.dataRegisterDirect 0, .long⟩, ⟨.dataRegisterDirect 1, .long⟩], some .long, none, 0#32, 1,
        [0xE0A9#16], none⟩ := by
  decide

theorem test_H1 : decodeAt (load .data 0#32 [0xE348#16]) 0 =
    some ⟨.LSL, [⟨.immediate 1 .word, .word⟩, ⟨.dataRegisterDirect 0, .word⟩], some .word, none, 0#32, 1,
        [0xE348#16], none⟩ := by
  decide

theorem test_H6 : decodeAt (load .data 0#32 [0xE018#16]) 0 =
    some ⟨.ROR, [⟨.immediate 8 .byte, .byte⟩, ⟨.dataRegisterDirect 0, .byte⟩], some .byte, none, 0#32, 1,
        [0xE018#16], none⟩ := by
  decide

theorem test_H3 : decodeAt (load .data 0#32 [0xE138#16]) 0 =
    some ⟨.ROL, [⟨.dataRegisterDirect 0, .byte⟩, ⟨.dataRegisterDirect 0, .byte⟩], some .byte, none, 0#32, 1,
        [0xE138#16], none⟩ := by
  decide

theorem test_H13 : decodeAt (load .data 0#32 [0xE0E8#16, 0x0004#16]) 0 =
    some ⟨.ASR, [⟨.addressRegisterIndirectWithDisplacement 0 (4), .word⟩], some .word, none, 0#32, 2, [0xE0E8#16,
        0x0004#16], none⟩ := by
  decide

theorem test_H8 : decodeAt (load .data 0#32 [0xE1D0#16]) 0 =
    some ⟨.ASL, [⟨.addressRegisterIndirect 0, .word⟩], some .word, none, 0#32, 1, [0xE1D0#16], none⟩ := by
  decide

theorem test_H9 : decodeAt (load .data 0#32 [0xE2D0#16]) 0 =
    some ⟨.LSR, [⟨.addressRegisterIndirect 0, .word⟩], some .word, none, 0#32, 1, [0xE2D0#16], none⟩ := by
  decide

theorem test_H10 : decodeAt (load .data 0#32 [0xE3D8#16]) 0 =
    some ⟨.LSL, [⟨.addressRegisterIndirectPostIncrement 0, .word⟩], some .word, none, 0#32, 1, [0xE3D8#16], none⟩ := by
  decide

theorem test_H11 : decodeAt (load .data 0#32 [0xE6E0#16]) 0 =
    some ⟨.ROR, [⟨.addressRegisterIndirectPreDecrement 0, .word⟩], some .word, none, 0#32, 1, [0xE6E0#16], none⟩ := by
  decide

theorem test_H12 : decodeAt (load .data 0#32 [0xE7F8#16, 0x1000#16]) 0 =
    some ⟨.ROL, [⟨.absoluteShort 0x1000#16, .word⟩], some .word, none, 0#32, 2, [0xE7F8#16, 0x1000#16], none⟩ := by
  decide

theorem test_B2 : decodeAt (load .data 0#32 [0x0882#16, 0x0025#16]) 0 =
    some ⟨.BCLR, [⟨.immediate 37 .byte, .byte⟩, ⟨.dataRegisterDirect 2, .long⟩], none, none, 0#32, 2, [0x0882#16,
        0x0025#16], none⟩ := by
  decide

theorem test_B5 : decodeAt (load .data 0#32 [0x08B9#16, 0x0000#16, 0x0000#16, 0x1000#16]) 0 =
    some ⟨.BCLR, [⟨.immediate 0 .byte, .byte⟩, ⟨.absoluteLong 0x1000#32, .byte⟩], none, none, 0#32, 4, [0x08B9#16,
        0x0000#16, 0x0000#16, 0x1000#16], none⟩ := by
  decide

theorem test_B10 : decodeAt (load .data 0#32 [0xB03C#16, 0x0041#16]) 0 =
    some ⟨.CMP, [⟨.immediate 0x41 .byte, .byte⟩, ⟨.dataRegisterDirect 0, .byte⟩], some .byte, none, 0#32, 2,
        [0xB03C#16, 0x0041#16], none⟩ := by
  decide

theorem test_B15 : decodeAt (load .data 0#32 [0x0C80#16, 0x0000#16, 0x0001#16]) 0 =
    some ⟨.CMPI, [⟨.immediate 1 .long, .long⟩, ⟨.dataRegisterDirect 0, .long⟩], some .long, none, 0#32, 3,
        [0x0C80#16, 0x0000#16, 0x0001#16], none⟩ := by
  decide

theorem test_R2 : decodeAt (load .data 0x2000#32 [0x60FE#16]) 0 =
    some ⟨.BRA, [⟨.branchTarget (-2) 0x2000#32, .byte⟩], some .byte, some .T, 0x2000#32, 1, [0x60FE#16], none⟩ := by
  decide

theorem test_R4 : decodeAt (load .data 0#32 [0x6080#16]) 0 =
    some ⟨.BRA, [⟨.branchTarget (-128) 0xFFFFFF82#32, .byte⟩], some .byte, some .T, 0#32, 1, [0x6080#16], none⟩ := by
  decide

theorem test_R8 : decodeAt (load .data 0xFFFFFFFE#32 [0x6002#16, 0x4E75#16]) 0 =
    some ⟨.BRA, [⟨.branchTarget (2) 0x00000002#32, .byte⟩], some .byte, some .T, 0xFFFFFFFE#32, 1, [0x6002#16], none⟩
        := by
  decide

theorem test_R1 : decodeAt (load .data 0x1000#32 [0x6700#16, 0xFFFC#16]) 0 =
    some ⟨.Bcc, [⟨.branchTarget (-4) 0x0FFE#32, .word⟩], some .word, some .EQ, 0x1000#32, 2, [0x6700#16, 0xFFFC#16],
        none⟩ := by
  decide

theorem test_R3 : decodeAt (load .data 0#32 [0x66FF#16, 0x0000#16, 0x0100#16]) 0 =
    some ⟨.Bcc, [⟨.branchTarget (0x100) 0x0102#32, .long⟩], some .long, some .NE, 0#32, 3, [0x66FF#16, 0x0000#16,
        0x0100#16], none⟩ := by
  decide

theorem test_R12 : decodeAt (load .bccF 0#32 [0x6102#16]) 0 =
    some ⟨.Bcc, [⟨.branchTarget (2) 4#32, .byte⟩], some .byte, some .F, 0#32, 1, [0x6102#16], none⟩ := by
  decide

theorem test_R14 : decodeAt (load .data 0#32 [0x4EB9#16, 0x0000#16, 0x4000#16]) 0 =
    some ⟨.JSR, [⟨.absoluteLong 0x4000#32, .long⟩], none, none, 0#32, 3, [0x4EB9#16, 0x0000#16, 0x4000#16], none⟩ := by
  decide

theorem test_R20 : decodeAt (load .data 0#32 [0x4E75#16]) 0 =
    some ⟨.RTS, [], none, none, 0#32, 1, [0x4E75#16], none⟩ := by
  decide

/-- R8, second record: the reported address wraps to 0. -/
theorem test_R8_next : (decodeAt (load .data 0xFFFFFFFE#32 [0x6002#16, 0x4E75#16]) 1).map Instruction.address = some 0#32 := by
  decide

/-- The DATA record's Words are one, and the partial flag is the reason UnsupportedAddressingMode (A23, R31). -/
theorem test_partial_flag :
    (decodeAt (load .data 0#32 [0xC1FA#16, 4#16]) 0).map (fun r => (r.isPartial, r.lengthInWords, r.dataReason)) =
      some (true, 1, some .unsupportedAddressingMode) := by decide

/-- The first step after reset with an instruction placed runs it. -/
theorem test_withFetchWord : step (State.reset.withFetchWord 16 0x4E75) = exec .rts (State.reset.withFetchWord 16 0x4E75) :=
  rfl

/-- The cause codes in the source's order (R144, log 9). -/
theorem test_reason_codes :
    [DataReason.unclassifiedOpcode, .unsupportedAddressingMode, .truncatedBuffer].map DataReason.code = [0, 1, 2] := by
  decide

/-- D2: an odd length is rejected. -/
theorem test_D2 : (State.reset.start [0x4E#8, 0x75#8, 0x00#8] 0#32).phase = .rejected := by decide

/-! ### Witnesses: states and operands that meet the hypotheses of the statements -/

/-- A buffer with one RTS in it. -/
abbrev rtsState : State := load .data 0x1000#32 [0x4E75#16]

theorem test_witness_DecodeOfEncode :
    (Instr.move .word (.addrReg 1#3) (.dataReg 0#3)).wf .data = true ∧ (Instr.bcc 1#4 0#8).wf .bccF = true := by decide

theorem test_witness_EncodeOfClassify : classify .data 0x48E7#16 = some (.movemR2M .long (.preDec 7#3)) := by decide

theorem test_witness_RowsAreDisjoint : Form.rts.holds .data 0x4E75#16 = true ∧ Form.branch.holds .bccF 0x6102#16 = true := by
  decide

theorem test_witness_FormsOfEachClass :
    [0x0000#16, 0x1010#16, 0x2040#16, 0x4480#16, 0x5341#16, 0x6002#16, 0x8041#16, 0x9081#16, 0xB340#16, 0xC3FC#16, 0xD041#16,
        0xE348#16].map (classifyForm .data) =
      [some .ori, some .move, some .movea, some .neg, some .subq, some .branch, some .orToDn, some .subToDn, some .eor,
        some .muls, some .addToDn, some .shiftReg] := by decide

theorem test_witness_NamedOverlapsAreData :
    (∀ w ∈ [0xD140#16, 0x9148#16, 0x8100#16, 0xB148#16, 0x4880#16, 0x003C#16, 0x007C#16],
      (load .data 0#32 [w]).phase = .scanning ∧ (load .data 0#32 [w]).word? 0 = some w) ∧
    0xD140#16 &&& 0xF130#16 = 0xD100#16 ∧ sizeField 0xD140#16 ≠ 0b11#2 ∧
    0x9148#16 &&& 0xF130#16 = 0x9100#16 ∧ sizeField 0x9148#16 ≠ 0b11#2 ∧ 0x8100#16 &&& 0xF1F0#16 = 0x8100#16 ∧
    0xB148#16 &&& 0xF138#16 = 0xB108#16 ∧ sizeField 0xB148#16 ≠ 0b11#2 ∧ 0x4880#16 &&& 0xFFB8#16 = 0x4880#16 :=
  ⟨fun w _ => ⟨load_phase _ _ _, load_word _ _ w⟩, by decide⟩

theorem test_witness_SystemWordsAreData :
    (∀ w ∈ [0x4E4F#16, 0x4E76#16, 0x4FBC#16, 0x4AFC#16, 0x4E70#16, 0x4E71#16, 0x4E72#16, 0x4E73#16, 0x4E77#16, 0x4E6F#16,
        0x46FC#16, 0x40C0#16, 0x44C0#16, 0x003C#16, 0x023C#16, 0x0A3C#16, 0x007C#16, 0x027C#16, 0x0A7C#16],
      (load .data 0#32 [w]).phase = .scanning ∧ (load .data 0#32 [w]).word? 0 = some w) ∧
    0x4E4F#16 &&& 0xFFF0#16 = 0x4E40#16 ∧ 0x4FBC#16 &&& 0xF1C0#16 = 0x4180#16 ∧ 0x4E6F#16 &&& 0xFFF0#16 = 0x4E60#16 ∧
    0x46FC#16 &&& 0xFFC0#16 = 0x46C0#16 ∧ 0x40C0#16 &&& 0xFFC0#16 = 0x40C0#16 ∧ 0x44C0#16 &&& 0xFFC0#16 = 0x44C0#16 :=
  ⟨fun w _ => ⟨load_phase _ _ _, load_word _ _ w⟩, by decide⟩

/-- The displacements of the three widths, at the boundary bytes 0x00, 0xFF, 0x01 and 0xFE. -/
theorem test_branchDesignates :
    BranchDesignates 0x00#8 [0xFFFC#16] (-4) .word ∧ BranchDesignates 0xFF#8 [0xFFFF#16, 0xFFFE#16] (-2) .long ∧
    BranchDesignates 0x01#8 [] 1 .byte ∧ BranchDesignates 0xFE#8 [] (-2) .byte :=
  ⟨⟨_, rfl, rfl, rfl⟩, ⟨_, _, rfl, rfl, rfl⟩, ⟨rfl, rfl, rfl⟩, ⟨rfl, rfl, rfl⟩⟩

theorem test_witness_BsrSlotDecides :
    (load .data 0#32 [0x6102#16]).phase = .scanning ∧ (load .data 0#32 [0x6102#16]).bsrSlot = .data ∧
    (load .data 0#32 [0x6102#16]).holdsAt 0 ((0x61#8 ++ 0x02#8) :: []) ∧
    (load .bccF 0#32 [0x6100#16, 0xFFFC#16]).phase = .scanning ∧
    (load .bccF 0#32 [0x6100#16, 0xFFFC#16]).bsrSlot = .bccF ∧
    (load .bccF 0#32 [0x6100#16, 0xFFFC#16]).holdsAt 0 ((0x61#8 ++ 0x00#8) :: [0xFFFC#16]) ∧
    BranchDesignates 0x00#8 [0xFFFC#16] (-4) .word :=
  ⟨rfl, rfl, load_holdsAt .data 0#32 [0x6102#16], rfl, rfl, load_holdsAt .bccF 0#32 [0x6100#16, 0xFFFC#16],
    test_branchDesignates.1⟩

theorem test_witness_ShiftNames :
    (∀ w ∈ [0xE050#16, 0xE4D0#16], (load .data 0#32 [w]).phase = .scanning ∧ (load .data 0#32 [w]).word? 0 = some w) ∧
    classField 0xE050#16 = 0b1110#4 ∧ classField 0xE4D0#16 = 0b1110#4 ∧
    sizeField 0xE050#16 ≠ 0b11#2 ∧ (0xE050#16 : Word).extractLsb' 3 2 = 0b10#2 ∧
    sizeField 0xE4D0#16 = 0b11#2 ∧ (0xE4D0#16 : Word).extractLsb' 9 2 = 0b10#2 :=
  ⟨fun w _ => ⟨load_phase _ _ _, load_word _ _ w⟩, by decide⟩

theorem test_witness_BitFieldExtractor : 15 ≤ 15 ∧ 0 ≤ 15 ∧ (bfx 0xA5C3#16 15 0).toNat = 0xA5C3 ∧ (bfx 0xA5C3#16 15 15).toNat = 1 := by
  decide

theorem test_witness_ConditionTranslator :
    (∃ t r, exec (.bra 0x02#8) (load .data 0#32 [0x6002#16]) = .next t ∧ t.pending = some r ∧ r.condition = some .T) ∧
    (∃ t r, exec (.bcc 0b1111#4 0x02#8) (load .data 0#32 [0x6F02#16]) = .next t ∧ t.pending = some r ∧
      r.condition = some .LE) :=
  ⟨⟨_, _, rfl, rfl, rfl⟩, ⟨_, _, rfl, rfl, rfl⟩⟩

theorem test_witness_WordIsBigEndian : rtsState.word? 0 = some 0x4E75#16 ∧ rtsState.byte? 0 = some 0x4E#8 := by decide

theorem test_witness_MemReadIsWords :
    (load .data 0#32 [0x0001#16, 0xFFFF#16]).word? 0 = some 1#16 ∧
      (load .data 0#32 [0x0001#16, 0xFFFF#16]).word? (0 + 1) = some 0xFFFF#16 := by decide

/-- Both clauses, where they meet: the last Word and the index after it. -/
theorem test_witness_ExtChecksBounds :
    rtsState.nWords ≤ 1 ∧ 0 < rtsState.nWords ∧ rtsState.word? 0 = some 0x4E75#16 := by decide

theorem test_witness_ReadImmediate :
    ImmDesignates .byte [0xAB12#16] 0x12 ∧ (load .data 0#32 [0xAB12#16]).holdsAt 0 [0xAB12#16] ∧
    ImmDesignates .long [0x0001#16, 0x0000#16] 0x10000 ∧ (load .data 0#32 [1#16, 0#16]).holdsAt 0 [1#16, 0#16] ∧
    (load .data 0#32 [1#16]).bufWf = true ∧ (load .data 0#32 [1#16]).nWords < 0 + immCount .long ∧
    (load .data 0#32 [1#16]).nWords < 1 + immCount .byte :=
  ⟨⟨_, rfl, rfl⟩, load_holdsAt _ _ _, ⟨_, _, rfl, rfl⟩, load_holdsAt _ _ _, load_bufWf _ _ _, by decide, by decide⟩

/-- The last index allowed, where a mode without Words still resolves. -/
theorem test_witness_ResolveIsTheTable :
    1 ≤ rtsState.nWords ∧ (EaDesignates (.dataReg 3#3) .word [] (.dataRegisterDirect 3)) ∧ rtsState.holdsAt 1 [] :=
  ⟨by decide, ⟨rfl, rfl⟩, by decide, by decide⟩

theorem test_witness_ResolveFailures :
    rtsState.bufWf = true ∧ 1 ≤ rtsState.nWords ∧
    rtsState.eaFailure .pcDisp .word 1 = some .unsupportedAddressingMode ∧
    rtsState.eaFailure (.indexed 0#3) .word 1 = some .truncatedBuffer ∧
    rtsState.eaFailure (.indexed 0#3) .word 0 = some .unsupportedAddressingMode ∧
    rtsState.eaFailure .absLong .word 0 = some .truncatedBuffer ∧ rtsState.eaFailure (.dataReg 0#3) .word 1 = none := by
  decide

theorem test_witness_AddressingModeRoundTrip :
    (AddressingMode.addressRegisterIndirectWithDisplacement 1 (-32768)).inRange = true ∧
    (∀ v sz, AddressingMode.addressRegisterIndirectWithDisplacement 1 (-32768) = .immediate v sz → sz = .word) ∧
    (AddressingMode.addressRegisterIndirectWithDisplacement 1 (-32768)).encode? = some (.disp16 1#3, [0x8000#16]) ∧
    (load .data 0#32 [0x8000#16]).holdsAt 0 [0x8000#16] ∧
    (AddressingMode.immediate 255 .byte).inRange = true ∧
    (AddressingMode.immediate 255 .byte).encode? = some (.immediate, [0x00FF#16]) ∧
    EaDesignates .immediate .byte [0x00FF#16] (.immediate 255 .byte) ∧
    EaDesignates .immediate .byte [0xABFF#16] (.immediate 255 .byte) ∧
    EaDesignates (.indexed 1#3) .word [0xA0FE#16] (.addressRegisterIndirectIndexed 1 ⟨.A, 2, .word⟩ (-2)) :=
  ⟨by decide, fun _ _ h => (nomatch h), by decide, load_holdsAt _ _ _, by decide, by decide, ⟨255, ⟨_, rfl, rfl⟩, rfl⟩,
    ⟨255, ⟨_, rfl, rfl⟩, rfl⟩, ⟨0xFE#8, false, 2#3, true, rfl, rfl⟩⟩

theorem test_witness_BranchDisplacement :
    1 ≤ rtsState.nWords ∧ rtsState.holdsAt 1 [] ∧ BranchDesignates 0xFE#8 [] (-2) .byte ∧ rtsState.bufWf = true ∧
    rtsState.nWords < 1 + branchCount 0x00#8 ∧ rtsState.nWords < 0 + branchCount 0xFF#8 :=
  ⟨by decide, ⟨by decide, by decide⟩, test_branchDesignates.2.2.2, load_bufWf _ _ _, by decide, by decide⟩

theorem test_witness_MoveRecord :
    EaDesignates .immediate .long [0x1234#16, 0x5678#16] (.immediate 0x12345678 .long) ∧
    EaDesignates .absLong .long [0x0000#16, 0x4000#16] (.absoluteLong 0x4000#32) ∧
    (load .data 0#32 [0x23FC#16, 0x1234#16, 0x5678#16, 0x0000#16, 0x4000#16]).holdsAt 0
      (encode (.move .long .immediate .absLong) :: ([0x1234#16, 0x5678#16] ++ [0x0000#16, 0x4000#16])) :=
  ⟨⟨_, ⟨_, _, rfl, rfl⟩, rfl⟩, ⟨_, _, rfl, rfl⟩, load_holdsAt _ _ _⟩

/-- The mode of `(A1)`, and Words that hold an instruction with it. -/
theorem test_designates_indirect (size : OperandSize) :
    EaDesignates (.indirect 1#3) size [] (.addressRegisterIndirect 1) := ⟨rfl, rfl⟩

theorem test_witness_MoveaAddaRecord :
    EaDesignates (.indirect 1#3) (WordOrLong.toSize .long) [] (.addressRegisterIndirect 1) ∧
    (load .data 0#32 [0x2451#16]).holdsAt 0 [encode (.movea .long (.indirect 1#3) 2#3)] ∧
    (load .data 0#32 [0xD5D1#16]).holdsAt 0 [encode (.adda .long 2#3 (.indirect 1#3))] :=
  ⟨⟨rfl, rfl⟩, load_holdsAt _ _ _, load_holdsAt _ _ _⟩

/-- Both hypotheses on the mask: M3 (predecrement) and M5 (not). -/
theorem test_witness_MovemRecord :
    EaDesignates (.preDec 7#3) .long [] (.addressRegisterIndirectPreDecrement 7) ∧
    (∀ j, j < 16 → (0x0001#16 : Word).getLsbD j = (0x8000#16 : Word).getLsbD (15 - j)) ∧
    (load .data 0#32 [0x48E7#16, 0x8000#16]).holdsAt 0 [encode (.movemR2M .long (.preDec 7#3)), 0x8000#16] ∧
    (∀ n, Ea.indirect 1#3 ≠ .preDec n) ∧
    (load .data 0#32 [0x4891#16, 0x0001#16]).holdsAt 0 [encode (.movemR2M .word (.indirect 1#3)), 0x0001#16] ∧
    (load .data 0#32 [0x4C91#16, 0x0001#16]).holdsAt 0 [encode (.movemM2R .word (.indirect 1#3)), 0x0001#16] :=
  ⟨⟨rfl, rfl⟩, by decide, load_holdsAt _ _ _, fun _ h => (nomatch h), load_holdsAt _ _ _, load_holdsAt _ _ _⟩

theorem test_witness_EaToDnRecord :
    EaDesignates .immediate .byte [0xAB12#16] (.immediate 0x12 .byte) ∧
    (load .data 0#32 [0xD03C#16, 0xAB12#16]).holdsAt 0 [encode (.addToDn .byte 0#3 .immediate), 0xAB12#16] ∧
    (load .data 0#32 [0x903C#16, 0xAB12#16]).holdsAt 0 [encode (.subToDn .byte 0#3 .immediate), 0xAB12#16] ∧
    (load .data 0#32 [0x803C#16, 0xAB12#16]).holdsAt 0 [encode (.orToDn .byte 0#3 .immediate), 0xAB12#16] ∧
    (load .data 0#32 [0xB03C#16, 0xAB12#16]).holdsAt 0 [encode (.cmp .byte 0#3 .immediate), 0xAB12#16] :=
  ⟨⟨_, ⟨_, rfl, rfl⟩, rfl⟩, load_holdsAt _ _ _, load_holdsAt _ _ _, load_holdsAt _ _ _, load_holdsAt _ _ _⟩

theorem test_witness_DnToEaRecord :
    EaDesignates (.indirect 1#3) .word [] (.addressRegisterIndirect 1) ∧
    (load .data 0#32 [0xD151#16]).holdsAt 0 [encode (.addToEa .word 0#3 (.indirect 1#3))] ∧
    (load .data 0#32 [0x9151#16]).holdsAt 0 [encode (.subToEa .word 0#3 (.indirect 1#3))] ∧
    (load .data 0#32 [0x8151#16]).holdsAt 0 [encode (.orToEa .word 0#3 (.indirect 1#3))] ∧
    (load .data 0#32 [0xB151#16]).holdsAt 0 [encode (.eor .word 0#3 (.indirect 1#3))] :=
  ⟨⟨rfl, rfl⟩, load_holdsAt _ _ _, load_holdsAt _ _ _, load_holdsAt _ _ _, load_holdsAt _ _ _⟩

/-- The ends of the range of the quick data: 8 (field 000) and 1. -/
theorem test_witness_SubqRecord :
    1 ≤ 8 ∧ 8 ≤ 8 ∧ 0#3 = BitVec.ofNat 3 8 ∧ (load .data 0#32 [0x5151#16]).holdsAt 0 [encode (.subq .word 0#3 (.indirect 1#3))] ∧
    1#3 = BitVec.ofNat 3 1 ∧ (load .data 0#32 [0x5351#16]).holdsAt 0 [encode (.subq .word 1#3 (.indirect 1#3))] ∧
    EaDesignates (.indirect 1#3) .word [] (.addressRegisterIndirect 1) :=
  ⟨by decide, by decide, rfl, load_holdsAt _ _ _, rfl, load_holdsAt _ _ _, ⟨rfl, rfl⟩⟩

/-- A zero divisor among them (A26). -/
theorem test_witness_MulsDivsRecord :
    EaDesignates .immediate .word [0x0000#16] (.immediate 0 .word) ∧
    (load .data 0#32 [0xC1FC#16, 0#16]).holdsAt 0 [encode (.muls 0#3 .immediate), 0x0000#16] ∧
    (load .data 0#32 [0x81FC#16, 0#16]).holdsAt 0 [encode (.divs 0#3 .immediate), 0x0000#16] :=
  ⟨⟨_, ⟨_, rfl, rfl⟩, rfl⟩, load_holdsAt _ _ _, load_holdsAt _ _ _⟩

theorem test_witness_LeaJsrRecord :
    EaDesignates .absShort .long [0x8000#16] (.absoluteShort 0x8000#16) ∧
    (load .data 0#32 [0x41F8#16, 0x8000#16]).holdsAt 0 [encode (.lea 0#3 .absShort), 0x8000#16] ∧
    (load .data 0#32 [0x4EB8#16, 0x8000#16]).holdsAt 0 [encode (.jsr .absShort), 0x8000#16] :=
  ⟨⟨_, rfl, rfl⟩, load_holdsAt _ _ _, load_holdsAt _ _ _⟩

theorem test_witness_ImmediateToEaRecord :
    ImmDesignates .word [0x8000#16] 0x8000 ∧
    EaDesignates .absShort .word [0x2000#16] (.absoluteShort 0x2000#16) ∧
    (load .data 0#32 [0x0078#16, 0x8000#16, 0x2000#16]).holdsAt 0
      (encode (.ori .word .absShort) :: ([0x8000#16] ++ [0x2000#16])) ∧
    (load .data 0#32 [0x0C78#16, 0x8000#16, 0x2000#16]).holdsAt 0
      (encode (.cmpi .word .absShort) :: ([0x8000#16] ++ [0x2000#16])) :=
  ⟨⟨_, rfl, rfl⟩, ⟨_, rfl, rfl⟩, load_holdsAt _ _ _, load_holdsAt _ _ _⟩

theorem test_witness_NegRecord :
    EaDesignates (.indirect 1#3) .long [] (.addressRegisterIndirect 1) ∧
    (load .data 0#32 [0x4491#16]).holdsAt 0 [encode (.neg .long (.indirect 1#3))] :=
  ⟨⟨rfl, rfl⟩, load_holdsAt _ _ _⟩

/-- A count register, and the counts 8 (field 000) and 1, for each mnemonic. -/
theorem test_witness_RegisterShiftRecord :
    (ShiftCount.inReg 0#3 = .inReg 0#3 ∧ AddressingMode.dataRegisterDirect 0 = .dataRegisterDirect (0#3 : Field3).toFin) ∧
    ShiftCount.quick 0#3 = .quick (BitVec.ofNat 3 8) ∧ ShiftCount.quick 1#3 = .quick (BitVec.ofNat 3 1) ∧
    (load .data 0#32 [0xE0A1#16]).holdsAt 0 [encode (.asrReg .long (.inReg 0#3) 1#3)] ∧
    (load .data 0#32 [0xE101#16]).holdsAt 0 [encode (.aslReg .byte (.quick 0#3) 1#3)] ∧
    (load .data 0#32 [0xE009#16]).holdsAt 0 [encode (.lsrReg .byte (.quick 0#3) 1#3)] ∧
    (load .data 0#32 [0xE349#16]).holdsAt 0 [encode (.lslReg .word (.quick 1#3) 1#3)] ∧
    (load .data 0#32 [0xE019#16]).holdsAt 0 [encode (.rorReg .byte (.quick 0#3) 1#3)] ∧
    (load .data 0#32 [0xE139#16]).holdsAt 0 [encode (.rolReg .byte (.inReg 0#3) 1#3)] :=
  ⟨⟨rfl, rfl⟩, rfl, rfl, load_holdsAt _ _ _, load_holdsAt _ _ _, load_holdsAt _ _ _, load_holdsAt _ _ _, load_holdsAt _ _ _,
    load_holdsAt _ _ _⟩

theorem test_witness_MemoryShiftRecord :
    EaDesignates (.indirect 1#3) .word [] (.addressRegisterIndirect 1) ∧
    (load .data 0#32 [0xE0D1#16]).holdsAt 0 [encode (.asrMem (.indirect 1#3))] ∧
    (load .data 0#32 [0xE1D1#16]).holdsAt 0 [encode (.aslMem (.indirect 1#3))] ∧
    (load .data 0#32 [0xE2D1#16]).holdsAt 0 [encode (.lsrMem (.indirect 1#3))] ∧
    (load .data 0#32 [0xE3D1#16]).holdsAt 0 [encode (.lslMem (.indirect 1#3))] ∧
    (load .data 0#32 [0xE6D1#16]).holdsAt 0 [encode (.rorMem (.indirect 1#3))] ∧
    (load .data 0#32 [0xE7D1#16]).holdsAt 0 [encode (.rolMem (.indirect 1#3))] :=
  ⟨⟨rfl, rfl⟩, load_holdsAt _ _ _, load_holdsAt _ _ _, load_holdsAt _ _ _, load_holdsAt _ _ _, load_holdsAt _ _ _,
    load_holdsAt _ _ _⟩

/-- Both hypotheses on the size: Dn under Long, memory under Byte. -/
theorem test_witness_BclrRecord :
    (∃ n, Ea.dataReg 2#3 = .dataReg n) ∧ EaDesignates (.dataReg 2#3) .long [] (.dataRegisterDirect 2) ∧
    (load .data 0#32 [0x0882#16, 0xFF25#16]).holdsAt 0 [encode (.bclr (.dataReg 2#3)), 0xFF25#16] ∧
    (∀ n, Ea.indirect 1#3 ≠ .dataReg n) ∧ EaDesignates (.indirect 1#3) .byte [] (.addressRegisterIndirect 1) ∧
    (load .data 0#32 [0x0891#16, 0x0007#16]).holdsAt 0 [encode (.bclr (.indirect 1#3)), 0x0007#16] :=
  ⟨⟨_, rfl⟩, ⟨rfl, rfl⟩, load_holdsAt _ _ _, fun _ h => (nomatch h), ⟨rfl, rfl⟩, load_holdsAt _ _ _⟩

theorem test_witness_BranchRecord :
    BranchDesignates 0x00#8 [0xFFFC#16] (-4) .word ∧
    (load .data 0x1000#32 [0x6000#16, 0xFFFC#16]).holdsAt 0 [encode (.bra 0x00#8), 0xFFFC#16] ∧
    (load .data 0x1000#32 [0x6700#16, 0xFFFC#16]).holdsAt 0 [encode (.bcc 0b0111#4 0x00#8), 0xFFFC#16] ∧
    (load .data 0#32 [0x66FF#16, 0xFFFF#16, 0xFFFE#16]).holdsAt 0 (encode (.bcc 0b0110#4 0xFF#8) :: [0xFFFF#16, 0xFFFE#16]) :=
  ⟨test_branchDesignates.1, load_holdsAt _ _ _, load_holdsAt _ _ _, load_holdsAt _ _ _⟩

theorem test_witness_RtsRecord :
    rtsState.phase = .scanning ∧ rtsState.word? rtsState.cursor = some 0x4E75#16 ∧
    (∀ w ∈ [0x4E70#16, 0x4E77#16],
      (load .data 0#32 [w]).phase = .scanning ∧ (load .data 0#32 [w]).word? 0 = some w) ∧
    0x4E70#16 &&& 0xFFF8#16 = 0x4E70#16 ∧ 0x4E77#16 &&& 0xFFF8#16 = 0x4E70#16 ∧ 0x4E77#16 ≠ 0x4E75#16 :=
  ⟨rfl, load_word _ _ _, fun w _ => ⟨load_phase _ _ _, load_word _ _ w⟩, by decide⟩

/-- The state a decode of RTS leaves. -/
abbrev rtsRecord : Instruction := ⟨.RTS, [], none, none, 0x1000#32, 1, [0x4E75#16], none⟩

/-- The hypothesis of ExecFrame and of the other statements over a next state of exec. -/
theorem test_witness_ExecFrame : exec .rts rtsState = .next (rtsState.withPending rtsRecord) := rfl

theorem test_witness_RecordFields :
    decodeAt rtsState 0 = some rtsRecord ∧
    decodeAt (load .data 0#32 [0x41FA#16]) 0 = some ⟨.DATA, [], none, none, 0#32, 1, [0x41FA#16],
      some .unsupportedAddressingMode⟩ := by decide

theorem test_witness_ExtensionWordCount :
    rtsState.cursor < rtsState.nWords ∧ exec .rts rtsState = .next (rtsState.withPending rtsRecord) ∧
    (rtsState.withPending rtsRecord).pending = some rtsRecord ∧ rtsRecord.dataReason = none :=
  ⟨by decide, rfl, rfl, rfl⟩

theorem test_witness_LengthBounds :
    (decodeAt (load .data 0#32 [0x23FC#16, 1#16, 2#16, 3#16, 4#16]) 0).map Instruction.lengthInWords = some 5 := by decide

theorem test_witness_DecodeAtIsAFunction :
    rtsState.bufWf = true ∧ 0 < rtsState.nWords ∧ scanDecode rtsState = .next (rtsState.withPending rtsRecord) ∧
    (let t := rtsState.withPending rtsRecord
     rtsState.buf = t.buf ∧ rtsState.len = t.len ∧ rtsState.base = t.base ∧ rtsState.bsrSlot = t.bsrSlot) :=
  ⟨load_bufWf _ _ _, by decide, rfl, rfl, rfl, rfl, rfl⟩

/-- Each clause: an unclassified Word; each order of failures (E20 to E23, M12, M13); none. -/
theorem test_witness_FailureOrder :
    (load .data 0#32 [0x4E71#16]).bufWf = true ∧ (load .data 0#32 [0x4E71#16]).word? 0 = some 0x4E71#16 ∧
    (load .data 0#32 [0x4E71#16]).phase = .scanning ∧ classify .data 0x4E71#16 = none ∧
    (load .data 0#32 [0x303A#16]).formFailure (.move .word .pcDisp (.dataReg 0#3)) = some .unsupportedAddressingMode ∧
    (load .data 0#32 [0x3030#16]).formFailure (.move .word (.indexed 0#3) (.dataReg 0#3)) = some .truncatedBuffer ∧
    (load .data 0#32 [0x4CFA#16]).formFailure (.movemM2R .long .pcDisp) = some .truncatedBuffer ∧
    (load .data 0#32 [0x4CFA#16, 3#16]).formFailure (.movemM2R .long .pcDisp) = some .unsupportedAddressingMode ∧
    rtsState.formFailure .rts = none := by decide

/-- A failure of each of the two reasons, and the boundary of a short branch. -/
theorem test_witness_ReasonsOfEachForm :
    (∃ t r, exec (.lea 0#3 .pcDisp) (load .data 0#32 [0x41FA#16]) = .next t ∧ t.pending = some r ∧
      r.dataReason = some .unsupportedAddressingMode) ∧
    (∃ t r, exec (.bclr (.dataReg 2#3)) (load .data 0#32 [0x0882#16]) = .next t ∧ t.pending = some r ∧
      r.dataReason = some .truncatedBuffer) ∧
    (∃ t r, exec (.bra 0x01#8) (load .data 0#32 [0x6001#16]) = .next t ∧ t.pending = some r) ∧
    (∃ t r, exec (.bra 0xFE#8) (load .data 0#32 [0x60FE#16]) = .next t ∧ t.pending = some r) ∧
    (Instr.bclr (.dataReg 2#3)).form = .bclrImm :=
  ⟨⟨_, _, rfl, rfl, rfl⟩, ⟨_, _, rfl, rfl, rfl⟩, ⟨_, _, rfl, rfl⟩, ⟨_, _, rfl, rfl⟩, rfl⟩

/-- A DATA record pending, with a Word left after it. -/
theorem test_witness_RecoveryResynchronises :
    let s := load .data 0#32 [0x4E71#16, 0x4E75#16]
    s.bufWf = true ∧ step s = .next (s.withPending (s.dataAt 0x4E71#16 .unclassifiedOpcode)) ∧ s.cursor + 1 < s.nWords :=
  ⟨load_bufWf _ _ _, rfl, by decide⟩

theorem test_witness_StepRunsTheDecodedInstruction :
    rtsState.phase = .scanning ∧ rtsState.byte? 0 = some 0x4E#8 ∧ rtsState.byte? 1 = some 0x75#8 ∧
    decode rtsState.bsrSlot [0x4E#8, 0x75#8] = .ok (.rts, []) ∧
    (load .data 0#32 [0x4E71#16]).byte? 1 = some 0x71#8 ∧ decode .data [0x4E#8, 0x71#8] = .error .unclassifiedOpcode := by decide

/-- A run that has reached the end of its buffer. -/
abbrev endState : State := { load .data 0#32 [] with phase := .endOfBuffer }

theorem test_witness_ScanEndStep :
    (load .data 0#32 []).phase = .scanning ∧ (load .data 0#32 []).nWords ≤ (load .data 0#32 []).cursor ∧
    endState.phase = .endOfBuffer := by decide

/-- The last Word of a buffer, and two states that agree from it on. -/
theorem test_witness_ScanDecodeStep :
    rtsState.phase = .scanning ∧ rtsState.cursor < rtsState.nWords ∧ decodeAt rtsState rtsState.cursor = some rtsRecord ∧
    (load .data 0#32 [0x4E71#16, 0x4E75#16]).len = (load .data 0#32 [0x0000#16, 0x4E75#16]).len ∧
    (∀ off, 2 * 1 ≤ off → (load .data 0#32 [0x4E71#16, 0x4E75#16]).byte? off = (load .data 0#32 [0x0000#16, 0x4E75#16]).byte? off) := by
  refine ⟨by decide, by decide, by decide, by decide, fun off h => ?_⟩
  rw [load, load, State.start_byte?, State.start_byte?]
  match off, h with
  | 2, _ => rfl
  | 3, _ => rfl
  | n + 4, _ => rfl

theorem test_witness_EmitStep :
    (rtsState.withPending rtsRecord).phase = .emittingInstruction ∧
      (rtsState.withPending rtsRecord).pending = some rtsRecord := ⟨rfl, rfl⟩

/-- The invariant in a state that has emitted a record. -/
theorem test_inv_after_emit :
    ({ load .data 0x1000#32 [0x4E75#16] with cursor := 1, out := [rtsRecord] } : State).Inv where
  bufHeld := load_bufWf .data 0x1000#32 [0x4E75#16]
  rejectedIff := by decide
  rejectedEmpty := by decide
  cursorLe := by decide
  pendingIff := by decide
  pendingIs := by intro r h; cases h
  ended := by decide
  covered := ⟨by decide, by decide, rfl⟩

theorem test_witness_FinalStates :
    endState.phase = .endOfBuffer ∧ (State.reset.start [0x00#8] 0#32).phase = .rejected ∧
    ({ load .data 0x1000#32 [0x4E75#16] with cursor := 1, out := [rtsRecord] } : State).phase = .scanning := by decide

theorem test_witness_StartCommand : [0x4E#8].length % 2 = 1 ∧ [0x4E#8, 0x75#8].length % 2 = 0 := by decide

/-- A step of each kind, with which the statements over steps run. -/
theorem test_witness_RegistersWrittenBySteps :
    step rtsState = .next (rtsState.withPending rtsRecord) ∧
    step (rtsState.withPending rtsRecord) = .next { rtsState with cursor := 1, out := [rtsRecord] } ∧
    step { rtsState with cursor := 1, out := [rtsRecord] } =
      .next { rtsState with cursor := 1, out := [rtsRecord], phase := .endOfBuffer } := ⟨rfl, rfl, rfl⟩

theorem test_witness_BufferIsReadOnly :
    step rtsState = .next (rtsState.withPending rtsRecord) ∧ exec .rts rtsState = .next (rtsState.withPending rtsRecord) :=
  ⟨rfl, rfl⟩

theorem test_witness_ResetIsAnEmptyStart : (load .data 0#32 []).bsrSlot = .data := rfl

theorem test_witness_FetchWordRuns :
    classify State.reset.bsrSlot (BitVec.ofNat 16 (0x4E75 % 2 ^ 16)) = some .rts ∧ State.reset.bsrSlot = .data := by decide

theorem test_witness_InvKeptByStep :
    ({ rtsState with cursor := 1, out := [rtsRecord] } : State).Inv ∧
    step { rtsState with cursor := 1, out := [rtsRecord] } =
      .next { rtsState with cursor := 1, out := [rtsRecord], phase := .endOfBuffer } := ⟨test_inv_after_emit, rfl⟩

/-- The invariant with a record in OUT, split at that record. -/
theorem test_witness_RecordsCoverTheBuffer :
    ({ rtsState with cursor := 1, out := [rtsRecord] } : State).Inv ∧ [rtsRecord] = [] ++ rtsRecord :: [] :=
  ⟨test_inv_after_emit, rfl⟩

/-- A reachable state that is not final, and one that is. -/
theorem test_witness_NoReachableStateFails : Reachable rtsState ∧ Reachable (State.reset.start [0x00#8] 0#32) :=
  ⟨.start _ _ _, .start _ _ _⟩

theorem test_witness_EveryRunEnds :
    (bytesOfWords [0x4E75#16]).length % 2 = 0 ∧
    Host.Core.run Sys2Proof.core 3 (State.reset.start (bytesOfWords [0x4E75#16]) 0x1000#32) =
      .next { rtsState with cursor := 1, out := [rtsRecord], phase := .endOfBuffer } := ⟨rfl, rfl⟩

/-- A run cut after its first record, the whole run and the run of the rest. -/
theorem test_witness_SegmentRunAgrees :
    let bytes := bytesOfWords [0x4E71#16, 0x4E75#16]
    ∃ t u v : State, bytes.length % 2 = 0 ∧
      Host.Core.run Sys2Proof.core 2 (State.reset.start bytes 0#32) = .next t ∧ t.phase = .scanning ∧
      Host.Core.run Sys2Proof.core 5 (State.reset.start bytes 0#32) = .next u ∧ u.phase = .endOfBuffer ∧
      Host.Core.run Sys2Proof.core 3
        (State.reset.start (bytes.drop (2 * t.cursor)) (0#32 + BitVec.ofNat 32 (2 * t.cursor))) = .next v ∧
      v.phase = .endOfBuffer :=
  ⟨_, _, _, rfl, rfl, rfl, rfl, rfl, rfl, rfl⟩

end Sys2Proof.Tests
end

section
/-! SUPPORT. The state of the Driver: what a run's invariant gives, that START sets it up and every step keeps it, and
how many steps a run can still make. -/

namespace Sys2Proof.Machine

open Sys2Proof State

/-! ### What a step and a record guarantee -/

/-- No step writes the buffer, `L`, BASE or BSR_SLOT (R33, R46). -/
theorem step_input {s t : State} (h : step s = .next t) :
    t.buf = s.buf ∧ t.len = s.len ∧ t.base = s.base ∧ t.bsrSlot = s.bsrSlot := by
  rcases step_cases h with ⟨-, -, rfl⟩ | ⟨-, -, r, -, rfl⟩ | ⟨-, r, -, rfl⟩ <;>
    exact ⟨rfl, rfl, rfl, rfl⟩

theorem step_scanEnd {s : State} (hp : s.phase = .scanning) (hc : s.nWords ≤ s.cursor) :
    step s = .next s.scanEnd := by
  simp only [step, hp, if_pos hc]

theorem step_pend {s : State} {r : Instruction} (hp : s.phase = .scanning) (hc : s.cursor < s.nWords)
    (hd : decodeAt s s.cursor = some r) : step s = .next (s.pend r) := by
  simp only [step, hp, if_neg (Nat.not_le.2 hc)]
  exact decodeAt_cursor.1 hd

theorem step_emitRecord {s : State} {r : Instruction} (hp : s.phase = .emittingInstruction)
    (hr : s.pending = some r) : step s = .next (s.emitRecord r) := by
  simp only [step, hp, State.emit, hr]

theorem step_of_final {s : State} (h : s.final) : step s = .refused .runEnded := by
  rcases h with h | h <;> simp only [step, h]

theorem step_ne_next_of_final {s : State} (h : s.final) (t : State) : step s ≠ .next t := by
  simp [step_of_final h]

theorem instrMnemonic_ne_DATA (i : Instr) : instrMnemonic i ≠ .DATA := by
  cases i <;> simp [instrMnemonic]

/-- A decode consumes at least its opcode Word. -/
theorem one_le_length_of_decodeAt {s : State} {c : Nat} {r : Instruction} (h : decodeAt s c = some r) :
    1 ≤ r.lengthInWords := by
  obtain ⟨-, -, -, -, ⟨i, x, -, -, hl, -⟩ | ⟨q, w, rfl⟩⟩ := decodeAt_cases h
  · omega
  · exact Nat.le_refl 1

/-- A decode consumes no Word past the buffer's end (R110). -/
theorem decodeAt_end_le {s : State} {c : Nat} {r : Instruction} (h : decodeAt s c = some r) :
    c + r.lengthInWords ≤ s.nWords := by
  obtain ⟨-, hh, hl, -⟩ := decodeAt_cases h
  have := holdsAt_le hh
  omega

/-- `DecodeAt(c)` reads the bytes from offset `2c` on alone. -/
theorem decodeAt_of_byte?_eq {s s' : State} {c : Nat} (hl : s.len = s'.len) (hbase : s.base = s'.base)
    (hslot : s.bsrSlot = s'.bsrSlot) (hbyte : ∀ off, 2 * c ≤ off → s.byte? off = s'.byte? off) :
    decodeAt s c = decodeAt s' c := by
  have ha : Agree s s' 0 c :=
    { nWords := by rw [nWords_congr hl, Nat.zero_add]
      word := fun j hj => by
        simp only [Nat.zero_add, word?, hbyte (2 * j) (by omega), hbyte (2 * j + 1) (by omega)] }
  have h := ha.decodeAt hslot (by simp only [addressOf, Nat.zero_add, hbase])
  rwa [Nat.zero_add] at h

/-! A decode and a cover see what no step writes. -/

@[simp] theorem pend_decodeAt (s : State) (r : Instruction) (c : Nat) : decodeAt (s.pend r) c = decodeAt s c :=
  decodeAt_congr c rfl rfl rfl rfl

@[simp] theorem pend_covers (s : State) (r : Instruction) (c : Nat) (rs : List Instruction) (e : Nat) :
    (s.pend r).covers c rs e ↔ s.covers c rs e :=
  covers_congr (s := s.pend r) (t := s) rfl rfl rfl rfl c rs e

@[simp] theorem scanEnd_covers (s : State) (c : Nat) (rs : List Instruction) (e : Nat) :
    s.scanEnd.covers c rs e ↔ s.covers c rs e :=
  covers_congr (s := s.scanEnd) (t := s) rfl rfl rfl rfl c rs e

@[simp] theorem emitRecord_covers (s : State) (r : Instruction) (c : Nat) (rs : List Instruction) (e : Nat) :
    (s.emitRecord r).covers c rs e ↔ s.covers c rs e :=
  covers_congr (s := s.emitRecord r) (t := s) rfl rfl rfl rfl c rs e

/-! ### The invariant of a run -/

namespace State.Inv

theorem len_even {s : State} (h : s.Inv) (hp : s.phase ≠ .rejected) : s.len % 2 = 0 := by
  have := mt h.rejectedIff.2 hp
  omega

theorem pending_none {s : State} (h : s.Inv) (hp : s.phase ≠ .emittingInstruction) : s.pending = none := by
  rw [← Option.not_isSome_iff_eq_none, h.pendingIff]
  exact hp

theorem pending_some {s : State} (h : s.Inv) (hp : s.phase = .emittingInstruction) : ∃ r, s.pending = some r :=
  Option.isSome_iff_exists.1 (h.pendingIff.2 hp)

/-- START sets the invariant up, whatever the bytes (R35). -/
theorem of_start (s : State) (bytes : List Byte) (base : Addr) : (s.start bytes base).Inv where
  bufHeld := start_bufWf s bytes base
  rejectedIff := by simp
  rejectedEmpty _ := rfl
  cursorLe := Nat.zero_le _
  pendingIff := by
    rw [start_phase, start_pending]
    split <;> simp
  pendingIs := by simp
  ended := by
    rw [start_phase]
    split <;> simp
  covered := rfl

/-- SCAN-END comes with the cursor at `N` (R36). -/
theorem scanEnd {s : State} (h : s.Inv) (hp : s.phase = .scanning) (hc : s.nWords ≤ s.cursor) : s.scanEnd.Inv where
  bufHeld := h.bufHeld
  rejectedIff := by simp [h.len_even (by simp [hp])]
  rejectedEmpty := by simp
  cursorLe := h.cursorLe
  pendingIff := by simp [h.pending_none (by simp [hp])]
  pendingIs := by simp [h.pending_none (by simp [hp])]
  ended _ := Nat.le_antisymm h.cursorLe hc
  covered := by simpa using h.covered

/-- SCAN-DECODE leaves the decode at the cursor pending (R37). -/
theorem pend {s : State} {r : Instruction} (h : s.Inv) (hp : s.phase = .scanning) (hc : s.cursor < s.nWords)
    (hd : decodeAt s s.cursor = some r) : (s.pend r).Inv where
  bufHeld := h.bufHeld
  rejectedIff := by simp [h.len_even (by simp [hp])]
  rejectedEmpty := by simp
  cursorLe := h.cursorLe
  pendingIff := by simp
  pendingIs := by
    rintro q ⟨⟩
    exact ⟨hc, by simpa using hd⟩
  ended := by simp
  covered := by simpa using h.covered

/-- EMIT extends the cover of Words `0 .. CURSOR-1` by the pending record's own Words (R38, R41). -/
theorem emitRecord {s : State} {r : Instruction} (h : s.Inv) (hp : s.phase = .emittingInstruction)
    (hr : s.pending = some r) : (s.emitRecord r).Inv := by
  obtain ⟨hc, hd⟩ := h.pendingIs r hr
  exact
    { bufHeld := h.bufHeld
      rejectedIff := by simp [h.len_even (by simp [hp])]
      rejectedEmpty := by simp
      cursorLe := decodeAt_end_le (s := s) hd
      pendingIff := by simp
      pendingIs := by simp
      ended := by simp
      covered := by
        rw [emitRecord_covers]
        exact covers_append.2 ⟨s.cursor, h.covered, hc, hd, rfl⟩ }

theorem of_step {s t : State} (h : s.Inv) (hst : step s = .next t) : t.Inv := by
  rcases step_cases hst with ⟨hp, hc, rfl⟩ | ⟨hp, hc, r, hd, rfl⟩ | ⟨hp, r, hr, rfl⟩
  · exact h.scanEnd hp hc
  · exact h.pend hp hc hd
  · exact h.emitRecord hp hr

/-- In every state of a run that is not final a step is enabled (R39). -/
theorem exists_step {s : State} (h : s.Inv) (hf : ¬ s.final) : ∃ t, step s = .next t := by
  cases hp : s.phase with
  | scanning =>
    rcases Nat.lt_or_ge s.cursor s.nWords with hc | hc
    · obtain ⟨r, hd⟩ := decodeAt_total h.bufHeld hc
      exact ⟨_, step_pend hp hc hd⟩
    · exact ⟨_, step_scanEnd hp hc⟩
  | emittingInstruction =>
    obtain ⟨r, hr⟩ := h.pending_some hp
    exact ⟨_, step_emitRecord hp hr⟩
  | endOfBuffer => exact (hf (.inl hp)).elim
  | rejected => exact (hf (.inr hp)).elim

end State.Inv

/-! ### How long a run can be -/

/-- A bound on the steps a run can still make: a decode and an EMIT for each Word left, and SCAN-END (R41, R170). -/
def State.stepsLeft (s : State) : Nat :=
  match s.phase with
  | .scanning => 2 * (s.nWords - s.cursor) + 1
  | .emittingInstruction => 2 * (s.nWords - s.cursor)
  | .endOfBuffer | .rejected => 0

theorem stepsLeft_step {s t : State} (h : s.Inv) (hst : step s = .next t) : t.stepsLeft < s.stepsLeft := by
  rcases step_cases hst with ⟨hp, -, rfl⟩ | ⟨hp, -, r, -, rfl⟩ | ⟨hp, r, hr, rfl⟩
  · simp [stepsLeft, hp]
  · simp [stepsLeft, hp]
  · obtain ⟨hc, hd⟩ := h.pendingIs r hr
    have := one_le_length_of_decodeAt hd
    simp only [stepsLeft, hp, emitRecord_phase, emitRecord_nWords, emitRecord_cursor]
    omega

/-- Every state of a run meets the invariant over the same buffer length, and each of its steps uses up the bound. -/
theorem run_inv {k : Nat} {s t : State} (h : s.Inv) (hrun : run k s = .next t) :
    t.Inv ∧ t.len = s.len ∧ k + t.stepsLeft ≤ s.stepsLeft := by
  induction k generalizing s with
  | zero =>
    cases hrun
    exact ⟨h, rfl, by omega⟩
  | succ k ih =>
    obtain ⟨m, hst, hrun⟩ := run_succ_next hrun
    obtain ⟨-, hlen, -⟩ := step_input hst
    obtain ⟨hinv, hlen', hk⟩ := ih (h.of_step hst) hrun
    have := stepsLeft_step h hst
    exact ⟨hinv, hlen'.trans hlen, by omega⟩

/-- Every run reaches a final state. -/
theorem exists_run_final {s : State} (h : s.Inv) : ∃ k t, run k s = .next t ∧ t.final := by
  by_cases hf : s.final
  · exact ⟨0, s, rfl, hf⟩
  · obtain ⟨m, hst⟩ := h.exists_step hf
    have := stepsLeft_step h hst
    obtain ⟨k, t, hrun, ht⟩ := exists_run_final (h.of_step hst)
    exact ⟨k + 1, t, by rw [run_succ, hst]; exact hrun, ht⟩
termination_by s.stepsLeft

end Sys2Proof.Machine
end

section
/-! The obligations on the Driver's state (`10_state.md`). -/

namespace Sys2Proof.Machine

open Sys2Proof State

/-- Settles O56: each of SCAN-END, SCAN-DECODE and EMIT keeps the invariant. -/
theorem invKeptByStep : Obligations.InvKeptByStep :=
  fun _ _ h hst => h.of_step hst

/-- Settles O36: every meaning ends in the one write of PENDING and STATE. -/
theorem execFrame : Obligations.ExecFrame := by
  intro i s t h
  obtain ⟨r, rfl⟩ := exec_pends h
  exact ⟨rfl, rfl, rfl, rfl, rfl, rfl, fun _ => rfl, rfl, rfl⟩

/-- Settles O37, for the record of a form from what its rule guarantees, and for a DATA record from its definition. -/
theorem recordFields : Obligations.RecordFields := by
  intro s c r h
  obtain ⟨hc, hh, hl, haddr, hcase⟩ := decodeAt_cases h
  have hlen := one_le_length_of_decodeAt h
  rcases hcase with ⟨i, x, hreason, hmn, -, hops, hcond, hx⟩ | ⟨q, w, rfl⟩
  · obtain ⟨hok, -⟩ := formDecode_ok (s := { s with cursor := c }) hc hx
    rw [hops, hcond, hmn, hreason]
    exact ⟨hok.operands_le, hok.inRange, condition_iff hx, haddr, hlen, hl, hh, by simp [instrMnemonic_ne_DATA]⟩
  · refine ⟨?_, ?_, ?_, haddr, hlen, hl, hh, ?_⟩ <;> simp [dataRecord]

/-- Settles O46. -/
theorem scanDecodeStep : Obligations.ScanDecodeStep :=
  ⟨fun _ _ hp hc hd => step_pend hp hc hd, fun _ _ _ => decodeAt_of_byte?_eq⟩

/-- Settles O48: a final state refuses the step, and the invariant gives every other state its step. -/
theorem finalStates : Obligations.FinalStates :=
  ⟨fun _ t hf => step_ne_next_of_final hf t, fun _ h he hr => h.exists_step (not_or.2 ⟨he, hr⟩)⟩

/-- Settles O49, from what START writes. -/
theorem startCommand : Obligations.StartCommand := by
  refine ⟨fun s bytes base => ?_, fun s s' bytes base hslot => ?_⟩
  · refine ⟨s.start bytes base, rfl, start_byte? s bytes base, start_bufWf s bytes base, rfl, rfl, rfl, rfl, rfl, rfl,
      fun hodd => ?_, fun heven => ?_⟩
    · have hp : (s.start bytes base).phase = .rejected := by rw [start_phase, if_pos hodd]
      exact ⟨hp, step_ne_next_of_final (.inr hp)⟩
    · rw [start_phase, if_neg (by omega)]
  · simp only [hostMove, start, hslot]

/-- Settles O51, for each of the three steps. -/
theorem registersWrittenBySteps : Obligations.RegistersWrittenBySteps := by
  intro s t h
  obtain ⟨-, -, hbase, hslot⟩ := step_input h
  refine ⟨hbase, hslot, ?_⟩
  rcases step_cases h with ⟨hp, -, rfl⟩ | ⟨hp, -, r, -, rfl⟩ | ⟨hp, r, hr, rfl⟩
  · exact ⟨fun _ => ⟨rfl, rfl, .inl ⟨rfl, rfl⟩⟩, by simp [hp], ⟨[], List.append_nil _⟩, Nat.le_refl _,
      fun _ _ hj => hj⟩
  · exact ⟨fun _ => ⟨rfl, rfl, .inr ⟨rfl, rfl⟩⟩, by simp [hp], ⟨[], List.append_nil _⟩, Nat.le_refl _,
      fun _ _ hj => hj⟩
  · exact ⟨by simp [hp], fun _ => ⟨rfl, rfl, r, hr, rfl, rfl⟩, ⟨[r], rfl⟩, Nat.le_add_right _ _,
      fun _ _ hj => (List.getElem?_append_left (List.getElem?_eq_some_iff.1 hj).1).trans hj⟩

/-- Settles O55. -/
theorem invAfterStart : Obligations.InvAfterStart := Inv.of_start

/-- Settles O57: the lengths of a cover sum to where it ends, and a cover splits at each of its records. -/
theorem recordsCoverTheBuffer : Obligations.RecordsCoverTheBuffer := by
  intro s h
  have hsum : s.cursor = sumLengths s.out := by simpa using covers_sum h.covered
  refine ⟨hsum.symm, h.cursorLe, fun he => hsum.symm.trans (h.ended he), fun before after r hout => ?_⟩
  have hcov := h.covered
  rw [hout] at hcov
  obtain ⟨m, hbefore, -, hd, -⟩ := covers_append.1 hcov
  obtain rfl : m = sumLengths before := by simpa using covers_sum hbefore
  obtain ⟨-, -, -, haddr, -⟩ := decodeAt_cases hd
  exact ⟨hd, haddr⟩

/-- Settles O59: the bound after START is `2N + 1`, every step uses it up, and a run of an even buffer ends in no other
final state than EndOfBuffer. -/
theorem everyRunEnds : Obligations.EveryRunEnds := by
  intro s bytes base heven
  have hinv := Inv.of_start s bytes base
  have hleft : (s.start bytes base).stepsLeft = 2 * (bytes.length / 2) + 1 := by
    simp [stepsLeft, nWords, heven]
  have hbound : ∀ k t, run k (s.start bytes base) = .next t → k ≤ 2 * (bytes.length / 2) + 1 := by
    intro k t hrun
    obtain ⟨-, -, hk⟩ := run_inv hinv hrun
    omega
  obtain ⟨k, t, hrun, hfinal⟩ := exists_run_final hinv
  obtain ⟨ht, hlen, -⟩ := run_inv hinv hrun
  have hlen : t.len = bytes.length := hlen
  have hend : t.phase = .endOfBuffer := hfinal.resolve_right fun hrej => by
    have := ht.rejectedIff.1 hrej
    omega
  obtain ⟨hsum, -, -, -⟩ := recordsCoverTheBuffer t ht
  have hcursor : t.cursor = bytes.length / 2 := by rw [ht.ended hend, nWords, hlen]
  exact ⟨⟨k, t, hbound k t hrun, hrun, hend, hcursor, hsum.trans hcursor⟩, hbound⟩

/-- Settles O45. -/
theorem scanEndStep : Obligations.ScanEndStep :=
  ⟨fun _ hp hc => step_scanEnd hp hc, fun _ t he => step_ne_next_of_final (.inl he) t⟩

/-- Settles O47. -/
theorem emitStep : Obligations.EmitStep :=
  fun _ _ hp hr => step_emitRecord hp hr

/-- Settles O54: the reset state is what a START of the empty buffer leaves. -/
theorem invAtReset : Obligations.InvAtReset := Inv.of_start State.reset [] 0#32

end Sys2Proof.Machine
end

section
/-! SUPPORT. Words and `MemRead` as numbers over the bytes of the buffer. -/

namespace Sys2Proof.Machine.State

open Sys2Proof

theorem word?_eq_some {s : State} {k : Nat} {w : Word} :
    s.word? k = some w ↔
      ∃ hi lo, s.byte? (2 * k) = some hi ∧ s.byte? (2 * k + 1) = some lo ∧ w = wordOfBytes hi lo := by
  simp only [word?]
  cases s.byte? (2 * k) <;> cases s.byte? (2 * k + 1) <;> simp [eq_comm]

theorem eq_wordOfBytes_iff {w : Word} {hi lo : Byte} :
    w = wordOfBytes hi lo ↔ w.toNat = hi.toNat * 256 + lo.toNat := by
  rw [← wordOfBytes_toNat, BitVec.toNat_inj]

theorem memRead?_two (s : State) (k : Nat) : s.memRead? (2 * k) 2 = (s.word? k).map BitVec.toNat := by
  simp only [memRead?, word?]
  cases s.byte? (2 * k) <;> cases s.byte? (2 * k + 1) <;> simp [wordOfBytes_toNat]

/-- A read of adjacent byte ranges is big-endian in its parts (R50). -/
theorem memRead?_append {s : State} {m n off a b : Nat} (ha : s.memRead? off m = some a)
    (hb : s.memRead? (off + m) n = some b) : s.memRead? off (m + n) = some (a * 256 ^ n + b) := by
  induction m generalizing off a with
  | zero =>
    cases ha
    simpa using hb
  | succ m ih =>
    rw [memRead?] at ha
    split at ha
    · next x rest hx hrest =>
      cases ha
      have htail := ih hrest (by rwa [Nat.add_right_comm, Nat.add_assoc])
      rw [Nat.add_right_comm, memRead?, hx, htail]
      simp only [Option.some.injEq]
      ring
    · cases ha

theorem memRead?_four {s : State} {k : Nat} {h l : Word} (hh : s.word? k = some h) (hl : s.word? (k + 1) = some l) :
    s.memRead? (2 * k) 4 = some (h.toNat * 65536 + l.toNat) := by
  have hhi : s.memRead? (2 * k) 2 = some h.toNat := by rw [memRead?_two, hh, Option.map_some]
  have hlo : s.memRead? (2 * k + 2) 2 = some l.toNat := by
    rw [show 2 * k + 2 = 2 * (k + 1) by rfl, memRead?_two, hl, Option.map_some]
  exact memRead?_append hhi hlo

end Sys2Proof.Machine.State
end

section
/-! The obligations on the buffer (`20_memory.md`). -/

namespace Sys2Proof.Machine

open Sys2Proof State

/-- Settles O13: a Word is formed from its two bytes, and is determined by its number. -/
theorem wordIsBigEndian : Obligations.WordIsBigEndian := by
  intro s k w
  simp only [word?_eq_some, eq_wordOfBytes_iff]

/-- Settles O14: four bytes are two adjacent reads of two. -/
theorem memReadIsWords : Obligations.MemReadIsWords := by
  intro s k
  refine ⟨memRead?_two s k, fun h l hh hl => ⟨memRead?_four hh hl, ?_, longOfWords_toNat h l⟩⟩
  exact extLong_eq_ok.2 ⟨h, l, hh, hl, rfl⟩

/-- Settles O50: a step writes none of the inputs of the run, and a meaning writes PENDING and STATE alone. -/
theorem bufferIsReadOnly : Obligations.BufferIsReadOnly := by
  rintro s t (hst | ⟨i, hex⟩)
  · obtain ⟨hbuf, hlen, -⟩ := step_input hst
    exact ⟨hbuf, hlen, byte?_congr hbuf hlen⟩
  · obtain ⟨r, rfl⟩ := exec_pends hex
    exact ⟨rfl, rfl, pend_byte? s r⟩

end Sys2Proof.Machine
end

section
/-! SUPPORT. The way back from a Word to the instruction: a mask test on literal fields, each format built again from the
fields of a Word, and what the instruction of a form takes from its Word. -/

namespace Sys2Proof

/-! ### Fields of a Word under a literal mask -/

/-- A mask test, field by field, with the fields of the mask and the pattern as literals that `simp` evaluates. -/
theorem mask_iff_literals (w mask pattern : Word) :
    w &&& mask = pattern ↔
      classField w &&& mask.extractLsb' 12 4 = pattern.extractLsb' 12 4 ∧
      regField w &&& mask.extractLsb' 9 3 = pattern.extractLsb' 9 3 ∧
      opmodeField w &&& mask.extractLsb' 6 3 = pattern.extractLsb' 6 3 ∧
      eaModeField w &&& mask.extractLsb' 3 3 = pattern.extractLsb' 3 3 ∧
      eaRegField w &&& mask.extractLsb' 0 3 = pattern.extractLsb' 0 3 :=
  mask_iff_fields w mask pattern

/-- A three-bit field is its high bit and its low two bits. -/
theorem field3_split (o : Field3) : o = BitVec.ofBool (o.getLsbD 2) ++ o.extractLsb' 0 2 := by
  revert o
  decide

theorem opmodeField_split (w : Word) : opmodeField w = BitVec.ofBool (bitAt w 8) ++ sizeField w := by
  rw [bitAt_8_eq, sizeField_eq]
  exact field3_split _

theorem eaModeField_split (w : Word) : eaModeField w = BitVec.ofBool (bitAt w 5) ++ bfx w 4 3 := by
  rw [bitAt_5_eq, regTypeField_eq]
  exact field3_split _

theorem getLsbD_two_of_and_four {o : Field3} (h : o &&& 4#3 = 4#3) : o.getLsbD 2 = true := by
  revert o
  decide

theorem getLsbD_two_of_and_four_eq_zero {o : Field3} (h : o &&& 4#3 = 0#3) : o.getLsbD 2 = false := by
  revert o
  decide

theorem low_bits_of_and_three {o : Field3} (h : o &&& 3#3 = 3#3) : o.extractLsb' 0 2 = 0b11#2 := by
  revert o
  decide

/-- The direction bit, the high bit of the opmode, when the mask test fixes it to 1 (R81). -/
theorem opmodeField_of_and_four {w : Word} (h : opmodeField w &&& 4#3 = 4#3) :
    opmodeField w = 0b1#1 ++ sizeField w := by
  rw [opmodeField_split, bitAt_8_eq, getLsbD_two_of_and_four h]
  rfl

/-- The direction bit when the mask test fixes it to 0 (R81). -/
theorem opmodeField_of_and_four_eq_zero {w : Word} (h : opmodeField w &&& 4#3 = 0#3) :
    opmodeField w = 0b0#1 ++ sizeField w := by
  rw [opmodeField_split, bitAt_8_eq, getLsbD_two_of_and_four_eq_zero h]
  rfl

/-- The size bits when the mask test fixes them to 11, as in ADDA and the memory shifts. -/
theorem opmodeField_of_and_three {w : Word} (h : opmodeField w &&& 3#3 = 3#3) :
    opmodeField w = BitVec.ofBool (bitAt w 8) ++ 0b11#2 := by
  rw [opmodeField_split, sizeField_eq, low_bits_of_and_three h]

/-- The size bit of MOVEM, bit 6, under its row's mask (R67, R82). -/
theorem opmodeField_of_and_six {w : Word} (h : opmodeField w &&& 6#3 = 2#3) :
    opmodeField w = 0b01#2 ++ BitVec.ofBool (bitAt w 6) := by
  rw [bitAt_6_eq]
  revert h
  generalize opmodeField w = o
  revert o
  decide

/-- The class of MOVE and MOVEA under their rows' masks: 00 and the size (R66). -/
theorem classField_of_and_twelve {w : Word} (h : classField w &&& 12#4 = 0#4) :
    classField w = 0b00#2 ++ moveSizeField w := by
  rw [moveSizeField_eq]
  revert h
  generalize classField w = c
  revert c
  decide

/-- The fixed high bit of the register field in the memory shifts (R76). -/
theorem regField_of_and_four {w : Word} (h : regField w &&& 4#3 = 0#3) : regField w = 0b0#1 ++ bfx w 10 9 := by
  have hsplit := field3_split (regField w)
  rwa [getLsbD_two_of_and_four_eq_zero h, ← memTypeField_eq] at hsplit

/-! ### Each format from the fields of a Word (R66 to R77) -/

section
variable {w : Word}

theorem fmtMove_of_fields {size : BitVec 2} (hc : classField w = 0b00#2 ++ size) :
    fmtMove size (regField w) (opmodeField w) (eaField w) = w := by
  rw [fmtMove_pack, ← hc, modeCode_eaField, regCode_eaField, pack_fields]

theorem fmtMovem_of_fields {dr : BitVec 1} {size : WordOrLong} (hc : classField w = 0b0100#4)
    (hr : regField w = 0b1#1 ++ dr ++ 0b0#1) (ho : opmodeField w = 0b01#2 ++ size.bitCode) :
    fmtMovem dr size (eaField w) = w := by
  rw [fmtMovem_pack, ← hc, ← hr, ← ho, modeCode_eaField, regCode_eaField, pack_fields]

theorem fmtRoe_of_fields {c : BitVec 4} {dir : BitVec 1} {size : BitVec 2} (hc : classField w = c)
    (ho : opmodeField w = dir ++ size) : fmtRoe c (regField w) dir size (eaField w) = w := by
  rw [fmtRoe_pack, ← hc, ← ho, modeCode_eaField, regCode_eaField, pack_fields]

theorem fmtQuick_of_fields {size : OperandSize} (hc : classField w = 0b0101#4)
    (ho : opmodeField w = 0b1#1 ++ size.stdCode) : fmtQuick (regField w) size (eaField w) = w := by
  rw [fmtQuick_pack, ← hc, ← ho, modeCode_eaField, regCode_eaField, pack_fields]

theorem fmtSizeEa_of_fields {fixed : Byte} {size : OperandSize} (hc : classField w = fixed.extractLsb' 4 4)
    (hr : regField w = fixed.extractLsb' 1 3) (ho : opmodeField w = fixed.extractLsb' 0 1 ++ size.stdCode) :
    fmtSizeEa fixed size (eaField w) = w := by
  rw [fmtSizeEa_pack, ← hc, ← hr, ← ho, modeCode_eaField, regCode_eaField, pack_fields]

theorem fmtEa_of_fields {fixed : BitVec 10} (hc : classField w = fixed.extractLsb' 6 4)
    (hr : regField w = fixed.extractLsb' 3 3) (ho : opmodeField w = fixed.extractLsb' 0 3) :
    fmtEa fixed (eaField w) = w := by
  rw [fmtEa_pack, ← hc, ← hr, ← ho, modeCode_eaField, regCode_eaField, pack_fields]

theorem fmtRegEa_of_fields {c : BitVec 4} (hc : classField w = c) (ho : opmodeField w = 0b111#3) :
    fmtRegEa c (regField w) (eaField w) = w := by
  rw [fmtRegEa_pack, ← hc, ← ho, modeCode_eaField, regCode_eaField, pack_fields]

theorem fmtShr_of_fields {op : ShiftOp} {size : OperandSize} {count : ShiftCount} (hc : classField w = 0b1110#4)
    (hr : regField w = count.field) (ho : opmodeField w = op.dirCode ++ size.stdCode)
    (hm : eaModeField w = count.irCode ++ op.typeCode) : fmtShr op size count (eaRegField w) = w := by
  rw [fmtShr_pack, ← hc, ← hr, ← ho, ← hm, pack_fields]

theorem fmtShm_of_fields {op : ShiftOp} (hc : classField w = 0b1110#4) (hr : regField w = 0b0#1 ++ op.typeCode)
    (ho : opmodeField w = op.dirCode ++ 0b11#2) : fmtShm op (eaField w) = w := by
  rw [fmtShm_pack, ← hc, ← hr, ← ho, modeCode_eaField, regCode_eaField, pack_fields]

theorem fmtBr_of_fields (hc : classField w = 0b0110#4) : fmtBr (condField w) (lowByte w) = w := by
  apply BitVec.eq_of_getLsbD_eq
  intro i hi
  rw [fmtBr, ← hc]
  simp only [classField, condField, lowByte, bfx, BitVec.getLsbD_append, BitVec.getLsbD_extractLsb]
  interval_cases i <;> simp

end

/-! ### What the instruction of a form takes from its Word -/

@[simp] theorem encode_regInstr (op : ShiftOp) (s : OperandSize) (c : ShiftCount) (dy : Field3) :
    encode (op.regInstr s c dy) = fmtShr op s c dy := by cases op <;> rfl

@[simp] theorem encode_memInstr (op : ShiftOp) (ea : Ea) : encode (op.memInstr ea) = fmtShm op ea := by
  cases op <;> rfl

@[simp] theorem bitCode_sizeBit (b : Bool) : (sizeBit b).bitCode = BitVec.ofBool b := by cases b <;> rfl

@[simp] theorem field_shiftCountField (w : Word) : (shiftCountField w).field = regField w := by
  unfold shiftCountField
  split <;> rfl

@[simp] theorem irCode_shiftCountField (w : Word) : (shiftCountField w).irCode = BitVec.ofBool (bitAt w 5) := by
  unfold shiftCountField
  split <;> simp [*, ShiftCount.irCode]

/-- What the instruction a form reads from a Word has in common with the row: its form, its size, the EA field the row's
EA set constrains, MOVE's destination, and the condition of a branch. -/
structure ReadsFrom (f : Form) (w : Word) (i : Instr) : Prop where
  form_eq : i.form = f
  size_eq : i.size? = f.sizeOf w
  ea_eq : i.ea? = if f.eaSet = none then none else some (eaField w)
  dst_eq : i.dst? = if f = .move then some (dstField w) else none
  condWf_of_further : ∀ slot, f.further slot w = true → i.condWf slot = true

theorem readsFrom_of_instr? {f : Form} {w : Word} {i : Instr} (h : f.instr? w = some i) : ReadsFrom f w i := by
  cases f with
  | rts | jsr | bclrImm | movemR2M | movemM2R | lea | muls | divs | adda =>
    cases h
    exact ⟨rfl, rfl, rfl, rfl, fun _ _ => rfl⟩
  | shiftMem =>
    obtain ⟨op, -, rfl⟩ := Option.map_eq_some_iff.1 h
    cases op <;> exact ⟨rfl, rfl, rfl, rfl, fun _ _ => rfl⟩
  | ori | cmpi | neg | subq | eor | cmp | addToEa | addToDn | subToEa | subToDn | orToEa | orToDn | move =>
    obtain ⟨s, hs, rfl⟩ := Option.map_eq_some_iff.1 h
    exact ⟨rfl, hs.symm, rfl, rfl, fun _ _ => rfl⟩
  | movea =>
    obtain ⟨s, hs, rfl⟩ := Option.map_eq_some_iff.1 h
    exact ⟨rfl, (sizeMovea_inv hs).2.symm, rfl, rfl, fun _ _ => rfl⟩
  | shiftReg =>
    obtain ⟨op, -, h⟩ := Option.bind_eq_some_iff.1 h
    obtain ⟨s, hs, rfl⟩ := Option.map_eq_some_iff.1 h
    cases op <;> exact ⟨rfl, hs.symm, rfl, rfl, fun _ _ => rfl⟩
  | branch =>
    simp only [Form.instr?, Option.some.injEq] at h
    split at h
    · cases h
      exact ⟨rfl, rfl, rfl, rfl, fun _ _ => rfl⟩
    · next hcond =>
      cases h
      exact ⟨rfl, rfl, rfl, rfl, fun slot hf => by simpa [Instr.condWf, Form.further, hcond] using hf⟩

/-- The instruction a row reads from a Word of which it holds is well-formed. -/
theorem wf_of_holds {slot : BsrSlot} {f : Form} {w : Word} {i : Instr} (hf : f.holds slot w = true)
    (h : f.instr? w = some i) : i.wf slot = true := by
  obtain ⟨hform, hsize, hea, hdst, hcond⟩ := readsFrom_of_instr? h
  simp only [Form.holds, Bool.and_eq_true] at hf
  obtain ⟨⟨-, hfurther⟩, hset⟩ := hf
  have heaWf : i.eaWf = true := by
    simp only [Instr.eaWf, hea, hform, hsize]
    cases hs : f.eaSet <;> simp [hset]
  have hdstWf : i.dstWf = true := by
    simp only [Instr.dstWf, hdst]
    by_cases hmove : f = .move
    · subst hmove
      simp only [Form.further, Bool.and_eq_true] at hfurther
      simpa using hfurther.2
    · simp [hmove]
  simp only [Instr.wf, heaWf, hdstWf, hcond slot hfurther, Bool.and_self]

/-- The instruction a form reads from a Word with the row's fixed bits encodes to that Word. -/
theorem encode_of_instr? {f : Form} {w : Word} {i : Instr} (hm : w &&& f.mask = f.pattern)
    (h : f.instr? w = some i) : encode i = w := by
  rw [mask_iff_literals] at hm
  obtain ⟨hc, hr, ho, hx, hy⟩ := hm
  cases f <;>
    simp only [Form.mask, Form.pattern, BitVec.reduceExtractLsb', field4_and_ones, field3_and_ones] at hc hr ho hx hy
  case rts =>
    cases h
    rw [← pack_fields w, hc, hr, ho, hx, hy]
    rfl
  case jsr | bclrImm =>
    cases h
    exact fmtEa_of_fields hc hr ho
  case movemR2M | movemM2R =>
    cases h
    exact fmtMovem_of_fields hc hr (by rw [opmodeField_of_and_six ho, bitCode_sizeBit])
  case lea | muls | divs =>
    cases h
    exact fmtRegEa_of_fields hc ho
  case adda =>
    cases h
    exact fmtRoe_of_fields hc (by rw [opmodeField_of_and_three ho, bitCode_sizeBit])
  case shiftMem =>
    obtain ⟨op, hop, rfl⟩ := Option.map_eq_some_iff.1 h
    obtain ⟨htype, hdir⟩ := shiftName_inv hop
    rw [encode_memInstr]
    exact fmtShm_of_fields hc (by rw [regField_of_and_four hr, htype]) (by rw [opmodeField_of_and_three ho, hdir])
  case ori | cmpi | neg =>
    obtain ⟨s, hs, rfl⟩ := Option.map_eq_some_iff.1 h
    exact fmtSizeEa_of_fields hc hr (by rw [opmodeField_of_and_four_eq_zero ho, sizeStd_inv hs]; rfl)
  case subq =>
    obtain ⟨s, hs, rfl⟩ := Option.map_eq_some_iff.1 h
    exact fmtQuick_of_fields hc (by rw [opmodeField_of_and_four ho, sizeStd_inv hs])
  case eor | addToEa | subToEa | orToEa =>
    obtain ⟨s, hs, rfl⟩ := Option.map_eq_some_iff.1 h
    exact fmtRoe_of_fields hc (by rw [opmodeField_of_and_four ho, sizeStd_inv hs])
  case cmp | addToDn | subToDn | orToDn =>
    obtain ⟨s, hs, rfl⟩ := Option.map_eq_some_iff.1 h
    exact fmtRoe_of_fields hc (by rw [opmodeField_of_and_four_eq_zero ho, sizeStd_inv hs])
  case movea =>
    obtain ⟨s, hs, rfl⟩ := Option.map_eq_some_iff.1 h
    obtain ⟨hcode, -⟩ := sizeMovea_inv hs
    rw [encode, ← ho]
    exact fmtMove_of_fields (by rw [classField_of_and_twelve hc, hcode])
  case move =>
    obtain ⟨s, hs, rfl⟩ := Option.map_eq_some_iff.1 h
    rw [encode, regCode_dstField, modeCode_dstField]
    exact fmtMove_of_fields (by rw [classField_of_and_twelve hc, sizeMove_inv hs])
  case shiftReg =>
    obtain ⟨op, hop, h⟩ := Option.bind_eq_some_iff.1 h
    obtain ⟨s, hs, rfl⟩ := Option.map_eq_some_iff.1 h
    obtain ⟨htype, hdir⟩ := shiftName_inv hop
    rw [encode_regInstr]
    exact fmtShr_of_fields hc (field_shiftCountField w).symm (by rw [opmodeField_split, sizeStd_inv hs, hdir])
      (by rw [eaModeField_split, htype, irCode_shiftCountField])
  case branch =>
    simp only [Form.instr?, Option.some.injEq] at h
    split at h
    · next hcond =>
      cases h
      rw [encode, ← hcond]
      exact fmtBr_of_fields hc
    · cases h
      exact fmtBr_of_fields hc

/-! ### The classifier and the encoder -/

/-- The classifier reads a well-formed instruction back from its Word. -/
theorem classify_encode {slot : BsrSlot} {i : Instr} (h : i.wf slot = true) : classify slot (encode i) = some i := by
  obtain ⟨hholds, hinstr⟩ := holds_encode slot i h
  rw [classify, (classifyForm_eq _ _ _).2 hholds, Option.bind_some, hinstr]

/-- The classifier's answer is what a row that holds reads from the Word. -/
theorem classify_eq_some {slot : BsrSlot} {w : Word} {i : Instr} :
    classify slot w = some i ↔ ∃ f : Form, f.holds slot w = true ∧ f.instr? w = some i := by
  simp only [classify, Option.bind_eq_some_iff, classifyForm_eq]

theorem mask_of_holds {slot : BsrSlot} {f : Form} {w : Word} (h : f.holds slot w = true) :
    w &&& f.mask = f.pattern := by
  simp only [Form.holds, Bool.and_eq_true, beq_iff_eq] at h
  exact h.1.1

/-! ### The class a row fixes (R94) -/

/-- The class of a Word a row holds of, under the row's mask. -/
theorem classField_of_holds {slot : BsrSlot} {f : Form} {w : Word} (h : f.holds slot w = true) :
    classField w &&& f.mask.extractLsb' 12 4 = f.pattern.extractLsb' 12 4 :=
  ((mask_iff_literals _ _ _).1 (mask_of_holds h)).1

/-- The classes of MOVE: 00 and a size code other than 00 (R66, R95). -/
theorem classField_of_holds_move {slot : BsrSlot} {w : Word} (h : Form.move.holds slot w = true) :
    classField w = 0b0001#4 ∨ classField w = 0b0010#4 ∨ classField w = 0b0011#4 := by
  have hc := classField_of_holds h
  simp only [Form.holds, Form.further, moveSizeField_eq, Bool.and_eq_true, bne_iff_ne] at h
  obtain ⟨⟨-, ⟨hsize, -⟩, -⟩, -⟩ := h
  revert hc hsize
  generalize classField w = c
  revert c
  decide

/-- The classes of MOVEA: 00 and the size code of Word or Long (R95, R117). -/
theorem classField_of_holds_movea {slot : BsrSlot} {w : Word} (h : Form.movea.holds slot w = true) :
    classField w = 0b0010#4 ∨ classField w = 0b0011#4 := by
  have hc := classField_of_holds h
  simp only [Form.holds, Form.further, moveSizeField_eq, Bool.and_eq_true, Bool.or_eq_true, beq_iff_eq] at h
  obtain ⟨⟨-, hsize⟩, -⟩ := h
  revert hc hsize
  generalize classField w = c
  revert c
  decide

/-! ### The named overlaps (R98) -/

/-- A Word whose EA field is outside the EA set of the one row it could belong to has no classification. -/
theorem classify_eq_none_of_ea {slot : BsrSlot} {w : Word} {f : Form}
    (hform : formOf (classField w) (regField w) (opmodeField w) = some f)
    (hea : ∀ size, f.eaOk size (eaField w) = false) : classify slot w = none := by
  apply classify_eq_none_of_fields
  intro g hg
  rw [hform] at hg
  cases hg
  simp only [Form.holds, hea, Bool.and_false]

theorem eaField_of_mode_zero {w : Word} (h : eaModeField w = 0#3) : eaField w = .dataReg (eaRegField w) := by
  rw [eaField, h]
  rfl

theorem eaField_of_mode_one {w : Word} (h : eaModeField w = 1#3) : eaField w = .addrReg (eaRegField w) := by
  rw [eaField, h]
  rfl

/-- Modes 000 and 001 name a register, which is no memory operand. -/
theorem eaField_not_inMemAlt {w : Word} (h : eaModeField w &&& 6#3 = 0#3) : (eaField w).inMemAlt = false := by
  have hmode : eaModeField w = 0#3 ∨ eaModeField w = 1#3 := by
    revert h
    generalize eaModeField w = m
    revert m
    decide
  rcases hmode with hmode | hmode
  · rw [eaField_of_mode_zero hmode]
    rfl
  · rw [eaField_of_mode_one hmode]
    rfl

end Sys2Proof
end

section
/-! The obligations on the encoding (`30_encoding.md`). -/

namespace Sys2Proof.Machine

open Sys2Proof State

/-- Settles O1: the two bytes are the Word's, and the classifier reads the instruction back from the Word. -/
theorem decodeOfEncode : Obligations.DecodeOfEncode := by
  intro slot i rest h
  simp only [bytesOfWord, List.cons_append, List.nil_append, decode, wordOfBytes_of_bytesOfWord, classify_encode h]

/-- Settles O2: the row that holds gives the form and the well-formedness, its fixed bits and fields the Word. -/
theorem encodeOfClassify : Obligations.EncodeOfClassify := by
  intro slot w i h
  obtain ⟨f, hholds, hinstr⟩ := classify_eq_some.1 h
  refine ⟨encode_of_instr? (mask_of_holds hholds) hinstr, wf_of_holds hholds hinstr, ?_⟩
  rw [classifyForm_eq, (readsFrom_of_instr? hinstr).form_eq]
  exact hholds

/-- Settles O3: a row that holds is the first that holds, so any two are the same. -/
theorem rowsAreDisjoint : Obligations.RowsAreDisjoint := by
  intro slot w f g hf hg
  have h := (classifyForm_eq slot w f).2 hf
  rw [(classifyForm_eq slot w g).2 hg] at h
  exact (Option.some.inj h).symm

/-- Settles O5: a row's mask fixes the whole class but in MOVE and MOVEA, where the size code is part of it. -/
theorem formsOfEachClass : Obligations.FormsOfEachClass := by
  intro slot w f hfound
  have h := (classifyForm_eq _ _ _).1 hfound
  have hc := classField_of_holds h
  cases f <;> simp only [Form.mask, Form.pattern, BitVec.reduceExtractLsb', field4_and_ones] at hc
  case move =>
    exact .inr (.inl ⟨classField_of_holds_move h, by decide, fun _ => rfl⟩)
  case movea =>
    have hc := classField_of_holds_movea h
    exact .inr (.inl ⟨.inr hc, by decide, by rcases hc with hc | hc <;> simp [hc]⟩)
  all_goals simp [hc]

/-- Settles O6: each Word's class, register and opmode name one row, whose EA set its EA field is not in. -/
theorem namedOverlapsAreData : Obligations.NamedOverlapsAreData := by
  intro s w hp hw hrow
  refine step_unclassified hp hw ?_
  simp only [mask_iff_literals, BitVec.reduceExtractLsb', field4_and_ones, field3_and_ones, sizeField_eq] at hrow
  rcases hrow with ⟨⟨hc, -, ho, hm, -⟩, hsize⟩ | ⟨⟨hc, -, ho, hm, -⟩, hsize⟩ | ⟨hc, -, ho, hm, -⟩ |
    ⟨⟨hc, -, ho, hm, -⟩, hsize⟩ | ⟨hc, hr, ho, hm, -⟩ | rfl | rfl
  · exact classify_eq_none_of_ea (f := .addToEa) (by simp [formOf, hc, hsize, getLsbD_two_of_and_four ho])
      fun _ => eaField_not_inMemAlt hm
  · exact classify_eq_none_of_ea (f := .subToEa) (by simp [formOf, hc, getLsbD_two_of_and_four ho])
      fun _ => eaField_not_inMemAlt hm
  · exact classify_eq_none_of_ea (f := .orToEa) (by simp [formOf, hc, ho]) fun _ => eaField_not_inMemAlt hm
  · exact classify_eq_none_of_ea (f := .eor) (by simp [formOf, hc, getLsbD_two_of_and_four ho])
      fun _ => by rw [eaField_of_mode_one hm]; rfl
  · have hlea : opmodeField w ≠ 7#3 := fun h => by simp [h] at ho
    exact classify_eq_none_of_ea (f := .movemR2M) (by simp [formOf, hc, hr, hlea])
      fun _ => by rw [eaField_of_mode_zero hm]; rfl
  · exact classify_eq_none_of_ea (f := .ori) (by decide) fun _ => rfl
  · exact classify_eq_none_of_ea (f := .ori) (by decide) fun _ => rfl

/-- Settles O16: on missing Words `ReadImm` neither succeeds nor finds a hole, so it raises. -/
theorem readImmediate : Obligations.ReadImmediate := by
  refine fun s size k => ⟨fun ws v hd hh => readImm_of hd hh, fun hwf hmissing => ?_⟩
  cases h : s.readImm size k with
  | ok p =>
    obtain ⟨hk, hle, -⟩ := readImm_next_le h
    omega
  | error e =>
    rcases readImm_error h with hhole | ⟨rfl, -⟩
    · exact (not_isHole_of_bufWf hwf e hhole).elim
    · rfl

/-- Settles O17, from what a successful resolution read and from what the designated Words resolve to. -/
theorem resolveIsTheTable : Obligations.ResolveIsTheTable := by
  intro s ea size k k' op hk
  constructor
  · intro h
    obtain ⟨hsize, rfl, ws, hlen, hd, hh⟩ := resolve_ok hk h
    exact ⟨ws, hd, hsize, hh, by rw [hlen]⟩
  · rintro ⟨ws, hd, rfl, hh, rfl⟩
    exact resolve_of hd hh

/-- Settles O38: a record that is not DATA is its form's own, whose rule consumed the Words the fields count. -/
theorem extensionWordCount : Obligations.ExtensionWordCount := by
  intro i s t r hc h hp hreason
  rcases exec_cases hc h hp with ⟨x, hx, hmn, hlen, -⟩ | ⟨q, w, -, -, rfl⟩
  · obtain ⟨hok, -⟩ := formDecode_ok hc hx
    have hnext := hok.next_eq
    exact ⟨hmn.trans hok.mnemonic_eq, by omega, instrExtCount_le i⟩
  · cases hreason

/-- Settles O4, by evaluating the classifier on each Word. -/
theorem sampleWordsDecode : Obligations.SampleWordsDecode := by
  refine ⟨?_, ?_, ?_, ?_, ?_, ?_, ?_, ?_, ?_, ?_, ?_, ?_, ?_, ?_, ?_, ?_⟩ <;> decide

/-- Settles O10, for each row of the table of addressing modes. -/
theorem eaSetsFromCategories : Obligations.EaSetsFromCategories := by
  intro ea
  cases ea <;> exact ⟨fun _ => rfl, fun _ => rfl, fun _ => rfl, fun _ => rfl, fun _ => rfl, fun _ => rfl, fun _ => rfl,
    fun _ => rfl, rfl, rfl, rfl, rfl, rfl, rfl⟩

/-- Settles O11: every named field is the extractor at its bits. -/
theorem bitFieldExtractor : Obligations.BitFieldExtractor := by
  refine ⟨fun w hi lo _ _ => bfx_toNat w hi lo, fun w => ?_⟩
  have hw := w.isLt
  refine ⟨?_, bfx_toNat w 11 9, bfx_toNat w 8 6, bfx_toNat w 7 6, bfx_toNat w 13 12, bfx_toNat w 5 3, ?_,
    bfx_toNat w 11 8, lowByte_toNat w⟩
  · have h := bfx_toNat w 15 12
    simp only [classField, h]
    omega
  · have h := bfx_toNat w 2 0
    simpa [eaRegField] using h

end Sys2Proof.Machine
end

section
/-! SUPPORT. Addressing modes and the Words that encode them: the encoder and the table of R83 agree both ways. -/

namespace Sys2Proof.Machine

open Sys2Proof State

/-- The Words written for an immediate of the size's range carry its value (R89). -/
theorem immDesignates_immWords {size : OperandSize} {v : Nat} (h : v < 2 ^ sizeBits size) :
    ImmDesignates size (immWords v size) v := by
  cases size with
  | byte =>
    simp only [sizeBits] at h
    exact ⟨_, rfl, by rw [BitVec.toNat_ofNat]; omega⟩
  | word =>
    simp only [sizeBits] at h
    exact ⟨_, rfl, by rw [BitVec.toNat_ofNat]; omega⟩
  | long =>
    simp only [sizeBits] at h
    exact ⟨_, _, rfl, by rw [BitVec.toNat_ofNat, BitVec.toNat_ofNat]; omega⟩

/-- The Words of an immediate are the ones written for its value, where a byte's ignored bits 15:8 are zero (R89). -/
theorem immWords_of_immDesignates {size : OperandSize} {ws : List Word} {v : Nat} (h : ImmDesignates size ws v)
    (hbyte : size = .byte → ∀ e, ws = [e] → e.toNat < 256) : immWords v size = ws := by
  cases size with
  | byte =>
    obtain ⟨e, rfl, rfl⟩ := h
    have := hbyte rfl e rfl
    rw [immWords, Nat.mod_mod, Nat.mod_eq_of_lt this, BitVec.ofNat_toNat, BitVec.setWidth_eq]
  | word =>
    obtain ⟨e, rfl, rfl⟩ := h
    rw [immWords, BitVec.ofNat_toNat, BitVec.setWidth_eq]
  | long =>
    obtain ⟨h, l, rfl, rfl⟩ := h
    have hl := l.isLt
    have hhigh : (h.toNat * 65536 + l.toNat) / 65536 = h.toNat := by omega
    have hlow : BitVec.ofNat 16 (h.toNat * 65536 + l.toNat) = l :=
      BitVec.eq_of_toNat_eq (by rw [BitVec.toNat_ofNat]; omega)
    rw [immWords, hhigh, hlow, BitVec.ofNat_toNat, BitVec.setWidth_eq]

/-- The fields of an index specification, as a brief extension Word holds them (R87). -/
theorem indexSpec_eq_fields (x : IndexSpec) :
    ∃ (isA : Bool) (r : Field3) (long : Bool),
      x = ⟨if isA then .A else .D, r.toFin, if long then .long else .word⟩ := by
  obtain ⟨kind, reg, size⟩ := x
  exact ⟨kind == .A, BitVec.ofFin reg, size == .long, by cases kind <;> cases size <;> rfl⟩

theorem briefWord_of_fields (isA : Bool) (r : Field3) (long : Bool) (d : Byte) :
    briefWord ⟨if isA then .A else .D, r.toFin, if long then .long else .word⟩ d.toInt =
      BitVec.ofBool isA ++ r ++ BitVec.ofBool long ++ 0b000#3 ++ d := by
  cases isA <;> cases long <;> simp only [briefWord, BitVec.ofInt_toInt] <;> rfl

/-- What the encoder writes for a mode in its range designates that mode (R106). -/
theorem eaDesignates_of_encode? {m : AddressingMode} {ea : Ea} {size : OperandSize} {ws : List Word}
    (hrange : m.inRange = true) (hsize : ∀ v sz, m = .immediate v sz → sz = size)
    (h : m.encode? = some (ea, ws)) : EaDesignates ea size ws m := by
  cases m with
  | dataRegisterDirect r | addressRegisterDirect r | addressRegisterIndirect r
  | addressRegisterIndirectPostIncrement r | addressRegisterIndirectPreDecrement r =>
    cases h
    exact ⟨rfl, rfl⟩
  | addressRegisterIndirectWithDisplacement r d =>
    cases h
    simp only [AddressingMode.inRange, decide_eq_true_eq] at hrange
    exact ⟨_, rfl, by rw [BitVec.toInt_ofInt_eq_self (by decide) (by omega) (by omega)]⟩
  | addressRegisterIndirectIndexed r x d =>
    cases h
    simp only [AddressingMode.inRange, decide_eq_true_eq] at hrange
    obtain ⟨isA, n, long, rfl⟩ := indexSpec_eq_fields x
    have hd : (BitVec.ofInt 8 d).toInt = d := BitVec.toInt_ofInt_eq_self (by decide) (by omega) (by omega)
    exact ⟨BitVec.ofInt 8 d, long, n, isA, by rw [← briefWord_of_fields, hd], by rw [hd]⟩
  | absoluteShort a =>
    cases h
    exact ⟨a, rfl, rfl⟩
  | absoluteLong a =>
    cases h
    exact ⟨_, _, rfl, by rw [BitVec.extractLsb'_append_extractLsb']⟩
  | immediate v sz =>
    cases h
    cases hsize v sz rfl
    exact ⟨v, immDesignates_immWords (by simpa [AddressingMode.inRange] using hrange), rfl⟩
  | registerList mask | branchTarget disp target => cases h

/-- The encoder gives back the EA field and the Words that designate a mode, where a byte immediate's ignored bits are
zero (R106). -/
theorem encode?_of_eaDesignates {ea : Ea} {size : OperandSize} {ws : List Word} {m : AddressingMode}
    (h : EaDesignates ea size ws m) (hbyte : ea = .immediate → size = .byte → ∀ e, ws = [e] → e.toNat < 256) :
    m.encode? = some (ea, ws) := by
  cases ea with
  | dataReg n | addrReg n | indirect n | postInc n | preDec n =>
    obtain ⟨rfl, rfl⟩ := h
    rfl
  | disp16 n =>
    obtain ⟨e, rfl, rfl⟩ := h
    simp only [AddressingMode.encode?, BitVec.ofInt_toInt]
  | indexed n =>
    obtain ⟨d, long, r, isA, rfl, rfl⟩ := h
    simp only [AddressingMode.encode?, briefWord_of_fields]
  | absShort =>
    obtain ⟨e, rfl, rfl⟩ := h
    rfl
  | absLong =>
    obtain ⟨h, l, rfl, rfl⟩ := h
    simp only [AddressingMode.encode?, BitVec.extractLsb'_append_eq_left, BitVec.extractLsb'_append_eq_right]
  | immediate =>
    obtain ⟨v, hv, rfl⟩ := h
    simp only [AddressingMode.encode?, immWords_of_immDesignates hv (hbyte rfl)]
  | pcDisp | pcIndexed | reserved r => exact h.elim

end Sys2Proof.Machine
end

section
/-! SUPPORT. Exactly where the operand forms and the form rules fail, and with which reason (R105, R112, R145); and what
a form's rule leaves where it does not. -/

namespace Sys2Proof.Machine

open Sys2Proof State

/-- A read that meets no hole of `BUF`: it raises the given reason, or with none it answers. -/
def Read.FailsWith {α : Type} (x : Read α) : Option DataReason → Prop
  | some r => x = .error (.raise r)
  | none => ∃ a, x = .ok a

namespace Read.FailsWith

theorem ok {α : Type} (a : α) : FailsWith (.ok a) none := ⟨a, rfl⟩

theorem raise_iff {α : Type} {x : Read α} {o : Option DataReason} (h : x.FailsWith o) (r : DataReason) :
    x = .error (.raise r) ↔ o = some r := by
  cases o with
  | some q =>
    cases h
    simp
  | none =>
    obtain ⟨a, rfl⟩ := h
    simp

/-- Reads in sequence fail with the first failure. -/
theorem bind {α β : Type} {x : Read α} {f : α → Read β} {p q : Option DataReason} (hx : x.FailsWith p)
    (hf : ∀ a, x = .ok a → (f a).FailsWith q) : (x >>= f).FailsWith (p.or q) := by
  cases p with
  | some r =>
    cases hx
    rfl
  | none =>
    obtain ⟨a, rfl⟩ := hx
    exact hf a rfl

/-- What is computed from the answer of a read adds no failure. -/
theorem bind_ok {α β : Type} {x : Read α} {f : α → Read β} {p : Option DataReason} (hx : x.FailsWith p)
    (hf : ∀ a, ∃ b, f a = .ok b) : (x >>= f).FailsWith p := by
  simpa using hx.bind (q := none) fun a _ => hf a

end Read.FailsWith

/-- The failure of a read of the Words below index `n`: TruncatedBuffer where one of them is missing (R102). -/
def State.truncation (s : State) (n : Nat) : Option DataReason :=
  if s.nWords < n then some .truncatedBuffer else none

theorem State.truncation_of_le {s : State} {n : Nat} (h : n ≤ s.nWords) : s.truncation n = none :=
  if_neg (Nat.not_lt.2 h)

theorem State.truncation_of_lt {s : State} {n : Nat} (h : s.nWords < n) : s.truncation n = some .truncatedBuffer :=
  if_pos h

/-! ### The operand forms -/

/-- A resolution that answers has met none of the failures. -/
theorem eaFailure_of_resolve_ok {s : State} {ea : Ea} {size : OperandSize} {k : Nat} {p : Operand × Nat}
    (hk : k ≤ s.nWords) (h : s.resolve ea size k = .ok p) : s.eaFailure ea size k = none := by
  obtain ⟨hnext, hle, -⟩ := resolve_next_le hk h
  rw [hnext] at hle
  cases ea with
  | indexed n =>
    simp only [resolve, Read.bind_eq_ok, ext_eq_ok] at h
    obtain ⟨e, he, h⟩ := h
    have hbrief : ¬ briefUnsupported e = true := fun hb => by simp [hb] at h
    have hin : ¬ s.nWords < k + 1 := Nat.not_lt.2 hle
    simp only [eaFailure, if_neg hin, he, Option.any_some, briefUnsupported_bits, if_neg hbrief]
  | pcDisp | pcIndexed | reserved r => cases h
  | dataReg n | addrReg n | indirect n | postInc n | preDec n | disp16 n | absShort | absLong | immediate =>
    exact if_neg (Nat.not_lt.2 hle)

/-- The reason a resolution reports is that of the first failure (R105, R112). -/
theorem eaFailure_of_resolve_raise {s : State} {ea : Ea} {size : OperandSize} {k : Nat} {r : DataReason}
    (h : s.resolve ea size k = .error (.raise r)) : s.eaFailure ea size k = some r := by
  rcases resolve_error h with hhole | ⟨hr, hmissing, h1, h2, h3⟩ | ⟨hr, hmode⟩
  · exact (not_isHole_raise s r hhole).elim
  · cases hr
    cases ea with
    | pcDisp => exact (h1 rfl).elim
    | pcIndexed => exact (h2 rfl).elim
    | reserved q => exact (h3 q rfl).elim
    | indexed n | dataReg n | addrReg n | indirect n | postInc n | preDec n | disp16 n | absShort | absLong
    | immediate => exact if_pos hmissing
  · cases hr
    rcases hmode with rfl | rfl | ⟨q, rfl⟩ | ⟨n, w, rfl, hw, hbrief⟩
    · rfl
    · rfl
    · rfl
    · have hin : ¬ s.nWords < k + 1 := Nat.not_lt.2 (lt_nWords_of_word? hw)
      simp only [eaFailure, if_neg hin, hw, Option.any_some, briefUnsupported_bits, hbrief, if_true]

section
variable {s : State} (hwf : s.bufWf = true)
include hwf

/-- A read of the Words below index `n` that can only miss a Word fails with `truncation n`. -/
theorem failsWith_truncation {α : Type} {x : Read α} {n : Nat} (hok : ∀ a, x = .ok a → n ≤ s.nWords)
    (herror : ∀ e, x = .error e → s.isHole e ∨ (e = .raise .truncatedBuffer ∧ s.nWords < n)) :
    x.FailsWith (s.truncation n) := by
  cases x with
  | ok a =>
    rw [truncation_of_le (hok a rfl)]
    exact .ok a
  | error e =>
    rcases herror e rfl with hhole | ⟨rfl, hn⟩
    · exact (not_isHole_of_bufWf hwf e hhole).elim
    · rw [truncation_of_lt hn]
      rfl

theorem ext_failsWith (k : Nat) : (s.ext k).FailsWith (s.truncation (k + 1)) :=
  failsWith_truncation hwf (fun _ h => lt_nWords_of_word? (ext_eq_ok.1 h)) fun _ h => ext_error_cases h

theorem readImm_failsWith (size : OperandSize) (k : Nat) :
    (s.readImm size k).FailsWith (s.truncation (k + immCount size)) := by
  refine failsWith_truncation hwf (fun a h => ?_) fun _ h => readImm_error h
  obtain ⟨hk, hle, -⟩ := readImm_next_le h
  omega

theorem branchDisp_failsWith (b : Byte) {k : Nat} (hk : k ≤ s.nWords) :
    (s.branchDisp b k).FailsWith (s.truncation (k + branchCount b)) := by
  refine failsWith_truncation hwf (fun a h => ?_) fun _ h => branchDisp_error h
  obtain ⟨hk', hle⟩ := branchDisp_ok h hk
  omega

/-- `Resolve` fails with the first failure of its EA (R105, R112). -/
theorem resolve_failsWith (ea : Ea) (size : OperandSize) {k : Nat} (hk : k ≤ s.nWords) :
    (s.resolve ea size k).FailsWith (s.eaFailure ea size k) := by
  cases h : s.resolve ea size k with
  | ok p =>
    rw [eaFailure_of_resolve_ok hk h]
    exact .ok p
  | error e =>
    cases e with
    | raise r =>
      rw [eaFailure_of_resolve_raise h]
      rfl
    | stop f =>
      rcases resolve_error h with hhole | ⟨hr, -⟩ | ⟨hr, -⟩
      · exact (not_isHole_of_bufWf hwf _ hhole).elim
      · cases hr
      · cases hr

/-! ### The operand shapes -/

theorem decodeEaThen_failsWith (mn : Mnemonic) (size : Option OperandSize) (ea : Ea) (easz : OperandSize)
    (dst : Operand) {k : Nat} (hk : k ≤ s.nWords) :
    (s.decodeEaThen mn size ea easz dst k).FailsWith (s.eaFailure ea easz k) :=
  (resolve_failsWith hwf ea easz hk).bind_ok fun _ => ⟨_, rfl⟩

theorem decodeThenEa_failsWith (mn : Mnemonic) (size : OperandSize) (src : Operand) (ea : Ea) {k : Nat}
    (hk : k ≤ s.nWords) : (s.decodeThenEa mn size src ea k).FailsWith (s.eaFailure ea size k) :=
  (resolve_failsWith hwf ea size hk).bind_ok fun _ => ⟨_, rfl⟩

theorem decodeEaOnly_failsWith (mn : Mnemonic) (size : Option OperandSize) (ea : Ea) (easz : OperandSize) {k : Nat}
    (hk : k ≤ s.nWords) : (s.decodeEaOnly mn size ea easz k).FailsWith (s.eaFailure ea easz k) :=
  (resolve_failsWith hwf ea easz hk).bind_ok fun _ => ⟨_, rfl⟩

theorem decodeImmThenEa_failsWith (mn : Mnemonic) (size : OperandSize) (ea : Ea) (k : Nat) :
    (s.decodeImmThenEa mn size ea k).FailsWith
      ((s.truncation (k + immCount size)).or (s.eaFailure ea size (k + immCount size))) := by
  refine (readImm_failsWith hwf size k).bind ?_
  rintro ⟨v, k'⟩ h
  obtain ⟨rfl, hle, -⟩ := readImm_next_le h
  exact decodeThenEa_failsWith hwf mn size _ ea hle

/-- A Word read before the EA, as in MOVEM and BCLR. -/
theorem ext_then_resolve_failsWith {α : Type} (ea : Ea) (size : OperandSize) (k : Nat)
    {f : Word → Operand × Nat → Read α} (hf : ∀ e p, ∃ b, f e p = .ok b) :
    (s.ext k >>= fun e => s.resolve ea size (k + 1) >>= f e).FailsWith
      ((s.truncation (k + 1)).or (s.eaFailure ea size (k + 1))) :=
  (ext_failsWith hwf k).bind fun e h =>
    (resolve_failsWith hwf ea size (lt_nWords_of_word? (ext_eq_ok.1 h))).bind_ok (hf e)

theorem decodeMovem_failsWith (size : WordOrLong) (ea : Ea) (k : Nat) :
    (s.decodeMovem size ea k).FailsWith ((s.truncation (k + 1)).or (s.eaFailure ea size.toSize (k + 1))) :=
  ext_then_resolve_failsWith hwf ea size.toSize k fun _ _ => ⟨_, rfl⟩

theorem decodeBranch_failsWith (mn : Mnemonic) (cond : Condition) (b : Byte) (c : Nat) {k : Nat} (hk : k ≤ s.nWords) :
    (s.decodeBranch mn cond b c k).FailsWith (s.truncation (k + branchCount b)) :=
  (branchDisp_failsWith hwf b hk).bind_ok fun _ => ⟨_, rfl⟩

end

/-! ### The form rules -/

theorem formFailure_of_no_ea {s : State} {i : Instr} (h : i.ea? = none) :
    s.formFailure i = s.truncation (s.cursor + 1 + instrExtCount i) := by
  simp only [formFailure, h, truncation]

/-- The first failure of a form with an EA: the Words before it, the EA's own, the destination's (R93, R112). -/
theorem formFailure_of_ea {s : State} {i : Instr} {ea : Ea} (h : i.ea? = some ea) :
    s.formFailure i =
      ((s.truncation (s.cursor + 1 + instrLeadCount i)).or
        (s.eaFailure ea (instrEaSize i) (s.cursor + 1 + instrLeadCount i))).or
        (i.dst?.bind fun d =>
          s.eaFailure d (instrEaSize i) (s.cursor + 1 + instrLeadCount i + eaExtCount (instrEaSize i) ea)) := by
  simp only [formFailure, h, truncation]
  split
  · rfl
  · cases s.eaFailure ea (instrEaSize i) (s.cursor + 1 + instrLeadCount i) <;> cases i.dst? <;> rfl

/-- Every form's rule fails with the first failure in its Words (R112). -/
theorem formDecode_failsWith {s : State} (hwf : s.bufWf = true) (hc : s.cursor < s.nWords) (i : Instr) :
    (formDecode i s).FailsWith (s.formFailure i) := by
  have hk : s.cursor + 1 ≤ s.nWords := hc
  have hnone : s.truncation (s.cursor + 1) = none := truncation_of_le hk
  cases i with
  | move size src dst =>
    rw [formFailure_of_ea rfl]
    simp only [instrLeadCount, instrEaSize, Nat.add_zero, hnone, Option.none_or]
    refine (resolve_failsWith hwf src size hk).bind ?_
    rintro ⟨a, k⟩ h
    obtain ⟨rfl, hle, -⟩ := resolve_next_le hk h
    exact (resolve_failsWith hwf dst size hle).bind_ok fun _ => ⟨_, rfl⟩
  | movemR2M size ea | movemM2R size ea =>
    rw [formFailure_of_ea rfl]
    simp only [Instr.dst?, Option.bind_none, Option.or_none]
    exact (decodeMovem_failsWith hwf size ea _).bind_ok fun _ => ⟨_, rfl⟩
  | bclr ea =>
    rw [formFailure_of_ea rfl]
    simp only [Instr.dst?, Option.bind_none, Option.or_none]
    exact ext_then_resolve_failsWith hwf ea _ _ fun _ _ => ⟨_, rfl⟩
  | ori size ea | cmpi size ea =>
    rw [formFailure_of_ea rfl]
    simp only [Instr.dst?, Option.bind_none, Option.or_none]
    exact decodeImmThenEa_failsWith hwf _ size ea _
  | movea size ea an | adda size an ea | addToDn size dn ea | subToDn size dn ea | orToDn size dn ea | cmp size dn ea
  | muls dn ea | divs dn ea | lea an ea =>
    rw [formFailure_of_ea rfl]
    simp only [instrLeadCount, Nat.add_zero, hnone, Option.none_or, Instr.dst?, Option.bind_none, Option.or_none]
    exact decodeEaThen_failsWith hwf _ _ ea _ _ hk
  | addToEa size dn ea | subToEa size dn ea | orToEa size dn ea | eor size dn ea | subq size data ea =>
    rw [formFailure_of_ea rfl]
    simp only [instrLeadCount, Nat.add_zero, hnone, Option.none_or, Instr.dst?, Option.bind_none, Option.or_none]
    exact decodeThenEa_failsWith hwf _ size _ ea hk
  | neg size ea | jsr ea | asrMem ea | aslMem ea | lsrMem ea | lslMem ea | rorMem ea | rolMem ea =>
    rw [formFailure_of_ea rfl]
    simp only [instrLeadCount, Nat.add_zero, hnone, Option.none_or, Instr.dst?, Option.bind_none, Option.or_none]
    exact decodeEaOnly_failsWith hwf _ _ ea _ hk
  | bra b | bcc cond b =>
    rw [formFailure_of_no_ea rfl]
    exact decodeBranch_failsWith hwf _ _ b _ hk
  | asrReg size count dy | aslReg size count dy | lsrReg size count dy | lslReg size count dy | rorReg size count dy
  | rolReg size count dy | rts =>
    rw [formFailure_of_no_ea rfl]
    simp only [instrExtCount, Nat.add_zero, hnone]
    exact .ok _

/-! ### What a form's rule leaves -/

/-- A meaning whose form's rule answers leaves the form's own record (R107). -/
theorem exec_of_formDecode_ok {s : State} {i : Instr} {x : Decoded} (hwf : s.bufWf = true) (hc : s.cursor < s.nWords)
    (h : formDecode i s = .ok x) :
    ∃ r, exec i s = .next (s.withPending r) ∧ r.dataReason = none ∧ r.mnemonic = instrMnemonic i := by
  obtain ⟨hok, -⟩ := formDecode_ok hc h
  obtain ⟨raw, -, hlen, hraw⟩ := words_of_bufWf hwf (c := s.cursor) (n := x.next - s.cursor)
    (by have := hok.next_le; have := hok.next_eq; omega)
  exact ⟨_, exec_of h hraw (by have := hok.next_eq; omega), rfl, hok.mnemonic_eq⟩

/-- The branches alone call the condition translator (R114). -/
theorem formDecode_condition {i : Instr} {s : State} {x : Decoded} {c : Condition} (h : formDecode i s = .ok x)
    (hx : x.condition = some c) :
    (∃ b, i = .bra b ∧ c = conditionOf 0b0000#4) ∨ (∃ cond b, i = .bcc cond b ∧ c = conditionOf cond) := by
  have hbranch := (condition_iff h).1 (by simp [hx])
  cases i with
  | bra b =>
    simp only [formDecode, decodeBranch, Read.bind_eq_ok, Read.pure_eq, Except.ok.injEq] at h
    obtain ⟨p, -, rfl⟩ := h
    exact .inl ⟨b, rfl, (Option.some.inj hx).symm⟩
  | bcc cond b =>
    simp only [formDecode, decodeBranch, Read.bind_eq_ok, Read.pure_eq, Except.ok.injEq] at h
    obtain ⟨p, -, rfl⟩ := h
    exact .inr ⟨cond, b, rfl, (Option.some.inj hx).symm⟩
  | _ => simp [instrMnemonic] at hbranch

end Sys2Proof.Machine
end

section
/-! The obligations on the decode pipeline (`40_decode_pipeline.md`). -/

namespace Sys2Proof.Machine

open Sys2Proof State

/-- Settles O19: the encoder's Words designate the mode they encode, and `Resolve` answers what Words designate. -/
theorem addressingModeRoundTrip : Obligations.AddressingModeRoundTrip := by
  refine ⟨fun s m ea size ws k hrange hsize h hh => resolve_of (eaDesignates_of_encode? hrange hsize h) hh,
    fun ea size ws m hd => ⟨encode?_of_eaDesignates hd, ?_⟩⟩
  rintro rfl rfl
  have hrange := eaDesignates_inRange hd
  obtain ⟨v, -, rfl⟩ := hd
  exact ⟨v, rfl, eaDesignates_of_encode? hrange (by rintro _ _ ⟨⟩; rfl) rfl⟩

/-- Settles O18. -/
theorem resolveFailures : Obligations.ResolveFailures :=
  fun _ ea size _ r hwf hk => (resolve_failsWith hwf ea size hk).raise_iff r

/-- Settles O41: the form's rule fails with the first failure in its Words, and a raise ends in the DATA record. -/
theorem failureOrder : Obligations.FailureOrder := by
  intro s w hwf hw
  have hc := lt_nWords_of_word? hw
  refine ⟨fun hp hclass => step_unclassified hp hw hclass, fun i r hr => ?_, fun i hnone => ?_⟩
  · exact exec_raise hw (((formDecode_failsWith hwf hc i).raise_iff r).2 hr)
  · have hfails := formDecode_failsWith hwf hc i
    rw [hnone] at hfails
    obtain ⟨x, hx⟩ := hfails
    exact exec_of_formDecode_ok hwf hc hx

/-- Settles O12: the names by evaluation; a DATA record has no condition, and a form's own comes from its rule. -/
theorem conditionTranslator : Obligations.ConditionTranslator := by
  refine ⟨by decide, fun i s t r c h hp hcond => ?_⟩
  rw [exec_eq_finish] at h
  rcases finish_next h with ⟨x, raw, hx, -, rfl⟩ | ⟨q, w, -, -, rfl⟩
  · cases hp
    exact formDecode_condition hx hcond
  · cases hp
    cases hcond

/-- Settles O39: a form's own record is its opcode Word and at most four more, a DATA record one Word; MOVE.L of an
immediate to an absolute long address has five. -/
theorem lengthBounds : Obligations.LengthBounds := by
  refine ⟨fun s c r h => ⟨one_le_length_of_decodeAt h, ?_, decodeAt_end_le h⟩, ?_⟩
  · obtain ⟨-, -, -, -, ⟨i, x, -, -, hlen, -⟩ | ⟨q, w, rfl⟩⟩ := decodeAt_cases h
    · have := instrExtCount_le i
      omega
    · simp [dataRecord]
  · exact ⟨State.reset.start (bytesOfWords [0x23FC#16, 0x1234#16, 0x5678#16, 0x0000#16, 0x4000#16]) 0#32,
      _, rfl, rfl, rfl⟩

/-- Settles O40. -/
theorem decodeAtIsAFunction : Obligations.DecodeAtIsAFunction :=
  ⟨fun _ _ hwf hc => decodeAt_total hwf hc, fun _ _ c => decodeAt_congr c, fun _ _ h => scanDecode_pends h⟩

/-- Settles O15. -/
theorem extChecksBounds : Obligations.ExtChecksBounds :=
  fun _ _ => ⟨ext_of_le, fun _ _ hw => ext_eq_ok.2 hw⟩

/-- Settles O44: the decoder classifies the Word of the two bytes, and so does the step. -/
theorem stepRunsTheDecodedInstruction : Obligations.StepRunsTheDecodedInstruction := by
  intro s hi lo rest hp hhi hlo
  have hw := word?_eq_some.2 ⟨hi, lo, hhi, hlo, rfl⟩
  cases hclass : classify s.bsrSlot (wordOfBytes hi lo) with
  | some i =>
    simp only [decode, hclass, Except.ok.injEq, Prod.mk.injEq, reduceCtorEq, false_implies, implies_true, and_true]
    rintro j _ ⟨rfl, -⟩
    exact step_instr hp hw hclass
  | none =>
    simp only [decode, hclass, reduceCtorEq, false_implies, implies_true, true_and]
    exact fun _ _ => step_unclassified hp hw hclass

end Sys2Proof.Machine
end

section
/-! SUPPORT. From the Words at the cursor to the record of a form: what each operand shape answers on Words that designate
its operands, and MOVEM's normalised mask. -/

namespace Sys2Proof.Machine

open Sys2Proof State

/-- A form whose rule answers at the index after the Words at the cursor leaves its record of those Words (R107). -/
theorem exec_of_words {s : State} {i : Instr} {w : Word} {ws : List Word} {mn : Mnemonic} {ops : List Operand}
    {sz : Option OperandSize} {cond : Option Condition} (hh : s.holdsAt s.cursor (w :: ws))
    (hd : formDecode i s = .ok ⟨mn, ops, sz, cond, s.cursor + 1 + ws.length⟩) :
    exec i s = .next (s.withPending (s.recordAt mn ops sz cond (w :: ws))) :=
  exec_of hd hh (by simp only [List.length_cons]; omega)

/-! ### The operand shapes -/

theorem decodeEaThen_of {s : State} {ea : Ea} {easz : OperandSize} {k : Nat} {ws : List Word} {a : AddressingMode}
    (hd : EaDesignates ea easz ws a) (hh : s.holdsAt k ws) (mn : Mnemonic) (sz : Option OperandSize) (dst : Operand) :
    s.decodeEaThen mn sz ea easz dst k = .ok ⟨mn, [⟨a, easz⟩, dst], sz, none, k + ws.length⟩ := by
  simp only [decodeEaThen, resolve_of hd hh, Read.ok_bind, Read.pure_eq]

/-- MOVEM's mask Word comes first, then its EA's Words (R119). -/
theorem decodeMovem_of {s : State} {size : WordOrLong} {ea : Ea} {k : Nat} {m : Word} {ws : List Word}
    {a : AddressingMode} (hd : EaDesignates ea size.toSize ws a) (hh : s.holdsAt k (m :: ws)) :
    s.decodeMovem size ea k = .ok (⟨.registerList (normalizeMask m ea), size.toSize⟩, ⟨a, size.toSize⟩,
      k + (m :: ws).length) := by
  obtain ⟨hm, hws⟩ := holdsAt_cons.1 hh
  simp only [decodeMovem, ext_eq_ok.2 hm, resolve_of hd hws, Read.ok_bind, Read.pure_eq, List.length_cons,
    Nat.add_assoc, Nat.add_comm 1]

/-! ### The normalised mask (R118) -/

theorem normalizeMask_of_ne_preDec {ea : Ea} (h : ∀ n, ea ≠ .preDec n) (m : Word) : normalizeMask m ea = m := by
  cases ea with
  | preDec n => exact (h n rfl).elim
  | dataReg | addrReg | indirect | postInc | disp16 | indexed | absShort | absLong | pcDisp | pcIndexed | immediate
  | reserved => rfl

theorem getLsbD_normalizeMask_preDec (m : Word) (n : Field3) {j : Nat} (hj : j < 16) :
    (normalizeMask m (.preDec n)).getLsbD j = m.getLsbD (15 - j) := by
  simp only [normalizeMask, bitReverse16, BitVec.getLsbD_reverse, BitVec.getMsbD_eq_getLsbD, hj, decide_true,
    Bool.true_and]

/-- The normalised mask is fixed by its bits: those of the mask Word, counted from the top under predecrement. -/
theorem normalizeMask_eq {ea : Ea} {m mask : Word} (hsame : (∀ n, ea ≠ .preDec n) → mask = m)
    (hreversed : (∃ n, ea = .preDec n) → ∀ j, j < 16 → mask.getLsbD j = m.getLsbD (15 - j)) :
    normalizeMask m ea = mask := by
  by_cases h : ∃ n, ea = .preDec n
  · obtain ⟨n, rfl⟩ := h
    apply BitVec.eq_of_getLsbD_eq
    intro j hj
    rw [getLsbD_normalizeMask_preDec m n hj, hreversed ⟨n, rfl⟩ j hj]
  · have hne := not_exists.1 h
    rw [normalizeMask_of_ne_preDec hne, hsame hne]

end Sys2Proof.Machine
end

section
/-! The obligations on MOVE, MOVEA, ADDA and MOVEM (`41_move.md`). -/

namespace Sys2Proof.Machine

open Sys2Proof State

/-- Settles O21: the destination's Words begin where the source's end. -/
theorem moveRecord : Obligations.MoveRecord := by
  intro s size src dst ws vs a b ha hb hh
  obtain ⟨hws, hvs⟩ := holdsAt_append.1 (holdsAt_cons.1 hh).2
  apply exec_of_words hh
  simp only [formDecode, resolve_of ha hws, resolve_of hb hvs, Read.ok_bind, Read.pure_eq, List.length_append,
    ← Nat.add_assoc]

/-- Settles O22: both forms are an EA and then the bare An. -/
theorem moveaAddaRecord : Obligations.MoveaAddaRecord := by
  intro s size an ea ws a ha p hp hh
  have hws := (holdsAt_cons.1 hh).2
  apply exec_of_words hh
  simp only [List.mem_cons, List.not_mem_nil, or_false] at hp
  rcases hp with rfl | rfl
  · exact decodeEaThen_of ha hws .MOVEA _ (anOperand an size.toSize)
  · exact decodeEaThen_of ha hws .ADDA _ (anOperand an size.toSize)

/-- Settles O23: both directions read the mask Word and the EA alike, and name the two operands in their own order. -/
theorem movemRecord : Obligations.MovemRecord := by
  intro s size ea m mask ws a ha hsame hreversed
  obtain rfl := normalizeMask_eq hsame hreversed
  refine ⟨fun hh => exec_of_words hh ?_, fun hh => exec_of_words hh ?_⟩ <;>
    simp only [formDecode, decodeMovem_of ha (holdsAt_cons.1 hh).2, Read.ok_bind, Read.pure_eq]

end Sys2Proof.Machine
end

section
/-! SUPPORT. The record of a form of two operands, one EA and one that takes no Word. -/

namespace Sys2Proof.Machine

open Sys2Proof State

theorem decodeThenEa_of {s : State} {ea : Ea} {size : OperandSize} {k : Nat} {ws : List Word} {a : AddressingMode}
    (hd : EaDesignates ea size ws a) (hh : s.holdsAt k ws) (mn : Mnemonic) (src : Operand) :
    s.decodeThenEa mn size src ea k = .ok ⟨mn, [src, ⟨a, size⟩], some size, none, k + ws.length⟩ := by
  simp only [decodeThenEa, resolve_of hd hh, Read.ok_bind, Read.pure_eq]

/-- A form whose rule is a source EA and then a fixed operand leaves the record of both (R107). -/
theorem exec_of_decodeEaThen {s : State} {i : Instr} {mn : Mnemonic} {sz : Option OperandSize} {ea : Ea}
    {easz : OperandSize} {dst : Operand} {w : Word} {ws : List Word} {a : AddressingMode}
    (hform : formDecode i s = s.decodeEaThen mn sz ea easz dst (s.cursor + 1)) (hd : EaDesignates ea easz ws a)
    (hh : s.holdsAt s.cursor (w :: ws)) :
    exec i s = .next (s.withPending (s.recordAt mn [⟨a, easz⟩, dst] sz none (w :: ws))) :=
  exec_of_words hh (hform.trans (decodeEaThen_of hd (holdsAt_cons.1 hh).2 mn sz dst))

/-- A form whose rule is a fixed operand and then a destination EA leaves the record of both (R107). -/
theorem exec_of_decodeThenEa {s : State} {i : Instr} {mn : Mnemonic} {size : OperandSize} {src : Operand} {ea : Ea}
    {w : Word} {ws : List Word} {a : AddressingMode}
    (hform : formDecode i s = s.decodeThenEa mn size src ea (s.cursor + 1)) (hd : EaDesignates ea size ws a)
    (hh : s.holdsAt s.cursor (w :: ws)) :
    exec i s = .next (s.withPending (s.recordAt mn [src, ⟨a, size⟩] (some size) none (w :: ws))) :=
  exec_of_words hh (hform.trans (decodeThenEa_of hd (holdsAt_cons.1 hh).2 mn src))

end Sys2Proof.Machine
end

section
/-! The obligations on ADD, SUB, MULS and DIVS, and on the forms of OR, CMP and EOR of their operand shapes
(`42_add_sub_mul_div.md`). -/

namespace Sys2Proof.Machine

open Sys2Proof State

/-- Settles O24: the rule of each of the four is the source EA and then Dn. -/
theorem eaToDnRecord : Obligations.EaToDnRecord := by
  intro s size dn ea ws a ha p hp hh
  simp only [List.mem_cons, List.not_mem_nil, or_false] at hp
  rcases hp with rfl | rfl | rfl | rfl <;> exact exec_of_decodeEaThen rfl ha hh

/-- Settles O25: the rule of each of the four is Dn and then the destination EA. -/
theorem dnToEaRecord : Obligations.DnToEaRecord := by
  intro s size dn ea ws a ha p hp hh
  simp only [List.mem_cons, List.not_mem_nil, or_false] at hp
  rcases hp with rfl | rfl | rfl | rfl <;> exact exec_of_decodeThenEa rfl ha hh

/-- Settles O26: the rule is the quick data, `q` by its map 0 -> 8, and then the destination EA. -/
theorem subqRecord : Obligations.SubqRecord := by
  rintro s size _ q ea ws a h1 h8 rfl ha hh
  have hquick : quickOperand (BitVec.ofNat 3 q) size = ⟨.immediate q size, size⟩ := by
    rw [quickOperand, quickValue_ofNat q h1 h8]
  rw [← hquick]
  exact exec_of_decodeThenEa rfl ha hh

/-- Settles O27: both rules are the source EA and then Dn under Word, whatever value the source has. -/
theorem mulsDivsRecord : Obligations.MulsDivsRecord := by
  intro s dn ea ws a ha p hp hh
  simp only [List.mem_cons, List.not_mem_nil, or_false] at hp
  rcases hp with rfl | rfl <;> exact exec_of_decodeEaThen rfl ha hh

end Sys2Proof.Machine
end

section
/-! SUPPORT. The record of a form of one EA alone, and of a form of an explicit immediate and an EA. -/

namespace Sys2Proof.Machine

open Sys2Proof State

theorem decodeEaOnly_of {s : State} {ea : Ea} {easz : OperandSize} {k : Nat} {ws : List Word} {a : AddressingMode}
    (hd : EaDesignates ea easz ws a) (hh : s.holdsAt k ws) (mn : Mnemonic) (sz : Option OperandSize) :
    s.decodeEaOnly mn sz ea easz k = .ok ⟨mn, [⟨a, easz⟩], sz, none, k + ws.length⟩ := by
  simp only [decodeEaOnly, resolve_of hd hh, Read.ok_bind, Read.pure_eq]

/-- The EA's Words begin where the immediate's end (R128). -/
theorem decodeImmThenEa_of {s : State} {ea : Ea} {size : OperandSize} {k v : Nat} {us ws : List Word}
    {a : AddressingMode} (hv : ImmDesignates size us v) (ha : EaDesignates ea size ws a) (hh : s.holdsAt k (us ++ ws))
    (mn : Mnemonic) :
    s.decodeImmThenEa mn size ea k =
      .ok ⟨mn, [⟨.immediate v size, size⟩, ⟨a, size⟩], some size, none, k + (us ++ ws).length⟩ := by
  obtain ⟨hus, hws⟩ := holdsAt_append.1 hh
  simp only [decodeImmThenEa, readImm_of hv hus, Read.ok_bind, decodeThenEa_of ha hws, List.length_append,
    Nat.add_assoc]

/-- A form whose rule is an EA alone leaves the record of that EA (R107). -/
theorem exec_of_decodeEaOnly {s : State} {i : Instr} {mn : Mnemonic} {sz : Option OperandSize} {ea : Ea}
    {easz : OperandSize} {w : Word} {ws : List Word} {a : AddressingMode}
    (hform : formDecode i s = s.decodeEaOnly mn sz ea easz (s.cursor + 1)) (hd : EaDesignates ea easz ws a)
    (hh : s.holdsAt s.cursor (w :: ws)) :
    exec i s = .next (s.withPending (s.recordAt mn [⟨a, easz⟩] sz none (w :: ws))) :=
  exec_of_words hh (hform.trans (decodeEaOnly_of hd (holdsAt_cons.1 hh).2 mn sz))

/-- A form whose rule is an immediate and then a destination EA leaves the record of both (R107). -/
theorem exec_of_decodeImmThenEa {s : State} {i : Instr} {mn : Mnemonic} {size : OperandSize} {ea : Ea} {v : Nat}
    {w : Word} {us ws : List Word} {a : AddressingMode}
    (hform : formDecode i s = s.decodeImmThenEa mn size ea (s.cursor + 1)) (hv : ImmDesignates size us v)
    (ha : EaDesignates ea size ws a) (hh : s.holdsAt s.cursor (w :: (us ++ ws))) :
    exec i s = .next (s.withPending
      (s.recordAt mn [⟨.immediate v size, size⟩, ⟨a, size⟩] (some size) none (w :: (us ++ ws)))) :=
  exec_of_words hh (hform.trans (decodeImmThenEa_of hv ha (holdsAt_cons.1 hh).2 mn))

end Sys2Proof.Machine
end

section
/-! The obligations on LEA, ORI and NEG, and on JSR and CMPI of their operand shapes (`43_lea_or_neg_eor.md`). -/

namespace Sys2Proof.Machine

open Sys2Proof State

/-- Settles O28: LEA's rule is the EA and then An, JSR's the EA alone, both under Long and with no size. -/
theorem leaJsrRecord : Obligations.LeaJsrRecord := by
  intro s ea ws a ha
  exact ⟨fun an hh => exec_of_decodeEaThen rfl ha hh, fun hh => exec_of_decodeEaOnly rfl ha hh⟩

/-- Settles O29: the rule of both is the immediate and then the destination EA. -/
theorem immediateToEaRecord : Obligations.ImmediateToEaRecord := by
  intro s size ea us ws v a hv ha p hp hh
  simp only [List.mem_cons, List.not_mem_nil, or_false] at hp
  rcases hp with rfl | rfl <;> exact exec_of_decodeImmThenEa rfl hv ha hh

/-- Settles O30: the rule is the destination EA alone, under the size pending. -/
theorem negRecord : Obligations.NegRecord := by
  intro s size ea ws a ha hh
  exact exec_of_decodeEaOnly rfl ha hh

end Sys2Proof.Machine
end

section
/-! SUPPORT. The Words of class 1110 that no row takes, and the count and record of a register shift. -/

namespace Sys2Proof

/-- A Word that fails the further conditions of the one row it could belong to has no classification. -/
theorem classify_eq_none_of_further {slot : BsrSlot} {w : Word} {f : Form}
    (hform : formOf (classField w) (regField w) (opmodeField w) = some f) (hfurther : f.further slot w = false) :
    classify slot w = none := by
  apply classify_eq_none_of_fields
  intro g hg
  rw [hform] at hg
  cases hg
  simp only [Form.holds, hfurther, Bool.and_false, Bool.false_and]

/-- In class 1110 the size code 11 marks the memory form (R75, R76). -/
theorem formOf_shift {w : Word} (hc : classField w = 0b1110#4) :
    formOf (classField w) (regField w) (opmodeField w) =
      if sizeField w = 0b11#2 then some .shiftMem else some .shiftReg := by
  rw [hc, sizeField_eq]
  rfl

/-- Type 10 in the register form, bits 4:3, is rotate with extend, which no row takes (R131). -/
theorem classify_eq_none_of_shiftReg_type {slot : BsrSlot} {w : Word} (hc : classField w = 0b1110#4)
    (hsize : sizeField w ≠ 0b11#2) (htype : bfx w 4 3 = 0b10#2) : classify slot w = none := by
  apply classify_eq_none_of_further (f := .shiftReg)
  · rw [formOf_shift hc, if_neg hsize]
  · simp only [Form.further, htype, bne_self_eq_false, Bool.and_false]

/-- Type 10 in the memory form, bits 10:9, is rotate with extend, which no row takes (R131). -/
theorem classify_eq_none_of_shiftMem_type {slot : BsrSlot} {w : Word} (hc : classField w = 0b1110#4)
    (hsize : sizeField w = 0b11#2) (htype : bfx w 10 9 = 0b10#2) : classify slot w = none := by
  apply classify_eq_none_of_further (f := .shiftMem)
  · rw [formOf_shift hc, if_pos hsize]
  · simp only [Form.further, htype, bne_self_eq_false]

end Sys2Proof

namespace Sys2Proof.Machine

open Sys2Proof State

/-- The count operand is the register, or the number with field 000 read as 8 (R132). -/
theorem shiftCountOperand_eq {count : ShiftCount} {cnt : AddressingMode} {size : OperandSize}
    (h : (∃ n : Field3, count = .inReg n ∧ cnt = .dataRegisterDirect n.toFin) ∨
      (∃ q : Nat, 1 ≤ q ∧ q ≤ 8 ∧ count = .quick (BitVec.ofNat 3 q) ∧ cnt = .immediate q size)) :
    shiftCountOperand count size = ⟨cnt, size⟩ := by
  rcases h with ⟨n, rfl, rfl⟩ | ⟨q, h1, h8, rfl, rfl⟩
  · rfl
  · rw [shiftCountOperand, quickOperand, quickValue_ofNat q h1 h8]

/-- A register shift leaves the record of its count and Dy, one Word long (R107, R132). -/
theorem exec_of_decodeShiftReg {s : State} {i : Instr} {mn : Mnemonic} {size : OperandSize} {count : ShiftCount}
    {dy : Field3} {w : Word} (hform : formDecode i s = .ok (decodeShiftReg mn size count dy (s.cursor + 1)))
    (hh : s.holdsAt s.cursor [w]) :
    exec i s = .next (s.withPending
      (s.recordAt mn [shiftCountOperand count size, dnOperand dy size] (some size) none [w])) :=
  exec_of_words hh hform

end Sys2Proof.Machine
end

section
/-! The obligations on the shifts and rotates (`44_shift_rotate.md`). -/

namespace Sys2Proof.Machine

open Sys2Proof State

/-- Settles O9: the names are the table of R131, and a Word with type 10 fails the conditions of its form's one row. -/
theorem shiftNames : Obligations.ShiftNames := by
  refine ⟨⟨rfl, rfl, rfl, rfl, rfl, rfl⟩, fun s w hp hw hc hrox => step_unclassified hp hw ?_⟩
  rcases hrox with ⟨hsize, htype⟩ | ⟨hsize, htype⟩
  · exact classify_eq_none_of_shiftReg_type hc hsize htype
  · exact classify_eq_none_of_shiftMem_type hc hsize htype

/-- Settles O31: the rule of each of the six is the count and then Dy, and no extension Word is read. -/
theorem registerShiftRecord : Obligations.RegisterShiftRecord := by
  intro s size dy count cnt hcount p hp hh
  rw [← shiftCountOperand_eq hcount]
  simp only [List.mem_cons, List.not_mem_nil, or_false] at hp
  rcases hp with rfl | rfl | rfl | rfl | rfl | rfl <;> exact exec_of_decodeShiftReg rfl hh

/-- Settles O32: the rule of each of the six is the destination EA alone, under Word. -/
theorem memoryShiftRecord : Obligations.MemoryShiftRecord := by
  intro s ea ws a ha p hp hh
  simp only [List.mem_cons, List.not_mem_nil, or_false] at hp
  rcases hp with rfl | rfl | rfl | rfl | rfl | rfl <;> exact exec_of_decodeEaOnly rfl ha hh

end Sys2Proof.Machine
end

section
/-! SUPPORT. The size of BCLR's EA, and what its rule answers on the bit-number Word and the EA's Words. -/

namespace Sys2Proof.Machine

open Sys2Proof State

/-- Long for a data register, Byte for any other EA (R134). -/
theorem bclrEaSize_eq {ea : Ea} {ds : OperandSize}
    (h : (∃ n, ea = .dataReg n) ∧ ds = .long ∨ (∀ n, ea ≠ .dataReg n) ∧ ds = .byte) : bclrEaSize ea = ds := by
  rcases h with ⟨⟨n, rfl⟩, rfl⟩ | ⟨hne, rfl⟩
  · rfl
  · cases ea with
    | dataReg n => exact (hne n rfl).elim
    | addrReg | indirect | postInc | preDec | disp16 | indexed | absShort | absLong | pcDisp | pcIndexed | immediate
    | reserved => rfl

/-- The EA's Words begin after the bit-number Word, whose low byte is the first operand (R91, R134). -/
theorem formDecode_bclr_of {s : State} {ea : Ea} {e : Word} {ws : List Word} {a : AddressingMode}
    (hd : EaDesignates ea (bclrEaSize ea) ws a) (hh : s.holdsAt (s.cursor + 1) (e :: ws)) :
    formDecode (.bclr ea) s = .ok ⟨.BCLR, [⟨.immediate (e.toNat % 256) .byte, .byte⟩, ⟨a, bclrEaSize ea⟩], none, none,
      s.cursor + 1 + (e :: ws).length⟩ := by
  obtain ⟨he, hws⟩ := holdsAt_cons.1 hh
  simp only [formDecode, ext_eq_ok.2 he, resolve_of hd hws, lowByte_toNat, Read.ok_bind, Read.pure_eq,
    List.length_cons, Nat.add_assoc, Nat.add_comm 1]

end Sys2Proof.Machine
end

section
/-! The obligation on BCLR (`45_bclr_cmp.md`). -/

namespace Sys2Proof.Machine

open Sys2Proof State

/-- Settles O33: the rule is the bit-number Word and then the EA, under the size `bclrEaSize` fixes. -/
theorem bclrRecord : Obligations.BclrRecord := by
  intro s ea ds e ws a hsize ha hh
  obtain rfl := bclrEaSize_eq hsize
  exact exec_of_words hh (formDecode_bclr_of ha (holdsAt_cons.1 hh).2)

end Sys2Proof.Machine
end

section
/-! SUPPORT. What a branch's displacement Words answer and the record they give, and the Words of the branch and RTS rows
that no row takes. -/

namespace Sys2Proof

/-- A Word that fails the mask test of the one row it could belong to has no classification. -/
theorem classify_eq_none_of_mask {slot : BsrSlot} {w : Word} {f : Form}
    (hform : formOf (classField w) (regField w) (opmodeField w) = some f) (hmask : w &&& f.mask ≠ f.pattern) :
    classify slot w = none := by
  apply classify_eq_none_of_fields
  intro g hg
  rw [hform] at hg
  cases hg
  exact eq_false_of_ne_true fun hholds => hmask (mask_of_holds hholds)

/-- The Words 0x4E70 to 0x4E77 have the class, register and opmode of RTS, whose mask leaves 0x4E75 alone (R143). -/
theorem classify_eq_none_of_rts_neighbour {slot : BsrSlot} {w : Word} (hw : w &&& 0xFFF8#16 = 0x4E70#16)
    (hne : w ≠ 0x4E75#16) : classify slot w = none := by
  simp only [mask_iff_literals, BitVec.reduceExtractLsb', field4_and_ones, field3_and_ones] at hw
  obtain ⟨hc, hr, ho, -, -⟩ := hw
  apply classify_eq_none_of_mask (f := .rts)
  · rw [hc, hr, ho]
    rfl
  · rw [Form.mask, Form.pattern, show 0xFFFF#16 = BitVec.allOnes 16 from rfl, BitVec.and_allOnes]
    exact hne

/-- The Words 0x6100 to 0x61FF are the format of Bcc with condition 0001 (R77, R140). -/
theorem fmtBr_one (b : Byte) : fmtBr 0b0001#4 b = 0x61#8 ++ b := rfl

/-- With BSR_SLOT = Data the branch row's further condition shuts out condition 0001 (R95, R140). -/
theorem classify_fmtBr_one_eq_none (b : Byte) : classify .data (fmtBr 0b0001#4 b) = none := by
  apply classify_eq_none_of_further (f := .branch)
  · rw [fmtBr_pack, classField_pack]
    rfl
  · rw [Form.further, condField_fmtBr]
    rfl

end Sys2Proof

namespace Sys2Proof.Machine

open Sys2Proof State

/-- A displacement that is answered is the one its Words carry (R92, R137). -/
theorem branchDesignates_of_branchDisp {s : State} {b : Byte} {k k' : Nat} {disp : Int} {width : OperandSize}
    (h : s.branchDisp b k = .ok (disp, width, k')) (hk : k ≤ s.nWords) :
    ∃ ws, BranchDesignates b ws disp width ∧ s.holdsAt k ws ∧ k' = k + ws.length := by
  simp only [branchDisp] at h
  simp only [BranchDesignates]
  by_cases h0 : b = 0x00#8
  · simp only [if_pos h0, Read.bind_eq_ok, ext_eq_ok, Read.pure_eq, Except.ok.injEq, Prod.mk.injEq] at h ⊢
    obtain ⟨e, he, rfl, rfl, rfl⟩ := h
    exact ⟨[e], ⟨e, rfl, rfl, rfl⟩, holdsAt_one.2 he, rfl⟩
  by_cases hff : b = 0xFF#8
  · simp only [if_neg h0, if_pos hff, Read.bind_eq_ok, extLong_eq_ok, Read.pure_eq, Except.ok.injEq,
      Prod.mk.injEq] at h ⊢
    obtain ⟨x, ⟨hi, lo, hhi, hlo, rfl⟩, rfl, rfl, rfl⟩ := h
    exact ⟨[hi, lo], ⟨hi, lo, rfl, rfl, rfl⟩, holdsAt_two.2 ⟨hhi, hlo⟩, rfl⟩
  · simp only [if_neg h0, if_neg hff, Except.ok.injEq, Prod.mk.injEq] at h ⊢
    obtain ⟨rfl, rfl, rfl⟩ := h
    exact ⟨[], ⟨rfl, rfl, rfl⟩, (holdsAt_nil s k).2 hk, rfl⟩

/-- The operand of a branch is the displacement its Words designate, with the target (R138, R141). -/
theorem decodeBranch_of {s : State} {b : Byte} {k : Nat} {ws : List Word} {disp : Int} {width : OperandSize}
    (hd : BranchDesignates b ws disp width) (hh : s.holdsAt k ws) (mn : Mnemonic) (cond : Condition) (c : Nat) :
    s.decodeBranch mn cond b c k = .ok ⟨mn, [⟨.branchTarget disp (s.branchTargetOf c disp), width⟩], some width,
      some cond, k + ws.length⟩ := by
  simp only [decodeBranch, branchDisp_of hd hh, Read.ok_bind, Read.pure_eq]

/-- A form whose rule is a branch's leaves the record of the displacement, the target and the condition (R107). -/
theorem exec_of_decodeBranch {s : State} {i : Instr} {mn : Mnemonic} {cond : Condition} {b : Byte} {w : Word}
    {ws : List Word} {disp : Int} {width : OperandSize}
    (hform : formDecode i s = s.decodeBranch mn cond b s.cursor (s.cursor + 1))
    (hd : BranchDesignates b ws disp width) (hh : s.holdsAt s.cursor (w :: ws)) :
    exec i s = .next (s.withPending (s.recordAt mn [⟨.branchTarget disp
      (BitVec.ofNat 32 (s.base.toNat + 2 * s.cursor) + 2#32 + BitVec.ofInt 32 disp), width⟩] (some width) (some cond)
      (w :: ws))) := by
  rw [← branchTarget_eq]
  exact exec_of_words hh (hform.trans (decodeBranch_of hd (holdsAt_cons.1 hh).2 mn cond s.cursor))

/-- RTS reads no Word but its own (R143). -/
theorem exec_rts {s : State} {w : Word} (hw : s.word? s.cursor = some w) :
    exec .rts s = .next (s.withPending (s.recordAt .RTS [] none none [w])) :=
  exec_of_words (holdsAt_one.2 hw) rfl

end Sys2Proof.Machine
end

section
/-! The obligations on Bcc, BRA and RTS (`46_branch_jsr_rts.md`). -/

namespace Sys2Proof.Machine

open Sys2Proof State

/-- Settles O8: the Word is Bcc's with condition 0001, which the classifier takes under BccF alone. -/
theorem bsrSlotDecides : Obligations.BsrSlotDecides := by
  refine ⟨rfl, fun s b ws hp hh => ?_⟩
  have hw := (holdsAt_cons.1 hh).1
  rw [← fmtBr_one] at hw hh ⊢
  refine ⟨fun hslot => step_unclassified hp hw ?_, fun hslot disp width hd => ?_⟩
  · rw [hslot]
    exact classify_fmtBr_one_eq_none b
  · have hclassify : classify s.bsrSlot (fmtBr 0b0001#4 b) = some (.bcc 0b0001#4 b) := by
      rw [hslot]
      exact classify_encode (i := .bcc 0b0001#4 b) rfl
    rw [step_instr hp hw hclassify]
    exact exec_of_decodeBranch rfl hd hh

/-- Settles O20, from what an answered displacement read and from what the designated Words answer. -/
theorem branchDisplacement : Obligations.BranchDisplacement := by
  refine fun s b k hk => ⟨fun disp width k' => ⟨fun h => branchDesignates_of_branchDisp h hk, ?_⟩,
    fun hwf hmissing => ?_⟩
  · rintro ⟨ws, hd, hh, rfl⟩
    exact branchDisp_of hd hh
  · have hfails := branchDisp_failsWith hwf b hk
    rwa [truncation_of_lt hmissing] at hfails

/-- Settles O34: both rules are the branch's, with the condition of the field, 0000 for BRA. -/
theorem branchRecord : Obligations.BranchRecord := by
  intro s b ws disp width hd
  exact ⟨fun hh => exec_of_decodeBranch rfl hd hh, fun cond hh => exec_of_decodeBranch rfl hd hh⟩

/-- Settles O35: the classifier takes 0x4E75 as RTS, which reads no further Word, and none of its neighbours. -/
theorem rtsRecord : Obligations.RtsRecord := by
  refine ⟨fun s hw => ⟨exec_rts hw, fun hp => ?_⟩, fun s w hp hw hrow hne => ?_⟩
  · rw [step_instr hp hw (classify_encode (i := .rts) rfl)]
    exact exec_rts hw
  · exact step_unclassified hp hw (classify_eq_none_of_rts_neighbour hrow hne)

end Sys2Proof.Machine
end

section
/-! SUPPORT. The system Words no row takes (R157), the reasons a form's rule can raise (R145), and the way back from a
DATA record (R152). -/

namespace Sys2Proof

/-! ### The system and privileged Words -/

/-- The Words 0x4E40 to 0x4E7F (TRAP, MOVE USP, RESET and their neighbours) have the class, register and opmode of RTS,
whose mask leaves 0x4E75 alone. -/
theorem classify_eq_none_of_rts_fields {slot : BsrSlot} {w : Word} (hc : classField w = 0b0100#4)
    (hr : regField w = 0b111#3) (ho : opmodeField w = 0b001#3) (hne : w ≠ 0x4E75#16) : classify slot w = none := by
  apply classify_eq_none_of_mask (f := .rts)
  · rw [hc, hr, ho]
    rfl
  · rw [Form.mask, Form.pattern, show 0xFFFF#16 = BitVec.allOnes 16 from rfl, BitVec.and_allOnes]
    exact hne

/-- Opmode 110 of class 0100 (CHK) has bit 8 set, which JSR, MOVEM and NEG have clear, and is not LEA's 111. -/
theorem classify_eq_none_of_chk_fields {slot : BsrSlot} {w : Word} (hc : classField w = 0b0100#4)
    (ho : opmodeField w = 0b110#3) : classify slot w = none := by
  have hmask : ∀ f ∈ [Form.jsr, .movemR2M, .movemM2R, .neg], w &&& f.mask ≠ f.pattern := by
    simp [mask_iff_literals, Form.mask, Form.pattern, ho]
  obtain ⟨f, hf, hform⟩ : ∃ f ∈ [Form.jsr, .movemR2M, .movemM2R, .neg],
      formOf (classField w) (regField w) (opmodeField w) = some f := by
    rw [hc, ho]
    generalize regField w = r
    revert r
    decide
  exact classify_eq_none_of_mask hform (hmask f hf)

/-- Opmode 011 of class 0100 (the moves to and from SR and CCR, ILLEGAL) is NEG's place with the size code 11. -/
theorem classify_eq_none_of_neg_size {slot : BsrSlot} {w : Word} (hc : classField w = 0b0100#4)
    (ho : opmodeField w = 0b011#3) (hr : regField w ∉ [7#3, 4#3, 6#3]) : classify slot w = none := by
  apply classify_eq_none_of_further (f := .neg)
  · simp only [List.mem_cons, List.not_mem_nil, or_false, not_or] at hr
    obtain ⟨h7, h4, h6⟩ := hr
    simp [formOf, hc, ho, h7, h4, h6]
  · rw [Form.further, sizeField_eq, ho]
    rfl

/-- An immediate is the destination of no form of class 0000 (ORI, ANDI and EORI to CCR and SR). -/
theorem classify_eq_none_of_immediate_destination {slot : BsrSlot} {w : Word} (hc : classField w = 0b0000#4)
    (hea : eaField w = .immediate) : classify slot w = none := by
  by_cases h4 : regField w = 4#3
  · exact classify_eq_none_of_ea (f := .bclrImm) (by simp [formOf, hc, h4]) fun _ => by rw [hea]; rfl
  by_cases h0 : regField w = 0#3
  · exact classify_eq_none_of_ea (f := .ori) (by simp [formOf, hc, h0]) fun _ => by rw [hea]; rfl
  · exact classify_eq_none_of_ea (f := .cmpi) (by simp [formOf, hc, h4, h0]) fun _ => by rw [hea]; rfl

end Sys2Proof

namespace Sys2Proof.Machine

open Sys2Proof State

/-! ### The reasons of each form -/

/-- The forms without an EA (R95). -/
theorem ea?_eq_none_iff (i : Instr) : i.ea? = none ↔ i.form = .rts ∨ i.form = .shiftReg ∨ i.form = .branch := by
  cases i <;> simp [Instr.ea?, Instr.form]

theorem branchCount_pos_iff (b : Byte) : 1 ≤ branchCount b ↔ b = 0x00#8 ∨ b = 0xFF#8 := by
  simp only [branchCount]
  split
  · simp [*]
  · split <;> simp [*]

theorem immCount_pos (size : OperandSize) : 1 ≤ immCount size := by
  cases size <;> decide

/-- A form's rule raises TruncatedBuffer for missing Words and UnsupportedAddressingMode for an EA, no other reason. -/
theorem formDecode_raise {i : Instr} {s : State} {q : DataReason} (hc : s.cursor < s.nWords)
    (h : formDecode i s = .error (.raise q)) :
    (q = .truncatedBuffer ∧ s.nWords < s.cursor + 1 + instrExtCount i) ∨
      (q = .unsupportedAddressingMode ∧ i.ea? ≠ none) := by
  rcases formDecode_error hc h with hhole | ⟨hq, hmissing⟩ | ⟨hq, hea⟩
  · exact (not_isHole_raise s q hhole).elim
  · cases hq
    exact .inl ⟨rfl, hmissing⟩
  · cases hq
    exact .inr ⟨rfl, hea⟩

/-- RTS, the register shifts and a short branch have neither an EA nor an extension Word. -/
theorem ea?_eq_none_and_instrExtCount_eq_zero {i : Instr} (h : i.form = .rts ∨ i.form = .shiftReg ∨
      (∃ b : Byte, b ≠ 0x00#8 ∧ b ≠ 0xFF#8 ∧ (i = .bra b ∨ ∃ cond, i = .bcc cond b))) :
    i.ea? = none ∧ instrExtCount i = 0 := by
  cases i with
  | rts | asrReg size count dy | aslReg size count dy | lsrReg size count dy | lslReg size count dy
  | rorReg size count dy | rolReg size count dy => exact ⟨rfl, rfl⟩
  | bra b | bcc cond b =>
    have hshort : ¬ (b = 0x00#8 ∨ b = 0xFF#8) := by simpa [Instr.form] using h
    exact ⟨rfl, Nat.eq_zero_of_not_pos fun hpos => hshort ((branchCount_pos_iff b).1 hpos)⟩
  | _ => simp [Instr.form] at h

/-- MOVEM, BCLR, ORI, CMPI and the branches with a displacement Word read at least one extension Word. -/
theorem one_le_instrExtCount {i : Instr} (h : i.form = .movemR2M ∨ i.form = .movemM2R ∨ i.form = .bclrImm ∨
      i.form = .ori ∨ i.form = .cmpi ∨ i = .bra 0x00#8 ∨ i = .bra 0xFF#8 ∨
      (∃ cond, i = .bcc cond 0x00#8 ∨ i = .bcc cond 0xFF#8)) : 1 ≤ instrExtCount i := by
  cases i with
  | movemR2M size ea | movemM2R size ea | bclr ea => exact Nat.le_add_right 1 _
  | ori size ea | cmpi size ea => exact Nat.le_add_right_of_le (immCount_pos size)
  | bra b | bcc cond b => exact (branchCount_pos_iff b).2 (by simpa [Instr.form, exists_or] using h)
  | _ => simp [Instr.form] at h

/-! ### Recovery -/

@[simp] theorem withPending_decodeAt (s : State) (r : Instruction) (c : Nat) :
    decodeAt (s.withPending r) c = decodeAt s c :=
  decodeAt_congr c rfl rfl rfl rfl

@[simp] theorem emitRecord_decodeAt (s : State) (r : Instruction) (c : Nat) :
    decodeAt (s.emitRecord r) c = decodeAt s c :=
  decodeAt_congr c rfl rfl rfl rfl

@[simp] theorem dataAt_lengthInWords (s : State) (w : Word) (r : DataReason) : (s.dataAt w r).lengthInWords = 1 := rfl

/-- EMIT of the record SCAN-DECODE left pending (R38). -/
theorem step_withPending (s : State) (r : Instruction) :
    step (s.withPending r) = .next ((s.withPending r).emitRecord r) :=
  step_emitRecord rfl rfl

end Sys2Proof.Machine
end

section
/-! SUPPORT. The states a host can reach meet the invariant (R148), and the run of a segment agrees with the run of the
whole buffer (R160). -/

namespace Sys2Proof.Machine

open Sys2Proof State

theorem Reachable.inv {s : State} (h : Reachable s) : s.Inv := by
  induction h with
  | start s bytes base => exact Inv.of_start s bytes base
  | move m _ hmove ih =>
    cases m with
    | start bytes base =>
      cases hmove
      exact Inv.of_start _ bytes base
    | step => exact ih.of_step hmove

/-- No run writes the buffer, `L`, BASE or BSR_SLOT (R33, R46). -/
theorem run_input {k : Nat} {s t : State} (h : run k s = .next t) :
    t.buf = s.buf ∧ t.len = s.len ∧ t.base = s.base ∧ t.bsrSlot = s.bsrSlot := by
  induction k generalizing s with
  | zero =>
    cases h
    exact ⟨rfl, rfl, rfl, rfl⟩
  | succ k ih =>
    obtain ⟨m, hst, hrun⟩ := run_succ_next h
    obtain ⟨hbuf, hlen, hbase, hslot⟩ := step_input hst
    obtain ⟨hbuf', hlen', hbase', hslot'⟩ := ih hrun
    exact ⟨hbuf'.trans hbuf, hlen'.trans hlen, hbase'.trans hbase, hslot'.trans hslot⟩

/-- The records of a run cover the Words up to the cursor, in the buffer the run began with (R41). -/
theorem run_covers {k : Nat} {s t : State} (h : s.Inv) (hrun : run k s = .next t) : s.covers 0 t.out t.cursor := by
  obtain ⟨hbuf, hlen, hbase, hslot⟩ := run_input hrun
  exact (covers_congr hbuf hlen hbase hslot _ _ _).1 (run_inv h hrun).1.covered

/-- At the end of a run its records cover the whole buffer (R36, R41). -/
theorem run_covers_all {k : Nat} {s t : State} (h : s.Inv) (hrun : run k s = .next t) (he : t.phase = .endOfBuffer) :
    s.covers 0 t.out s.nWords := by
  obtain ⟨ht, hlen, -⟩ := run_inv h hrun
  rw [← nWords_congr hlen, ← ht.ended he]
  exact run_covers h hrun

/-- The bytes from Word `b` on, latched by a START of their own, are the Words from `b` on of the whole buffer. -/
theorem agree_start_drop (s s' : State) {bytes : List Byte} (base base' : Addr) {b : Nat} (h : 2 * b ≤ bytes.length) :
    Agree (s.start bytes base) (s'.start (bytes.drop (2 * b)) base') b 0 where
  nWords := by
    simp only [nWords, start_len, List.length_drop]
    omega
  word j _ := by
    simp only [word?, start_byte?, List.getElem?_drop, Nat.mul_add, Nat.add_assoc]

/-- With the base moved by `2b` the segment reports the addresses of the whole buffer (R54, R160). -/
theorem addressOf_start_drop (s s' : State) (bytes bytes' : List Byte) (base : Addr) (b c : Nat) :
    (s.start bytes base).addressOf (b + c) =
      (s'.start bytes' (base + BitVec.ofNat 32 (2 * b))).addressOf c := by
  simp only [addressOf_eq, start_base, BitVec.ofNat_add, BitVec.ofNat_toNat, BitVec.setWidth_eq, Nat.mul_add,
    BitVec.add_assoc]

end Sys2Proof.Machine
end

section
/-! The obligations on exceptions (`60_exceptions.md`). -/

namespace Sys2Proof.Machine

open Sys2Proof State

/-- Settles O7: no row takes a Word of the table, so the step leaves its DATA record, and EMIT moves on by one Word. -/
theorem systemWordsAreData : Obligations.SystemWordsAreData := by
  intro s w hp hw hrow
  refine ⟨_, _, step_unclassified hp hw ?_, rfl, step_withPending _ _, rfl, rfl, rfl⟩
  simp only [mask_iff_literals, BitVec.reduceExtractLsb', field4_and_ones, field3_and_ones] at hrow
  rcases hrow with ⟨hc, hr, ho, hm, -⟩ | rfl | ⟨hc, -, ho, -⟩ | rfl | rfl | rfl | rfl | rfl | rfl |
    ⟨hc, hr, ho, hm, -⟩ | ⟨hc, hr, ho, -⟩ | ⟨hc, hr, ho, -⟩ | ⟨hc, hr, ho, -⟩ | rfl | rfl | rfl | rfl | rfl | rfl
  · exact classify_eq_none_of_rts_fields hc hr ho (by rintro rfl; exact absurd hm (by decide))
  · exact classify_eq_none_of_rts_fields rfl rfl rfl (by decide)
  · exact classify_eq_none_of_chk_fields hc ho
  · exact classify_eq_none_of_neg_size rfl rfl (by decide)
  iterate 5 exact classify_eq_none_of_rts_fields rfl rfl rfl (by decide)
  · exact classify_eq_none_of_rts_fields hc hr ho (by rintro rfl; exact absurd hm (by decide))
  iterate 3 exact classify_eq_none_of_neg_size hc ho (by rw [hr]; decide)
  all_goals exact classify_eq_none_of_immediate_destination rfl rfl

/-- Settles O42: a DATA record carries the reason the form's rule raised, and which it can raise follows from its EA and
its extension Words. -/
theorem reasonsOfEachForm : Obligations.ReasonsOfEachForm := by
  refine ⟨fun i s t r hc h hp => ?_, fun i => one_le_instrExtCount⟩
  rcases exec_cases hc h hp with ⟨x, -, -, -, hnone⟩ | ⟨q, w, hraise, -, rfl⟩
  · simp [hnone]
  · rcases formDecode_raise hc hraise with ⟨rfl, hmissing⟩ | ⟨rfl, hea⟩
    · refine ⟨by simp [dataRecord], by simp [dataRecord], fun _ => hmissing, fun hform => ?_⟩
      have := (ea?_eq_none_and_instrExtCount_eq_zero hform).2
      omega
    · refine ⟨by simp [dataRecord], fun _ => ?_, by simp [dataRecord],
        fun hform => (hea (ea?_eq_none_and_instrExtCount_eq_zero hform).1).elim⟩
      simpa [ea?_eq_none_iff] using hea

/-- Settles O43: EMIT appends the DATA record and moves on by its one Word, and the decode at the next Word is that
of the buffer no step writes. -/
theorem recoveryResynchronises : Obligations.RecoveryResynchronises := by
  rintro s _ w r hwf rfl
  refine ⟨_, step_withPending _ _, rfl, rfl, rfl, rfl, fun hc => ?_⟩
  obtain ⟨q, hq⟩ := decodeAt_total hwf hc
  exact ⟨q, hq, step_pend rfl hc (by simpa using hq)⟩

/-- Settles O58: a reachable state meets the invariant, which gives each state that is not final its step. -/
theorem noReachableStateFails : Obligations.NoReachableStateFails := by
  intro s h
  by_cases hf : s.final
  · exact .inl ⟨hf, fun f => by simp [step_of_final hf]⟩
  · obtain ⟨t, hst⟩ := h.inv.exists_step hf
    exact .inr ⟨hf, t, hst, .move .step h hst⟩

/-- Settles O60: the records up to the boundary and those of the segment's run together cover the whole buffer, and a
buffer has one cover. -/
theorem segmentRunAgrees : Obligations.SegmentRunAgrees := by
  intro s s' bytes base k m n t u v _ hslot ht _ hu hue hv hve
  have hinv := Inv.of_start s bytes base
  have hbefore := run_covers hinv ht
  have hwhole := run_covers_all hinv hu hue
  have hsegment := run_covers_all (Inv.of_start _ _ _) hv hve
  have hboundary : 2 * t.cursor ≤ bytes.length := by
    obtain ⟨htinv, hlen, -⟩ := run_inv hinv ht
    have hle := htinv.cursorLe
    rw [nWords, hlen, start_len] at hle
    omega
  have hagree := agree_start_drop s s' base (base + BitVec.ofNat 32 (2 * t.cursor)) hboundary
  have hafter := covers_shift hagree hslot.symm (addressOf_start_drop s s' _ _ base t.cursor) hsegment
  rw [Nat.add_zero, ← hagree.nWords] at hafter
  exact covers_unique hwhole (covers_append.2 ⟨t.cursor, hbefore, hafter⟩)

end Sys2Proof.Machine
end

section
/-! SUPPORT. What the decoder of bytes answers for the Words of a table word (log 8). -/

namespace Sys2Proof

theorem decode_bytesOfWords_cons {slot : BsrSlot} {w : Word} {i : Instr} (ws : List Word)
    (h : classify slot w = some i) : decode slot (bytesOfWords (w :: ws)) = .ok (i, bytesOfWords ws) := by
  simp only [bytesOfWords, bytesOfWord, List.flatMap_cons, List.cons_append, List.nil_append, decode,
    wordOfBytes_of_bytesOfWord, h]

theorem decodeTableWord_of_classify {nbits w : Nat} {i : Instr}
    (h : classify Config.bsrSlotDefault (BitVec.ofNat 16 (w % 2 ^ nbits)) = some i) :
    decodeTableWord nbits w = some i := by
  rw [decodeTableWord, Machine.tableWords_cons, decode_bytesOfWords_cons _ h]

end Sys2Proof
end

section
/-! The obligations on reset and on the load of a program (`70_reset_and_hazards.md`, `10_state.md` section 3). -/

namespace Sys2Proof.Machine

open Sys2Proof State

/-- Settles O52: what START leaves depends on the state before it through BSR_SLOT alone, and from the reset state the
empty START leaves the reset state. -/
theorem resetIsAnEmptyStart : Obligations.ResetIsAnEmptyStart := by
  obtain ⟨-, hsameStart⟩ := startCommand
  have hreset : hostMove (.start [] 0#32) reset = .next reset := rfl
  exact ⟨rfl, rfl, rfl, rfl, rfl, rfl, rfl, rfl, fun s hslot => (hsameStart s reset [] 0#32 hslot).trans hreset⟩

/-- Settles O53: the Words placed at the cursor begin with the opcode Word that the step and the decoder of bytes both
classify. -/
theorem fetchWordRuns : Obligations.FetchWordRuns := by
  intro s nbits w
  have hholds : (s.withFetchWord nbits w).holdsAt s.cursor (tableWords nbits w) := loadAtCursor_holdsAt s _
  have hcons := hholds
  rw [tableWords_cons] at hcons
  obtain ⟨hopcode, -⟩ := holdsAt_cons.1 hcons
  refine ⟨hholds, fun i hclass => ⟨step_instr rfl hopcode hclass, fun hslot => ?_⟩⟩
  rw [hslot] at hclass
  exact decodeTableWord_of_classify hclass

end Sys2Proof.Machine
end
